-- ==== Sys2Proof/Word.lean ====
section
/-! DEFINITION. The word types of SRS-PIVR: storage words, 64-bit operands, the two packets. -/

namespace Sys2Proof

/-- A 64-bit operand of a request, "taken as unsigned 64-bit naturals exactly as they stand" (30 R72). -/
abbrev U64 := BitVec 64

/-- A storage word: "a natural in [0, 2^W)" (40 R90). W is a strap of the block, so the bound is a
part of the stores' canonical form (`Machine.Memory.wf`) and not of the type (log 15). -/
abbrev Word := Nat

/-- The request packet REQ[159:0] (30 R71). -/
abbrev RequestPacket := BitVec 160

/-- The response packet RSP[95:0] (30 R73). -/
abbrev ResponsePacket := BitVec 96

/-- The four supported word widths (00 R6). -/
inductive WordWidth where
  | w8
  | w16
  | w32
  | w64
deriving DecidableEq, Repr

/-- The number of bits of a width. -/
def WordWidth.bits : WordWidth → Nat
  | .w8 => 8
  | .w16 => 16
  | .w32 => 32
  | .w64 => 64

end Sys2Proof
end

