-- ==== Sys2Proof/Syntax.lean ====
section
/-! DEFINITION. The commands: one constructor per row of spec/opcode_table.json (30 R74). -/

namespace Sys2Proof

/-- The sixteen rows of the opcode map (30 R74), in its order. The operands are the u64 operands A and B
that the row's format reads (30 R71, R72). -/
inductive Instr where
  /-- NEW k, n (0x10, FAB): construct the vector (41 R111). -/
  | new (k n : U64)
  /-- LEN (0x11, F0): the element count (41 R122). -/
  | len
  /-- ISEMPTY (0x12, F0): whether there are no elements (41 R123). -/
  | isempty
  /-- GET i (0x13, FA): read element i (41 R116). -/
  | get (i : U64)
  /-- SET i, value (0x14, FAB): write element i (41 R118). -/
  | set (i value : U64)
  /-- GETBIT pos (0x15, FA): read one flat bit (41 R120). -/
  | getbit (pos : U64)
  /-- SETBIT pos, v (0x16, FAB): write one flat bit (41 R121). -/
  | setbit (pos v : U64)
  /-- ITER (0x20, F0): create or restart the iterator (42 R141). -/
  | iter
  /-- ITNEXT (0x21, F0): consume from the front (42 R142). -/
  | itnext
  /-- ITPREV (0x22, F0): consume from the back (42 R143). -/
  | itprev
  /-- ITSKIP m (0x23, FA): saturating forward skip (42 R144). -/
  | itskip (m : U64)
  /-- BUILD sel (0x30, FA): build the rank index (43 R156). -/
  | build (sel : U64)
  /-- RANK position (0x31, FA): inclusive rank query (43 R165). -/
  | rank (position : U64)
  /-- SELECT1 k (0x40, FA): held for the external select component (44 R185). -/
  | select1 (k : U64)
  /-- SELECT0 k (0x41, FA): held for the external select component (44 R185). -/
  | select0 (k : U64)
  /-- SELECT k, value (0x42, FAB): held for the external select component (44 R185). -/
  | select (k value : U64)
deriving DecidableEq, Repr

/-- The three formats: "the three formats differ only in which operands the command reads" (30 R71). -/
inductive Format where
  /-- Reads neither A nor B. -/
  | f0
  /-- Reads A. -/
  | fa
  /-- Reads A and B. -/
  | fab
deriving DecidableEq, Repr

/-- The format of a row (30 R74). -/
def Instr.format : Instr → Format
  | .new _ _ => .fab
  | .len => .f0
  | .isempty => .f0
  | .get _ => .fa
  | .set _ _ => .fab
  | .getbit _ => .fa
  | .setbit _ _ => .fab
  | .iter => .f0
  | .itnext => .f0
  | .itprev => .f0
  | .itskip _ => .fa
  | .build _ => .fa
  | .rank _ => .fa
  | .select1 _ => .fa
  | .select0 _ => .fa
  | .select _ _ => .fab

end Sys2Proof
end

