-- ==== Sys2Proof/Decode.lean ====
section
/-! DEFINITION. Request packets: the fields (30 R71), the total decoder (30 R74 to R76) and the encoder
(30 R74, R77). -/

namespace Sys2Proof

/-- OP = REQ[7:0] (30 R71). -/
def opField (p : RequestPacket) : BitVec 8 := p.extractLsb' 0 8

/-- RSV = REQ[31:8], "reserved, must be zero" (30 R71). -/
def rsvField (p : RequestPacket) : BitVec 24 := p.extractLsb' 8 24

/-- HDR = REQ[31:0], the header word (30 R71). -/
def hdrField (p : RequestPacket) : BitVec 32 := p.extractLsb' 0 32

/-- A = REQ[95:32] (30 R71). -/
def aField (p : RequestPacket) : U64 := p.extractLsb' 32 64

/-- B = REQ[159:96] (30 R71). -/
def bField (p : RequestPacket) : U64 := p.extractLsb' 96 64

/-- Why a packet is no command: both reasons are answered IllegalCommand (30 R75). -/
inductive DecodeError where
  /-- REQ[31:8] is not zero, "whatever its opcode". Raised by `decode`; safe. -/
  | reservedBits
  /-- The opcode stands in no row of the map. Raised by `decode`; safe. -/
  | unlistedOpcode (op : Nat)
deriving DecidableEq, Repr

/-- The opcode map (30 R74): the command of an opcode with the operands its format reads. -/
def decodeOp (op : Nat) (a b : U64) : Option Instr :=
  match op with
  | 0x10 => some (.new a b)
  | 0x11 => some .len
  | 0x12 => some .isempty
  | 0x13 => some (.get a)
  | 0x14 => some (.set a b)
  | 0x15 => some (.getbit a)
  | 0x16 => some (.setbit a b)
  | 0x20 => some .iter
  | 0x21 => some .itnext
  | 0x22 => some .itprev
  | 0x23 => some (.itskip a)
  | 0x30 => some (.build a)
  | 0x31 => some (.rank a)
  | 0x40 => some (.select1 a)
  | 0x41 => some (.select0 a)
  | 0x42 => some (.select a b)
  | _ => none

/-- "A command is selected by HDR alone" and "decoding is total" (30 R74, R76). The three held SELECT
encodings decode to constructors of their own, whose meaning is the answer to an illegal command
(44 R185, log 17). -/
def decode (p : RequestPacket) : Except DecodeError Instr :=
  if rsvField p ≠ 0 then .error .reservedBits
  else
    match decodeOp (opField p).toNat (aField p) (bField p) with
    | some i => .ok i
    | none => .error (.unlistedOpcode (opField p).toNat)

/-- The command a packet stands for, if it stands for one. -/
def decodeCommand (p : RequestPacket) : Option Instr :=
  match decode p with
  | .ok i => some i
  | .error _ => none

/-- The packet of a header word and two operands: `B·2^96 + A·2^32 + HDR` (95 V10). -/
def requestPacket (hdr : BitVec 32) (a b : U64) : RequestPacket := b ++ a ++ hdr

/-- The opcode of a command (30 R74). -/
def opcode : Instr → BitVec 32
  | .new _ _ => 0x10
  | .len => 0x11
  | .isempty => 0x12
  | .get _ => 0x13
  | .set _ _ => 0x14
  | .getbit _ => 0x15
  | .setbit _ _ => 0x16
  | .iter => 0x20
  | .itnext => 0x21
  | .itprev => 0x22
  | .itskip _ => 0x23
  | .build _ => 0x30
  | .rank _ => 0x31
  | .select1 _ => 0x40
  | .select0 _ => 0x41
  | .select _ _ => 0x42

/-- Operand A of a command's packet; 0 when its format does not read A (30 R77). -/
def operandA : Instr → U64
  | .new k _ => k
  | .len => 0
  | .isempty => 0
  | .get i => i
  | .set i _ => i
  | .getbit pos => pos
  | .setbit pos _ => pos
  | .iter => 0
  | .itnext => 0
  | .itprev => 0
  | .itskip m => m
  | .build sel => sel
  | .rank position => position
  | .select1 k => k
  | .select0 k => k
  | .select k _ => k

/-- Operand B of a command's packet; 0 when its format does not read B (30 R77). -/
def operandB : Instr → U64
  | .new _ n => n
  | .len => 0
  | .isempty => 0
  | .get _ => 0
  | .set _ value => value
  | .getbit _ => 0
  | .setbit _ v => v
  | .iter => 0
  | .itnext => 0
  | .itprev => 0
  | .itskip _ => 0
  | .build _ => 0
  | .rank _ => 0
  | .select1 _ => 0
  | .select0 _ => 0
  | .select _ value => value

/-- The packet of a command: "OP from rule R74, RSV = 0, the operands read by the format in A then B,
and every operand the format does not read set to 0" (30 R77). -/
def encode (i : Instr) : RequestPacket := requestPacket (opcode i) (operandA i) (operandB i)

/-- The packet whose bits are `w`, of which the table gives the lowest `nbits`. -/
def tablePacket (nbits w : Nat) : RequestPacket := BitVec.ofNat 160 (w % 2 ^ nbits)

/-- The command the decoder reads from a row's bits (the host's name). -/
def decodeTableWord (nbits w : Nat) : Option Instr := decodeCommand (tablePacket nbits w)

end Sys2Proof
end

