-- ==== Sys2Proof/Config.lean ====
section
/-! DEFINITION. What one implementation fixes (the straps, 10 R26) and the free values: what the spec
leaves without a value. A free value is an opaque constant; no proof can know what it is. -/

namespace Sys2Proof

/-- The straps W, AW, CAP and DBG of one block (00 R6 to R9, 10 R26): "read-only and constant for the
life of the instance". -/
structure Config where
  /-- W, the storage word width (00 R6). -/
  width : WordWidth
  /-- AW, the width of the address-width integer type (00 R7). -/
  aw : Nat
  /-- CAP, the most words one vector store holds (00 R8). -/
  cap : Nat
  /-- DBG, whether the value of an element write is checked (00 R9). -/
  dbg : Bool
deriving DecidableEq, Repr

/-- W as a number of bits. -/
def Config.W (c : Config) : Nat := c.width.bits

/-- The default capacity 2^AW - 1, with which the capacity check never fires (00 R8). -/
def Config.defaultCap (aw : Nat) : Nat := 2 ^ aw - 1

/-- The ranges of AW and CAP (00 R7, R8). W and DBG have theirs by their types. -/
abbrev Config.wf (c : Config) : Prop :=
  1 ≤ c.aw ∧ c.aw ≤ 64 ∧ c.cap ≤ 2 ^ c.aw - 1

/-- The `d`-th free value of a run: what the spec leaves unspecified in 93 U1, U2 (padding), U3 and U4
(log 6). -/
opaque Config.freeWord : Nat → BitVec 64

/-- The `d`-th free list of (word index, word): what PV.words may hold after a SETBIT past the last
word, whose effect "is not bounded by the source" (93 U2, log 9). -/
opaque Config.freeCells : Nat → List (Nat × Nat)

end Sys2Proof
end

