-- ==== Sys2Proof/Machine/State.lean ====
section
/-! DEFINITION. The state of the block (10 R24 to R36), the host's events, the reasons a step can stop,
and the state after reset. -/

namespace Sys2Proof

namespace Machine

/-- A store of W-bit words (20 R50): `count` words, indexed 0 to count - 1. `cells` lists the words that
are not 0 as (word index, word), indices strictly rising; a word of the store that is not listed is 0,
because construction fills with `zero()` (41 R111, log 15). -/
structure Memory where
  count : Nat
  cells : List (Nat × Word)
deriving DecidableEq, Repr, Inhabited

/-- The PackedIntVector data model (10 R27): k bits an element, n elements, `mem.count` = nw words. -/
structure Vec where
  k : Nat
  n : Nat
  mem : Memory
deriving DecidableEq, Repr, Inhabited

/-- Context CS (10 R24, R25). -/
structure Control where
  halt : Bool
  hcause : BitVec 8
deriving DecidableEq, Repr

/-- Context PV, the user-facing vector (10 R27). -/
structure VectorContext where
  valid : Bool
  vec : Vec
deriving DecidableEq, Repr

/-- Context IT, the iterator over PV (10 R30). -/
structure IteratorContext where
  valid : Bool
  front : Nat
  back : Nat
deriving DecidableEq, Repr

/-- The reference RI.src (10 R31, R33). -/
inductive SourceSel where
  | ext
  | pv
deriving DecidableEq, Repr, Inhabited

/-- Context RI, the rank index (10 R31, R32). `builtLen` is the MODEL's own field: the bit length of the
source at BUILD, which the precondition of RANK names (43 R167) and no field of the spec holds (log 12). -/
structure RankIndex where
  valid : Bool
  src : SourceSel
  lbs : Nat
  lr : Vec
  sr : Vec
  builtLen : Nat
deriving DecidableEq, Repr, Inhabited

end Machine

/-- The `d`-th free index: what RI holds behind its cleared valid bit after a failed BUILD, where its
fields "are unspecified and unobservable" (60 R192, 93 U10, log 14). It stands here because its type
does. -/
opaque Config.freeIndex : Nat → Machine.RankIndex

namespace Machine

/-- What the source port shows (10 R33): `bit_len()`, `block_len()` = `mem.count`, and the words. -/
structure Source where
  bitLen : Nat
  mem : Memory
deriving DecidableEq, Repr

/-- What the host does to the block (10 R21, R33; 20 R62; 70 R215, R216). -/
inductive HostEvent where
  /-- A request packet at the command port. -/
  | request (p : RequestPacket)
  /-- The reset input, while no command runs. -/
  | reset
  /-- A request that the reset input cuts short (70 R216). -/
  | requestCutByReset (p : RequestPacket)
  /-- The host replaces the external source, between commands (10 R33, 93 U7). -/
  | sourceChange (xs : Source)
deriving DecidableEq, Repr

/-- The whole machine. `input`, `out` and `draws` are the MODEL's own fields (logs 4 and 6). -/
structure State where
  /-- The straps W, AW, CAP, DBG (10 R26). -/
  cfg : Config
  /-- Control and status (10 R24, R25). -/
  cs : Control
  /-- The vector (10 R27). -/
  pv : VectorContext
  /-- The iterator (10 R30). -/
  it : IteratorContext
  /-- The rank index (10 R31). -/
  ri : RankIndex
  /-- The external source XS, an environment value (10 R33). -/
  xs : Source
  /-- Host events not yet taken, in the host's order. -/
  input : List HostEvent
  /-- Response packets given, the newest first. -/
  out : List ResponsePacket
  /-- How many free values have been used. -/
  draws : Nat
deriving DecidableEq, Repr

/-- Why a step stops with a fault. -/
inductive Fault where
  /-- A word access at an index outside its store, which `MemRead` and `MemWrite` do not define (00 R14).
  Raised by `Memory.read` and `Memory.write`; safe. No state that meets `State.Inv` reaches it (log 16). -/
  | absentWord (wi : Nat)
deriving DecidableEq, Repr

/-- Why a step refuses an instruction. -/
inductive Refusal where
  /-- The instruction has no meaning in the model. Raised by `exec` alone, and by no arm of it; safe. -/
  | notModelled (mnemonic : String)
deriving DecidableEq, Repr

/-- The vector with no elements and no words. -/
def emptyVec : Vec := { k := 0, n := 0, mem := { count := 0, cells := [] } }

/-- The index that stands behind a cleared valid bit after reset. -/
def emptyIndex : RankIndex :=
  { valid := false, src := .ext, lbs := 0, lr := emptyVec, sr := emptyVec, builtLen := 0 }

/-- The block right after reset with given straps and a given external source, neither of which reset
touches (70 R215): HALT = 0, HCAUSE = 0x00 and the three valid bits 0. The fields behind the valid bits
are unspecified by the spec; the values here are a DESIGN CHOICE (log 3). -/
def State.afterReset (cfg : Config) (xs : Source) : State :=
  { cfg := cfg
    cs := { halt := false, hcause := 0x00 }
    pv := { valid := false, vec := emptyVec }
    it := { valid := false, front := 0, back := 0 }
    ri := emptyIndex
    xs := xs
    input := []
    out := []
    draws := 0 }

/-- The straps of the block that `State.reset` shows: W = 8, AW = 32, CAP default, DBG = 1, as in most of
the spec's own programs (95 part P). DESIGN CHOICE (log 1): the spec gives no instance. -/
def resetConfig : Config := { width := .w8, aw := 32, cap := Config.defaultCap 32, dbg := true }

/-- The external source of `State.reset`: no bits. DESIGN CHOICE (log 2). -/
def emptySource : Source := { bitLen := 0, mem := { count := 0, cells := [] } }

/-- The machine right after reset (70 R215, 10 R36). -/
def State.reset : State := State.afterReset resetConfig emptySource

end Machine

end Sys2Proof
end

