-- ==== Sys2Proof/Machine/Flags.lean ====
section
/-! DEFINITION. The block keeps no condition codes (10 R22); what plays their part are the status code
and the flags SOME, HALT and HCAUSE of the response packet (30 R73, 60 R190). -/

namespace Sys2Proof.Machine

/-- The eleven status codes (60 R190): "Every other value of CODE is never produced". -/
inductive StatusCode where
  | ok
  | widthTooLarge
  | sizeOverflow
  | addressOverflow
  | capacityExceeded
  | indexOutOfRange
  | valueOverflow
  | illegalCommand
  | notConstructed
  | operandRange
  | halted
deriving DecidableEq, Repr

/-- The number of a status code (60 R190). -/
def StatusCode.number : StatusCode → BitVec 8
  | .ok => 0x00
  | .widthTooLarge => 0x01
  | .sizeOverflow => 0x02
  | .addressOverflow => 0x03
  | .capacityExceeded => 0x04
  | .indexOutOfRange => 0x10
  | .valueOverflow => 0x11
  | .illegalCommand => 0x20
  | .notConstructed => 0x21
  | .operandRange => 0x22
  | .halted => 0x23

/-- The class of a status code (60 R190): what ending a command with it changes (R192 to R194). -/
inductive CodeClass where
  | completed
  | construction
  | indexingFault
  | interface
deriving DecidableEq, Repr

/-- The classes of the status table (60 R190). -/
def StatusCode.cls : StatusCode → CodeClass
  | .ok => .completed
  | .widthTooLarge => .construction
  | .sizeOverflow => .construction
  | .addressOverflow => .construction
  | .capacityExceeded => .construction
  | .indexOutOfRange => .indexingFault
  | .valueOverflow => .indexingFault
  | .illegalCommand => .interface
  | .notConstructed => .interface
  | .operandRange => .interface
  | .halted => .interface

/-- The fields of a response (30 R73). -/
structure Response where
  code : BitVec 8
  hasResult : Bool
  halt : Bool
  hcause : BitVec 8
  res : U64
deriving DecidableEq, Repr

/-- The 96-bit packet of a response: RES[95:32], zero[31:24], HCAUSE[23:16], zero[15:10], HALT[9],
SOME[8], CODE[7:0] (30 R73). -/
def Response.pack (r : Response) : ResponsePacket :=
  r.res ++ 0#8 ++ r.hcause ++ 0#6 ++ BitVec.ofBool r.halt ++ BitVec.ofBool r.hasResult ++ r.code

/-- The fields read back from a packet (30 R73). -/
def Response.unpack (p : ResponsePacket) : Response :=
  { code := p.extractLsb' 0 8
    hasResult := p.getLsbD 8
    halt := p.getLsbD 9
    hcause := p.extractLsb' 16 8
    res := p.extractLsb' 32 64 }

/-- The response of a command that ends with `code` and, when it returns a value, the value: "SOME = 1
exactly when CODE = 0x00 (OK) and the command ... returns a value", RES = 0 otherwise, and HALT and HCAUSE
as they are after the command (30 R73). -/
def Control.response (cs : Control) (code : StatusCode) (result : Option Nat) : Response :=
  { code := code.number
    hasResult := result.isSome
    halt := cs.halt
    hcause := cs.hcause
    res := BitVec.ofNat 64 (result.getD 0) }

end Sys2Proof.Machine
end

