-- ==== Sys2Proof/Machine/Ops.lean ====
section
/-! DEFINITION. The shared operations: the stores of words, answering a request, raising a status code
(with the halt that an indexing fault takes), and reset, the one way out of the halt. -/

namespace Sys2Proof.Machine

/-- Why a computation ends before it has its result. -/
inductive Stop where
  /-- `raise <Code>` (00 R14). -/
  | raised (c : StatusCode)
  /-- A word access outside a store (00 R14). -/
  | absent (wi : Nat)
deriving DecidableEq, Repr

/-- A computation of a command: its result, or why it ends first. -/
abbrev Run (α : Type) := Except Stop α

/-! ## Stores of words (20 R50, 00 R14) -/

/-- The word of an index in a list of cells: 0 when it is not listed. -/
def lookupCell : List (Nat × Word) → Nat → Word
  | [], _ => 0
  | (b, x) :: rest, a => if b = a then x else lookupCell rest a

/-- The list with the word of index `a` replaced; a word that becomes 0 is listed no more. -/
def storeCell : List (Nat × Word) → Nat → Word → List (Nat × Word)
  | [], a, v => if v = 0 then [] else [(a, v)]
  | (b, x) :: rest, a, v =>
    if a < b then (if v = 0 then (b, x) :: rest else (a, v) :: (b, x) :: rest)
    else if a = b then (if v = 0 then rest else (a, v) :: rest)
    else (b, x) :: storeCell rest a v

/-- The canonical form of a store of W-bit words: indices strictly rising and inside the store, every
listed word below 2^W and not 0. -/
abbrev Memory.wf (W : Nat) (m : Memory) : Prop :=
  m.cells.Pairwise (fun a b => a.1 < b.1) ∧ ∀ c ∈ m.cells, c.1 < m.count ∧ 0 < c.2 ∧ c.2 < 2 ^ W

/-- `count` words, each `zero()` (41 R111). -/
def Memory.zeros (count : Nat) : Memory := { count := count, cells := [] }

/-- The word at an index, for an index of the store. -/
def Memory.word (m : Memory) (wi : Nat) : Word := lookupCell m.cells wi

/-- `MemRead(S, wi)`, "defined only for wi < the store's word count" (00 R14). -/
def Memory.read (m : Memory) (wi : Nat) : Run Word :=
  if wi < m.count then .ok (m.word wi) else .error (.absent wi)

/-- The store with one word replaced, for an index of the store. -/
def Memory.put (m : Memory) (wi : Nat) (v : Word) : Memory := { m with cells := storeCell m.cells wi v }

/-- `MemWrite(S, wi, v)` (00 R14). -/
def Memory.write (m : Memory) (wi : Nat) (v : Word) : Run Memory :=
  if wi < m.count then .ok (m.put wi v) else .error (.absent wi)

/-! ## Answering (30 R73) -/

/-- The one response packet of a request (20 R62), with the code, the result if there is one, and the
control flags as they are after the command (30 R73). -/
def State.answer (s : State) (code : StatusCode) (result : Option Nat) : State :=
  { s with out := (s.cs.response code result).pack :: s.out }

/-- `respond(v)`: "ends the command with code OK and result v" (00 R14). -/
def State.respond (s : State) (v : Nat) : State := s.answer .ok (some v)

/-- `respond_none`: code OK and no result (00 R14). -/
def State.respondNone (s : State) : State := s.answer .ok none

/-- The halt an indexing fault takes: `CS.HALT <- 1; CS.HCAUSE <- code` (60 R193). -/
def State.haltWith (s : State) (code : StatusCode) : State :=
  { s with cs := { halt := true, hcause := code.number } }

/-- `raise <Code>`: the command ends with the code, no result and the effects of the code's class: an
indexing fault halts the block (60 R193); every other class changes nothing but the response (60 R192,
R194). -/
def State.raise (s : State) (code : StatusCode) : State :=
  match code.cls with
  | .indexingFault => (s.haltWith code).answer code none
  | .construction => s.answer code none
  | .interface => s.answer code none
  | .completed => s.answer code none

/-- The reset input (70 R215), the only way out of the halt state (60 R202): the contexts as after reset;
"The straps W, AW, CAP and DBG are not changed", the external source is not touched, and what the host
presents and has received is the host's. -/
def State.resetInput (s : State) : State :=
  { State.afterReset s.cfg s.xs with input := s.input, out := s.out, draws := s.draws }

/-! ## Shapes of a command -/

/-- The first check of every request: "(1) Halted, if CS.HALT = 1" (60 R195, R193). -/
def State.unlessHalted (s : State) (body : Host.Outcome State Fault Refusal) :
    Host.Outcome State Fault Refusal :=
  if s.cs.halt then .next (s.raise .halted) else body

/-- "(4) NotConstructed" when the context the command needs is not valid (60 R195, R196). -/
def State.ifConstructed (s : State) (valid : Bool) (body : Host.Outcome State Fault Refusal) :
    Host.Outcome State Fault Refusal :=
  if valid then body else .next (s.raise .notConstructed)

/-- The end of a command whose computation gave a state, raised a code (in the state `onRaise`), or met an
absent word. -/
def State.finish (onRaise : State) : Run State → Host.Outcome State Fault Refusal
  | .ok t => .next t
  | .error (.raised c) => .next (onRaise.raise c)
  | .error (.absent wi) => .fault (.absentWord wi)

/-- The answer to a request that is no command of the block: "CODE = 0x20 (IllegalCommand), SOME = 0,
RES = 0 and no change of state" (30 R75), Halted coming first (60 R195). -/
def State.answerIllegal (s : State) : Host.Outcome State Fault Refusal :=
  s.unlessHalted (.next (s.raise .illegalCommand))

/-! ## Free values (log 6) -/

/-- The next free value as a field of `len` bits: any of the 2^len values. -/
def freeBits (draws len : Nat) : Nat := (Config.freeWord draws).toNat % 2 ^ len

end Sys2Proof.Machine
end

