-- ==== Sys2Proof/Machine/Operands.lean ====
section
/-! DEFINITION. The operand forms (30 R72): a u64 operand is the natural it stands for (`toNat`); the two
operands with a two-element domain are read here (60 R197); the source a selector names (10 R33). -/

namespace Sys2Proof.Machine

/-- The boolean operand of SETBIT: "OperandRange when B is neither 0 nor 1" (41 R121, 60 R197). -/
def operandBit (v : U64) : Option Bool :=
  if v.toNat = 0 then some false else if v.toNat = 1 then some true else none

/-- The source selector of BUILD: 0 for EXT, 1 for PV (43 R156, 60 R197). -/
def operandSource (sel : U64) : Option SourceSel :=
  if sel.toNat = 0 then some .ext else if sel.toNat = 1 then some .pv else none

/-- A vector read as a source: `bit_len = PV.n · PV.k`, `block_len = PV.nw`, its words (10 R33). -/
def Vec.asSource (v : Vec) : Source := { bitLen := v.n * v.k, mem := v.mem }

/-- The source a selector names (10 R33). -/
def State.source (s : State) : SourceSel → Source
  | .ext => s.xs
  | .pv => s.pv.vec.asSource

/-- Whether the source a selector names exists: `BUILD PV` needs a vector (43 R156, 60 R196). -/
def State.sourceExists (s : State) : SourceSel → Bool
  | .ext => true
  | .pv => s.pv.valid

end Sys2Proof.Machine
end

