-- ==== Sys2Proof/Machine/WordLayer.lean ====
section
/-! DEFINITION. The arithmetic of the notation (00 R11) and the word capability layer (40 R90 to R101).
Every function takes the word width W first. Outside its domain a function is total in whatever way its
formula gives; no rule makes such a call (93 U5, log 21). -/

namespace Sys2Proof.Machine

/-- The ceiling of a/b for b ≥ 1 (00 R11). -/
def cdiv (a b : Nat) : Nat := (a + b - 1) / b

/-- `ceil(log2(n))`: the least e with 2^e ≥ n, and 0 when n ≤ 1 (00 R11). -/
def clog2 (n : Nat) : Nat := if n ≤ 1 then 0 else Nat.log2 (n - 1) + 1

/-- `nbits()` (40 R91). -/
def nbits (W : Nat) : Nat := W

/-- `zero()` (40 R92). -/
def zeroWord : Word := 0

/-- `one()` (40 R92). -/
def oneWord : Word := 1

/-- `get_bit(w, i)`: the bit at position i, position 0 the most significant (40 R93). -/
def getBit (W : Nat) (w : Word) (i : Nat) : Nat := w / 2 ^ (W - 1 - i) % 2

/-- `set_bit(w, i, b)` (40 R94). -/
def setBit (W : Nat) (w : Word) (i : Nat) (b : Bool) : Word :=
  let s := W - 1 - i
  w - w / 2 ^ s % 2 * 2 ^ s + b.toNat * 2 ^ s

/-- `get_bits(w, offset, len)`: the field right-aligned, the bit at position offset its most
significant (40 R95). -/
def getBits (W : Nat) (w : Word) (offset len : Nat) : Nat := w / 2 ^ (W - offset - len) % 2 ^ len

/-- `set_bits(w, offset, len, value)`: "replaces exactly `len` bits starting at `offset`, preserves the
rest" (40 R96). -/
def setBits (W : Nat) (w : Word) (offset len value : Nat) : Word :=
  let s := W - offset - len
  w - w / 2 ^ s % 2 ^ len * 2 ^ s + value % 2 ^ len * 2 ^ s

/-- `count_ones(w)`: the sum over j in [0, W) of the bits (40 R98). -/
def countOnes : (W : Nat) → (w : Word) → Nat
  | 0, _ => 0
  | W + 1, w => countOnes W w + w / 2 ^ W % 2

/-- `leading_zeros(w)` (40 R99). -/
def leadingZeros (W : Nat) (w : Word) : Nat := if w = 0 then W else W - 1 - Nat.log2 w

/-- `shl(w, s)`, logical (40 R100). -/
def shl (W : Nat) (w : Word) (s : Nat) : Word := w * 2 ^ s % 2 ^ W

/-- `shr(w, s)`, logical (40 R100). -/
def shr (w : Word) (s : Nat) : Word := w / 2 ^ s

/-- `word_index = pos/W` of a flat bit position (20 R51, 41 R115). -/
def wordIndex (W pos : Nat) : Nat := pos / W

/-- `bit_offset = pos%W` of a flat bit position (20 R51, 41 R115). -/
def bitOffset (W pos : Nat) : Nat := pos % W

end Sys2Proof.Machine
end

