-- ==== Sys2Proof/Machine/PackedVector.lean ====
section
/-! DEFINITION. The shared vector functions `vnew`, `vaddr`, `vget`, `vset`, `vgetbit`, `vsetbit`
(41 R112 to R121), which the commands use on PV and the rank unit on its two tables. -/

namespace Sys2Proof.Machine

/-- The vector of n elements of k bits, every word `zero()`: `cdiv(n·k, W)` words (41 R111, R112). -/
def Vec.zeros (W k n : Nat) : Vec := { k := k, n := n, mem := Memory.zeros (cdiv (n * k) W) }

/-- `vnew(k, n)`: the construction checks in the order written, then a vector of zero words (41 R112).
Width 0 is legal (41 R113). -/
def vnew (c : Config) (k n : Nat) : Run Vec :=
  if c.W < k then .error (.raised .widthTooLarge)
  else if 2 ^ 64 ≤ n * k then .error (.raised .sizeOverflow)
  else if 2 ^ c.aw - 1 < cdiv (n * k) c.W then .error (.raised .addressOverflow)
  else if c.cap < cdiv (n * k) c.W then .error (.raised .capacityExceeded)
  else .ok (Vec.zeros c.W k n)

/-- `bit_index = i·k` of `vaddr` (41 R115); its word index and bit offset are `wordIndex` and `bitOffset`. -/
def Vec.bitIndex (v : Vec) (i : Nat) : Nat := i * v.k

/-- Element i ends in the word it starts in: `bit_offset + k ≤ W` (41 R117). -/
def Vec.fits (W : Nat) (v : Vec) (i : Nat) : Bool := decide (bitOffset W (v.bitIndex i) + v.k ≤ W)

/-- `margin = W - bit_offset`: the bits of a straddling element held in its first word (41 R117). -/
def Vec.margin (W : Nat) (v : Vec) (i : Nat) : Nat := W - bitOffset W (v.bitIndex i)

/-- `extra = k - margin`: the bits of a straddling element held in the next word (41 R117). -/
def Vec.extra (W : Nat) (v : Vec) (i : Nat) : Nat := v.k - v.margin W i

/-- `vgetbit(V, pos)`: the flat bit, with no bounds check (41 R120). -/
def vgetbit (W : Nat) (v : Vec) (pos : Nat) : Run Nat := do
  let w ← v.mem.read (wordIndex W pos)
  return getBit W w (bitOffset W pos)

/-- `vsetbit(V, pos, b)`: replace the flat bit, with no bounds check (41 R121). -/
def vsetbit (W : Nat) (v : Vec) (pos : Nat) (b : Bool) : Run Vec := do
  let w ← v.mem.read (wordIndex W pos)
  let m ← v.mem.write (wordIndex W pos) (setBit W w (bitOffset W pos) b)
  return { v with mem := m }

/-- `vget(V, i)`, the element read, with its three paths (41 R117). -/
def vget (c : Config) (v : Vec) (i : Nat) : Run Word :=
  if v.n ≤ i then .error (.raised .indexOutOfRange)
  else if v.k = 0 then .ok zeroWord
  else if v.k = c.W then v.mem.read i
  else if v.k = 1 then vgetbit c.W v i
  else if v.fits c.W i then do
    let w ← v.mem.read (wordIndex c.W (v.bitIndex i))
    return getBits c.W w (bitOffset c.W (v.bitIndex i)) v.k
  else do
    let first ← v.mem.read (wordIndex c.W (v.bitIndex i))
    let next ← v.mem.read (wordIndex c.W (v.bitIndex i) + 1)
    let high := getBits c.W first (bitOffset c.W (v.bitIndex i)) (v.margin c.W i)
    let low := getBits c.W next 0 (v.extra c.W i)
    return (high <<< v.extra c.W i) ||| low

/-- The writing part of `vset`, after its checks: "each write is read-modify-write per affected word,
preserving untouched bits" (41 R119). -/
def writeElement (c : Config) (v : Vec) (i value : Nat) : Run Vec :=
  if v.k = 0 then .ok v
  else if v.k = c.W then do
    let m ← v.mem.write i value
    return { v with mem := m }
  else if v.k = 1 then vsetbit c.W v i (value = oneWord)
  else if v.fits c.W i then do
    let wi := wordIndex c.W (v.bitIndex i)
    let w ← v.mem.read wi
    let m ← v.mem.write wi (setBits c.W w (bitOffset c.W (v.bitIndex i)) v.k value)
    return { v with mem := m }
  else do
    let wi := wordIndex c.W (v.bitIndex i)
    let extra := v.extra c.W i
    let first ← v.mem.read wi
    let m ← v.mem.write wi
      (setBits c.W first (bitOffset c.W (v.bitIndex i)) (v.margin c.W i) (value / 2 ^ extra))
    let next ← m.read (wi + 1)
    let m ← m.write (wi + 1) (setBits c.W next 0 extra (value % 2 ^ extra))
    return { v with mem := m }

/-- `vset(V, i, value)` (41 R119): the bounds check, then the value check, then the write. With DBG = 0
and value ≥ 2^k "the k bits of element i end with an unspecified value", the `draws`-th free value
(93 U3, log 10). The answer is the vector and the count of free values used. -/
def vset (c : Config) (v : Vec) (i value draws : Nat) : Run (Vec × Nat) :=
  if v.n ≤ i then .error (.raised .indexOutOfRange)
  else if value < 2 ^ v.k then do
    let v' ← writeElement c v i value
    return (v', draws)
  else if c.dbg then .error (.raised .valueOverflow)
  else do
    let v' ← writeElement c v i (freeBits draws v.k)
    return (v', draws + 1)

/-- How many bits the elements occupy: `n·k`, the bound of the flat-bit precondition (41 R120). -/
def Vec.bitLength (v : Vec) : Nat := v.n * v.k

/-- The padding bits of the last word, at flat positions n·k and above (10 R28). -/
def Vec.padding (W : Nat) (v : Vec) : Nat := v.mem.count * W - v.bitLength

/-- A flat bit written at a padding position: "any change to `PV.words` at flat positions ≥ n·k, none
below" (93 U2, log 8): the padding of the last word takes a free value. -/
def scramblePadding (W : Nat) (v : Vec) (draws : Nat) : Run Vec := do
  let wi := v.mem.count - 1
  let w ← v.mem.read wi
  let m ← v.mem.write wi (setBits W w (W - v.padding W) (v.padding W) (freeBits draws (v.padding W)))
  return { v with mem := m }

/-- A flat bit written past the last word: the effect on the words "is not bounded by the source"
(93 U2, log 9): every word of the vector takes a free value. -/
def scrambleWords (W : Nat) (v : Vec) (draws : Nat) : Vec :=
  { v with
    mem := ((Config.freeCells draws).filter (fun a => decide (a.1 < v.mem.count))).foldl
      (fun m a => m.put a.1 (a.2 % 2 ^ W)) (Memory.zeros v.mem.count) }

end Sys2Proof.Machine
end

