-- ==== Sys2Proof/Machine/IteratorCommands.lean ====
section
/-! DEFINITION. The commands on context IT: ITER, ITNEXT, ITPREV, ITSKIP (42). -/

namespace Sys2Proof.Machine

/-- ITER: create or restart the iterator over the whole range (42 R141). -/
def execIter (s : State) : Host.Outcome State Fault Refusal :=
  s.unlessHalted (s.ifConstructed s.pv.valid
    (.next ({ s with it := { valid := true, front := 0, back := s.pv.vec.n } }.respondNone)))

/-- ITNEXT: decode the element at the front cursor and pass it; nothing when exhausted (42 R142). -/
def execItnext (s : State) : Host.Outcome State Fault Refusal :=
  s.unlessHalted (s.ifConstructed s.it.valid
    (if s.it.front = s.it.back then .next s.respondNone
    else s.finish (do
      let x ← vget s.cfg s.pv.vec s.it.front
      return { s with it := { s.it with front := s.it.front + 1 } }.respond x)))

/-- ITPREV: step the back cursor down and decode the element there; nothing when exhausted (42 R143). -/
def execItprev (s : State) : Host.Outcome State Fault Refusal :=
  s.unlessHalted (s.ifConstructed s.it.valid
    (if s.it.front = s.it.back then .next s.respondNone
    else s.finish (do
      let x ← vget s.cfg s.pv.vec (s.it.back - 1)
      return { s with it := { s.it with back := s.it.back - 1 } }.respond x)))

/-- ITSKIP m: `front <- min(front + m, back)`, the sum over naturals (42 R144). -/
def execItskip (m : U64) (s : State) : Host.Outcome State Fault Refusal :=
  s.unlessHalted (s.ifConstructed s.it.valid
    (.next ({ s with
      it := { s.it with front := min (s.it.front + m.toNat) s.it.back } }.respondNone)))

end Sys2Proof.Machine
end

