-- ==== Sys2Proof/Machine/RankUnit.lean ====
section
/-! DEFINITION. The rank unit: the formulas of BUILD (43 R157 to R161), its scan (R162, R163), and the sum
that RANK answers (R165, R166). -/

namespace Sys2Proof.Machine

/-- `lg_n`, also the width of a large slot (43 R157, R160). -/
def lgN (n : Nat) : Nat := clog2 n

/-- `block_factor = lg_n²` (43 R157). -/
def blockFactor (n : Nat) : Nat := lgN n * lgN n

/-- `small_per_large = ceil(block_factor / W)`, raised to 1 when the formula gives 0 (43 R158, R159). -/
def smallPerLarge (W n : Nat) : Nat :=
  if cdiv (blockFactor n) W = 0 then 1 else cdiv (blockFactor n) W

/-- `large_block_size = W · small_per_large` (43 R159). -/
def largeBlockSize (W n : Nat) : Nat := W * smallPerLarge W n

/-- The width of a small slot, `ceil(log2(large_block_size))` (43 R160). -/
def smallWidth (W n : Nat) : Nat := clog2 (largeBlockSize W n)

/-- `#large_blocks`: the boundaries the scan meets (43 R161). -/
def largeBlocks (W n wordCount : Nat) : Nat := cdiv wordCount (smallPerLarge W n)

/-- What the scan carries: the tables, `current_rank`, `last_large_rank`, the next unwritten index of the
large table (43 R162), and the count of free values used. -/
structure Scan where
  lr : Vec
  sr : Vec
  cur : Nat
  last : Nat
  li : Nat
  draws : Nat
deriving DecidableEq, Repr

/-- The boundary action at a word whose index is a multiple of `small_per_large` (43 R162). -/
def Scan.boundary (c : Config) (spl : Nat) (t : Scan) (w : Nat) : Run Scan :=
  if w % spl = 0 then do
    let (lr, d) ← vset c t.lr t.li t.cur t.draws
    return { t with lr := lr, li := t.li + 1, last := t.cur, draws := d }
  else .ok t

/-- One word of the scan: "boundary action first, then the small entry, then the accumulation" (43 R162). -/
def Scan.word (c : Config) (src : Source) (spl : Nat) (t : Scan) (w : Nat) : Run Scan := do
  let t ← t.boundary c spl w
  let (sr, d) ← vset c t.sr w (t.cur - t.last) t.draws
  let x ← src.mem.read w
  return { t with sr := sr, cur := t.cur + countOnes c.W x, draws := d }

/-- The scan of the words w, w + 1, ... for as many words as remain (43 R162). -/
def Scan.words (c : Config) (src : Source) (spl : Nat) : (remaining : Nat) → (w : Nat) → Scan → Run Scan
  | 0, _, t => .ok t
  | r + 1, w, t => do
    let t ← t.word c src spl w
    Scan.words c src spl r (w + 1) t

/-- The sentinels "holding the final totals": `cur` in LR, `cur - last` in SR, written as every other
entry (43 R163, R169). -/
def Scan.sentinels (c : Config) (wordCount : Nat) (t : Scan) : Run Scan := do
  let (lr, d) ← vset c t.lr t.li t.cur t.draws
  let (sr, d) ← vset c t.sr wordCount (t.cur - t.last) d
  return { t with lr := lr, sr := sr, draws := d }

/-- The build over a source: the tables, LR first, then the scan and the sentinels (43 R156). The answer is
the index and the count of free values used. -/
def buildIndex (c : Config) (sel : SourceSel) (src : Source) (draws : Nat) : Run (RankIndex × Nat) := do
  let n := src.bitLen
  let wc := src.mem.count
  let spl := smallPerLarge c.W n
  let lr ← vnew c (lgN n) (largeBlocks c.W n wc + 1)
  let sr ← vnew c (smallWidth c.W n) (wc + 1)
  let t ← Scan.words c src spl wc 0 { lr := lr, sr := sr, cur := 0, last := 0, li := 0, draws := draws }
  let t ← t.sentinels c wc
  return ({ valid := true, src := sel, lbs := largeBlockSize c.W n, lr := t.lr, sr := t.sr, builtLen := n },
    t.draws)

/-- The word-internal term of RANK: the set bits at positions 0 to `bit_offset` inclusive (43 R166). -/
def inWordCount (W : Nat) (w : Word) (bo : Nat) : Nat := countOnes W (getBits W w 0 (bo + 1))

/-- The sum RANK answers: `LR[large_block] + SR[word] +` the word-internal term (43 R165). -/
def rankSum (c : Config) (ri : RankIndex) (src : Source) (position : Nat) : Run Nat := do
  let lr ← vget c ri.lr (position / ri.lbs)
  let sr ← vget c ri.sr (wordIndex c.W position)
  let w ← src.mem.read (wordIndex c.W position)
  return lr + sr + inWordCount c.W w (bitOffset c.W position)

/-- The cases in which the spec defines the answer of RANK: the position lies below the source's bit length
at BUILD (43 R167), the source still has the length and the word count it had then (93 U6, 70 R221), and
the word exists (93 U9, log 13). Outside them it is 93 U4. -/
abbrev rankDefined (W : Nat) (ri : RankIndex) (src : Source) (position : Nat) : Prop :=
  position < ri.builtLen ∧ src.bitLen = ri.builtLen ∧ src.mem.count + 1 = ri.sr.n ∧
    wordIndex W position < src.mem.count

end Sys2Proof.Machine
end

