-- ==== Sys2Proof/Machine/RankCommands.lean ====
section
/-! DEFINITION. The commands on context RI: BUILD and RANK (43). -/

namespace Sys2Proof.Machine

/-- The state after a BUILD that failed once it had begun: `RI.valid = 0`, the other fields of RI
unspecified (60 R192, R193), which is a free index (93 U10, log 14). -/
def State.withoutIndex (s : State) : State :=
  { s with ri := { Config.freeIndex s.draws with valid := false }, draws := s.draws + 1 }

/-- BUILD sel (43 R156): OperandRange and NotConstructed leave RI untouched; a failure of the build itself
leaves no index. -/
def execBuild (sel : U64) (s : State) : Host.Outcome State Fault Refusal :=
  s.unlessHalted (match operandSource sel with
    | none => .next (s.raise .operandRange)
    | some src => s.ifConstructed (s.sourceExists src) (s.withoutIndex.finish (do
        let (ri, d) ← buildIndex s.cfg src (s.source src) s.draws
        return ({ s with ri := ri, draws := d }).respondNone)))

/-- RANK position (43 R165). Outside the unchecked precondition the result is a free value: the block
raises nothing (60 R198) and "No state changes" (93 U4, log 11). -/
def execRank (position : U64) (s : State) : Host.Outcome State Fault Refusal :=
  s.unlessHalted (s.ifConstructed s.ri.valid
    (if rankDefined s.cfg.W s.ri (s.source s.ri.src) position.toNat then
      s.finish (do
        let r ← rankSum s.cfg s.ri (s.source s.ri.src) position.toNat
        return s.respond r)
    else .next ({ s with draws := s.draws + 1 }.respond (freeBits s.draws 64))))

end Sys2Proof.Machine
end

