-- ==== Sys2Proof/Machine/SelectCommands.lean ====
section
/-! DEFINITION. The three encodings held for the external select component (44 R185): each "is answered
exactly like any other unlisted opcode". The meanings stay apart so that a platform that adds the component
can give each its own. -/

namespace Sys2Proof.Machine

/-- SELECT1 k: not implemented by the block, answered IllegalCommand (44 R185). -/
def execSelect1 (_k : U64) (s : State) : Host.Outcome State Fault Refusal := s.answerIllegal

/-- SELECT0 k: not implemented by the block, answered IllegalCommand (44 R185). -/
def execSelect0 (_k : U64) (s : State) : Host.Outcome State Fault Refusal := s.answerIllegal

/-- SELECT k, value: not implemented by the block, answered IllegalCommand (44 R185). -/
def execSelect (_k _value : U64) (s : State) : Host.Outcome State Fault Refusal := s.answerIllegal

end Sys2Proof.Machine
end

