-- ==== Sys2Proof/Machine/VectorCommands.lean ====
section
/-! DEFINITION. The commands on context PV: NEW, LEN, ISEMPTY, GET, SET, GETBIT, SETBIT (41). -/

namespace Sys2Proof.Machine

/-- The state after a successful construction: the new vector, no iterator, and no index when it was built
over the old vector (41 R111, 10 R35). -/
def State.installVector (s : State) (v : Vec) : State :=
  { s with
    pv := { valid := true, vec := v }
    it := { s.it with valid := false }
    ri := { s.ri with valid := s.ri.valid && decide (s.ri.src ≠ .pv) } }

/-- The state with another content of PV's vector. -/
def State.setVec (s : State) (v : Vec) : State := { s with pv := { s.pv with vec := v } }

/-- NEW k, n (41 R111). -/
def execNew (k n : U64) (s : State) : Host.Outcome State Fault Refusal :=
  s.unlessHalted (s.finish (do
    let v ← vnew s.cfg k.toNat n.toNat
    return (s.installVector v).respondNone))

/-- LEN (41 R122). -/
def execLen (s : State) : Host.Outcome State Fault Refusal :=
  s.unlessHalted (s.ifConstructed s.pv.valid (.next (s.respond s.pv.vec.n)))

/-- ISEMPTY (41 R123). -/
def execIsempty (s : State) : Host.Outcome State Fault Refusal :=
  s.unlessHalted (s.ifConstructed s.pv.valid (.next (s.respond (if s.pv.vec.n = 0 then 1 else 0))))

/-- GET i (41 R116). -/
def execGet (i : U64) (s : State) : Host.Outcome State Fault Refusal :=
  s.unlessHalted (s.ifConstructed s.pv.valid (s.finish (do
    let x ← vget s.cfg s.pv.vec i.toNat
    return s.respond x)))

/-- SET i, value (41 R118). -/
def execSet (i value : U64) (s : State) : Host.Outcome State Fault Refusal :=
  s.unlessHalted (s.ifConstructed s.pv.valid (s.finish (do
    let (v, d) ← vset s.cfg s.pv.vec i.toNat value.toNat s.draws
    return ({ s.setVec v with draws := d }).respondNone)))

/-- GETBIT pos (41 R120). Past n·k the answer is a free bit: "The response is CODE OK, SOME 1, with RES 0
or 1; no state changes" (93 U1, log 7). -/
def execGetbit (pos : U64) (s : State) : Host.Outcome State Fault Refusal :=
  s.unlessHalted (s.ifConstructed s.pv.valid
    (if pos.toNat < s.pv.vec.bitLength then
      s.finish (do
        let b ← vgetbit s.cfg.W s.pv.vec pos.toNat
        return s.respond b)
    else .next ({ s with draws := s.draws + 1 }.respond (freeBits s.draws 1))))

/-- SETBIT at an unchecked position `pos ≥ n·k` (93 U2): the command completes with OK; what it does to the
words is free, in the padding alone when the position lies in the store (log 8), in all words when it lies
past the last one (log 9). -/
def State.strayBitWrite (s : State) (pos : Nat) : Run State :=
  if pos < s.pv.vec.mem.count * s.cfg.W then do
    let v ← scramblePadding s.cfg.W s.pv.vec s.draws
    return { s.setVec v with draws := s.draws + 1 }
  else .ok { s.setVec (scrambleWords s.cfg.W s.pv.vec s.draws) with draws := s.draws + 1 }

/-- SETBIT pos, v (41 R121): OperandRange first, then NotConstructed (60 R195). -/
def execSetbit (pos v : U64) (s : State) : Host.Outcome State Fault Refusal :=
  s.unlessHalted (match operandBit v with
    | none => .next (s.raise .operandRange)
    | some b => s.ifConstructed s.pv.valid
      (if pos.toNat < s.pv.vec.bitLength then
        s.finish (do
          let v ← vsetbit s.cfg.W s.pv.vec pos.toNat b
          return (s.setVec v).respondNone)
      else s.finish (do
          let t ← s.strayBitWrite pos.toNat
          return t.respondNone)))

end Sys2Proof.Machine
end

