-- ==== Sys2Proof/Machine/Dispatch.lean ====
section
/-! DEFINITION. The meaning of every command, by constructor. -/

namespace Sys2Proof.Machine

/-- One command run to completion (30 R70). -/
def exec (i : Instr) (s : State) : Host.Outcome State Fault Refusal :=
  match i with
  | .new k n => Sys2Proof.Machine.execNew k n s
  | .len => Sys2Proof.Machine.execLen s
  | .isempty => Sys2Proof.Machine.execIsempty s
  | .get idx => Sys2Proof.Machine.execGet idx s
  | .set idx value => Sys2Proof.Machine.execSet idx value s
  | .getbit pos => Sys2Proof.Machine.execGetbit pos s
  | .setbit pos v => Sys2Proof.Machine.execSetbit pos v s
  | .iter => Sys2Proof.Machine.execIter s
  | .itnext => Sys2Proof.Machine.execItnext s
  | .itprev => Sys2Proof.Machine.execItprev s
  | .itskip m => Sys2Proof.Machine.execItskip m s
  | .build sel => Sys2Proof.Machine.execBuild sel s
  | .rank position => Sys2Proof.Machine.execRank position s
  | .select1 k => Sys2Proof.Machine.execSelect1 k s
  | .select0 k => Sys2Proof.Machine.execSelect0 k s
  | .select k value => Sys2Proof.Machine.execSelect k value s

end Sys2Proof.Machine
end

