-- ==== Sys2Proof/Machine/Port.lean ====
section
/-! DEFINITION. The command port and the other inputs of the block: what each host event does. -/

namespace Sys2Proof.Machine

/-- A request packet: the command it encodes, or IllegalCommand (30 R75, R76). -/
def acceptRequest (p : RequestPacket) (s : State) : Host.Outcome State Fault Refusal :=
  match decode p with
  | .ok i => exec i s
  | .error _ => s.answerIllegal

/-- What a host event does: a request runs to completion (30 R70); the reset input resets (70 R215); a
request cut short by reset "produces no response" and all it wrote is gone with the valid bits (70 R216,
log 5); a change of the external source replaces XS (10 R33, R35). -/
def applyEvent (e : HostEvent) (s : State) : Host.Outcome State Fault Refusal :=
  match e with
  | .request p => acceptRequest p s
  | .reset => .next s.resetInput
  | .requestCutByReset _ => .next s.resetInput
  | .sourceChange xs => .next { s with xs := xs }

end Sys2Proof.Machine
end

