-- ==== Sys2Proof/Machine/Step.lean ====
section
/-! DEFINITION. One step: the next host event, or idling when there is none. -/

namespace Sys2Proof.Machine

/-- One step. "The block is idle between commands and keeps all state" (60 R209): with no event it stays as
it is (log 18). Else the oldest event is taken and has its effect (20 R62). -/
def step (s : State) : Host.Outcome State Fault Refusal :=
  match s.input with
  | [] => .next s
  | e :: rest => applyEvent e { s with input := rest }

/-- The state with the request packet of a table row's bits presented at the command port, before what the
host presents next (log 19). -/
def State.withFetchWord (s : State) (nbits w : Nat) : State :=
  { s with input := .request (tablePacket nbits w) :: s.input }

end Sys2Proof.Machine
end

