-- ==== Sys2Proof/Machine/Render.lean ====
section
/-! DEFINITION. The debug rendering of a vector (42 R146): "host side, not a command". -/

namespace Sys2Proof.Machine

/-- The character of a digit of base 16 or less. -/
def digitChar (d : Nat) : Char := if d < 10 then Char.ofNat (48 + d) else Char.ofNat (55 + d)

/-- The unsigned decimal numeral of `n`, with at most `fuel` digits and no leading zeros. -/
def decimalDigits : (fuel : Nat) → (n : Nat) → List Char
  | 0, _ => []
  | f + 1, n => if n < 10 then [digitChar n] else decimalDigits f (n / 10) ++ [digitChar (n % 10)]

/-- The decimal numeral of a u64, which has at most 20 digits. -/
def decimalNumeral (n : Nat) : List Char := decimalDigits 20 n

/-- The opening brace. -/
def openBrace : Char := Char.ofNat 123

/-- The closing brace. -/
def closeBrace : Char := Char.ofNat 125

/-- The rendering of a width and its decoded values, each followed by a comma and a space: the "trailing comma
before the closing brace is a literal part of the contract" (42 R146). -/
def renderValues (k : Nat) (values : List Nat) : List Char :=
  "IntVec ".toList ++ [openBrace] ++ " element_bits: ".toList ++ decimalNumeral k ++ ", elements: ".toList
    ++ [openBrace] ++ " ".toList ++ values.flatMap (fun x => decimalNumeral x ++ ", ".toList)
    ++ [closeBrace] ++ " ".toList ++ [closeBrace]

/-- The elements i, i + 1, ... of a vector, as many as remain. -/
def elementsFrom (c : Config) (v : Vec) : (remaining : Nat) → (i : Nat) → Run (List Nat)
  | 0, _ => .ok []
  | r + 1, i => do
    let x ← vget c v i
    let xs ← elementsFrom c v r (i + 1)
    return x :: xs

/-- The debug rendering of a vector (42 R146). -/
def renderVec (c : Config) (v : Vec) : Run (List Char) := do
  let xs ← elementsFrom c v v.n 0
  return renderValues v.k xs

end Sys2Proof.Machine
end

