-- ==== Sys2Proof/Machine/Text.lean ====
section
/-! DEFINITION. The textual syntax of commands (30 R77) and the hexadecimal notation of packets (30 R78).
What the rule leaves open (where spaces may stand, upper-case mnemonics and digits alone being written,
numerals of 2^64 and more refused) is log 22. -/

namespace Sys2Proof.Machine

/-- The line without its comment: "`;` starts a comment to the end of the line" (30 R77). -/
def dropComment (line : List Char) : List Char := line.takeWhile (fun ch => ch ≠ ';')

/-- The text without the spaces at its two ends. -/
def trimSpaces (t : List Char) : List Char :=
  ((t.dropWhile (fun ch => ch = ' ')).reverse.dropWhile (fun ch => ch = ' ')).reverse

/-- The texts between the commas. -/
def splitCommas : List Char → List (List Char)
  | [] => [[]]
  | ch :: rest =>
    match splitCommas rest with
    | [] => [[ch]]
    | t :: ts => if ch = ',' then [] :: t :: ts else (ch :: t) :: ts

/-- The value of a digit, below the base. -/
def digitValue (base : Nat) (ch : Char) : Option Nat :=
  let x := ch.toNat
  let d :=
    if 48 ≤ x ∧ x ≤ 57 then x - 48
    else if 65 ≤ x ∧ x ≤ 70 then x - 55
    else if 97 ≤ x ∧ x ≤ 102 then x - 87
    else base
  if d < base then some d else none

/-- The number written by digits, after the digits whose value is `acc`. -/
def digitsValue (base : Nat) : (acc : Nat) → List Char → Option Nat
  | acc, [] => some acc
  | acc, ch :: rest =>
    match digitValue base ch with
    | some d => digitsValue base (acc * base + d) rest
    | none => none

/-- "a decimal numeral or a `0x` hexadecimal numeral" (30 R77). -/
def numeralValue (t : List Char) : Option Nat :=
  match t with
  | [] => none
  | ['0', 'x'] => none
  | '0' :: 'x' :: digits => digitsValue 16 0 digits
  | digits => digitsValue 10 0 digits

/-- A u64 operand: a numeral below 2^64. -/
def operandValue (t : List Char) : Option U64 :=
  match numeralValue t with
  | some n => if n < 2 ^ 64 then some (BitVec.ofNat 64 n) else none
  | none => none

/-- The operand of BUILD, which "may be written `EXT` (0) or `PV` (1)" (30 R77). -/
def selectorValue (t : List Char) : Option U64 :=
  if t = ['E', 'X', 'T'] then some 0
  else if t = ['P', 'V'] then some 1
  else operandValue t

/-- The command of a mnemonic that reads no operand (format F0). -/
def commandF0 (mnemonic : List Char) : Option Instr :=
  if mnemonic = ['L', 'E', 'N'] then some .len
  else if mnemonic = ['I', 'S', 'E', 'M', 'P', 'T', 'Y'] then some .isempty
  else if mnemonic = ['I', 'T', 'E', 'R'] then some .iter
  else if mnemonic = ['I', 'T', 'N', 'E', 'X', 'T'] then some .itnext
  else if mnemonic = ['I', 'T', 'P', 'R', 'E', 'V'] then some .itprev
  else none

/-- The command of a mnemonic that reads A (format FA). -/
def commandFA (mnemonic : List Char) (a : U64) : Option Instr :=
  if mnemonic = ['G', 'E', 'T'] then some (.get a)
  else if mnemonic = ['G', 'E', 'T', 'B', 'I', 'T'] then some (.getbit a)
  else if mnemonic = ['I', 'T', 'S', 'K', 'I', 'P'] then some (.itskip a)
  else if mnemonic = ['B', 'U', 'I', 'L', 'D'] then some (.build a)
  else if mnemonic = ['R', 'A', 'N', 'K'] then some (.rank a)
  else if mnemonic = ['S', 'E', 'L', 'E', 'C', 'T', '1'] then some (.select1 a)
  else if mnemonic = ['S', 'E', 'L', 'E', 'C', 'T', '0'] then some (.select0 a)
  else none

/-- The command of a mnemonic that reads A and B (format FAB). -/
def commandFAB (mnemonic : List Char) (a b : U64) : Option Instr :=
  if mnemonic = ['N', 'E', 'W'] then some (.new a b)
  else if mnemonic = ['S', 'E', 'T'] then some (.set a b)
  else if mnemonic = ['S', 'E', 'T', 'B', 'I', 'T'] then some (.setbit a b)
  else if mnemonic = ['S', 'E', 'L', 'E', 'C', 'T'] then some (.select a b)
  else none

/-- The command a line writes: "its mnemonic followed by the operands it reads, separated by commas"
(30 R77). The rule does not say what a blank line or a line of a comment alone stands for: it writes no command
here, the same answer as for a line that is not well formed (DESIGN CHOICE, log 22). -/
def parseLine (line : List Char) : Option Instr :=
  let t := trimSpaces (dropComment line)
  let mnemonic := t.takeWhile (fun ch => ch ≠ ' ')
  let rest := trimSpaces (t.dropWhile (fun ch => ch ≠ ' '))
  if rest = [] then commandF0 mnemonic
  else
    match (splitCommas rest).map trimSpaces with
    | [a] =>
      match if mnemonic = ['B', 'U', 'I', 'L', 'D'] then selectorValue a else operandValue a with
      | some a => commandFA mnemonic a
      | none => none
    | [a, b] =>
      match operandValue a, operandValue b with
      | some a, some b => commandFAB mnemonic a b
      | _, _ => none
    | _ => none

/-- "The encoding of a line is the 160-bit packet" of its command (30 R77). -/
def assemble (line : List Char) : Option RequestPacket := (parseLine line).map encode

/-- The line of a mnemonic with one operand. -/
def line1 (mnemonic : List Char) (a : U64) : List Char := mnemonic ++ [' '] ++ decimalNumeral a.toNat

/-- The line of a mnemonic with two operands. -/
def line2 (mnemonic : List Char) (a b : U64) : List Char :=
  line1 mnemonic a ++ [',', ' '] ++ decimalNumeral b.toNat

/-- The line that writes a command, its operands in decimal (30 R77). -/
def commandLine : Instr → List Char
  | .new k n => line2 ['N', 'E', 'W'] k n
  | .len => ['L', 'E', 'N']
  | .isempty => ['I', 'S', 'E', 'M', 'P', 'T', 'Y']
  | .get i => line1 ['G', 'E', 'T'] i
  | .set i value => line2 ['S', 'E', 'T'] i value
  | .getbit pos => line1 ['G', 'E', 'T', 'B', 'I', 'T'] pos
  | .setbit pos v => line2 ['S', 'E', 'T', 'B', 'I', 'T'] pos v
  | .iter => ['I', 'T', 'E', 'R']
  | .itnext => ['I', 'T', 'N', 'E', 'X', 'T']
  | .itprev => ['I', 'T', 'P', 'R', 'E', 'V']
  | .itskip m => line1 ['I', 'T', 'S', 'K', 'I', 'P'] m
  | .build sel => line1 ['B', 'U', 'I', 'L', 'D'] sel
  | .rank position => line1 ['R', 'A', 'N', 'K'] position
  | .select1 k => line1 ['S', 'E', 'L', 'E', 'C', 'T', '1'] k
  | .select0 k => line1 ['S', 'E', 'L', 'E', 'C', 'T', '0'] k
  | .select k value => line2 ['S', 'E', 'L', 'E', 'C', 'T'] k value

/-- The lowest `digits` hexadecimal digits of a number, the most significant first. -/
def hexDigits : (digits : Nat) → (n : Nat) → List Char
  | 0, _ => []
  | d + 1, n => hexDigits d (n / 16) ++ [digitChar (n % 16)]

/-- A request as "three hexadecimal numbers `HDR A B`" (30 R78). -/
def requestText (p : RequestPacket) : List Char :=
  hexDigits 8 (hdrField p).toNat ++ [' '] ++ hexDigits 16 (aField p).toNat ++ [' ']
    ++ hexDigits 16 (bField p).toNat

/-- A response as two hexadecimal numbers `STATUS RES`, STATUS = RSP[31:0] (30 R78). -/
def responseText (p : ResponsePacket) : List Char :=
  hexDigits 8 (p.extractLsb' 0 32).toNat ++ [' '] ++ hexDigits 16 (p.extractLsb' 32 64).toNat

end Sys2Proof.Machine
end

