-- ==== Sys2Proof/WellFormed.lean ====
section
/-! DEFINITION. Which commands are well formed: the operands with a two-element domain are in it.
That A and B fit 64 bits is carried by their type. An ill-formed command is still decoded and run; its
answer is OperandRange (60 R197, log 27). -/

namespace Sys2Proof

/-- "the bit value of SETBIT and the source selector of BUILD are the u64 operand restricted to {0, 1}"
(30 R72); no other command restricts its operands (60 R197). -/
def Instr.wellFormed : Instr → Bool
  | .setbit _ v => decide (v.toNat ≤ 1)
  | .build sel => decide (sel.toNat ≤ 1)
  | .new _ _ => true
  | .len => true
  | .isempty => true
  | .get _ => true
  | .set _ _ => true
  | .getbit _ => true
  | .iter => true
  | .itnext => true
  | .itprev => true
  | .itskip _ => true
  | .rank _ => true
  | .select1 _ => true
  | .select0 _ => true
  | .select _ _ => true

end Sys2Proof
end

