-- ==== Sys2Proof/Safety.lean ====
section
/-! DEFINITION. The terms the claims use: the flat bits of a store and the values they spell, the rank of a
source, the invariant of the machine, the host's contract, and what the select component may assume. -/

namespace Sys2Proof.Machine

/-! ## Flat bits (20 R51, R56) -/

/-- The flat bit `pos` of a store: position `pos % W` of word `pos / W` (00 R13, 20 R51). Past the store's last
word, where the spec gives no bit, this term is 0 (DESIGN CHOICE, log 29); no command reads there. -/
def Memory.flatBit (W : Nat) (m : Memory) (pos : Nat) : Nat :=
  getBit W (m.word (wordIndex W pos)) (bitOffset W pos)

/-- The number that `len` flat bits from `start` spell, the bit at the lowest position the most
significant (20 R56). -/
def Memory.field (W : Nat) (m : Memory) (start : Nat) : (len : Nat) → Nat
  | 0 => 0
  | len + 1 => 2 * m.field W start len + m.flatBit W (start + len)

/-- The value of element i: its k flat bits, most significant first (20 R51, R56). -/
def Vec.element (W : Nat) (v : Vec) (i : Nat) : Nat := v.mem.field W (i * v.k) v.k

/-- The set flat bits of a store at positions below `p`. -/
def Memory.onesBelow (W : Nat) (m : Memory) : (p : Nat) → Nat
  | 0 => 0
  | p + 1 => m.onesBelow W p + m.flatBit W p

/-- The clear flat bits of a store at positions below `p`. -/
def Memory.clearBelow (W : Nat) (m : Memory) : (p : Nat) → Nat
  | 0 => 0
  | p + 1 => m.clearBelow W p + (1 - m.flatBit W p)

/-- The inclusive rank of a source: "count of set bits in the source over [0, position] inclusive"
(43 R155). Positions past the source's last word count as clear (DESIGN CHOICE, log 29). -/
def Source.rank (W : Nat) (src : Source) (position : Nat) : Nat := src.mem.onesBelow W (position + 1)

/-- P(w), the set bits of the words before word w (43 R164). -/
def Memory.onesBeforeWord (W : Nat) (m : Memory) : (w : Nat) → Nat
  | 0 => 0
  | w + 1 => m.onesBeforeWord W w + countOnes W (m.word w)

/-! ## The invariant (10 R25, R28, R30 to R33) -/

/-- The invariant of a valid vector (10 R28), the bounds of its word count (10 R27), a u64 count, and the
canonical form of its words. -/
abbrev Vec.wf (c : Config) (v : Vec) : Prop :=
  v.k ≤ c.W ∧ v.n < 2 ^ 64 ∧ v.n * v.k < 2 ^ 64 ∧ v.mem.count = cdiv (v.n * v.k) c.W ∧
    v.mem.count ≤ c.cap ∧ v.mem.count ≤ 2 ^ c.aw - 1 ∧ v.mem.wf c.W

/-- What the types of the source port say (10 R33): `bit_len` a u64, `block_len` an AW-bit value, words. -/
abbrev Source.wf (c : Config) (src : Source) : Prop :=
  src.bitLen < 2 ^ 64 ∧ src.mem.count < 2 ^ c.aw ∧ src.mem.wf c.W

/-- "A source is well formed when `block_len = cdiv(bit_len, W)`" (10 R34). -/
abbrev Source.wellFormed (W : Nat) (src : Source) : Prop := src.mem.count = cdiv src.bitLen W

/-- A valid index: the two tables are valid vectors of the widths and lengths the formulas give for the
source's lengths at BUILD (10 R31, R32; 43 R157 to R161). -/
abbrev RankIndex.wf (c : Config) (ri : RankIndex) : Prop :=
  ri.lr.wf c ∧ ri.sr.wf c ∧ ri.builtLen < 2 ^ 64 ∧ ri.lbs = largeBlockSize c.W ri.builtLen ∧
    ri.lr.k = lgN ri.builtLen ∧ ri.sr.k = smallWidth c.W ri.builtLen ∧ 1 ≤ ri.sr.n ∧
    ri.lr.n = largeBlocks c.W ri.builtLen (ri.sr.n - 1) + 1

/-- CS: HCAUSE is 0x00 while HALT = 0, and the code of an indexing fault while HALT = 1 (10 R25). -/
abbrev Control.wf (cs : Control) : Prop :=
  if cs.halt then cs.hcause = StatusCode.indexOutOfRange.number ∨ cs.hcause = StatusCode.valueOverflow.number
  else cs.hcause = 0x00

/-- PV: a valid vector context holds a valid vector (10 R28). -/
abbrev State.pvOk (s : State) : Prop := s.pv.valid = true → s.pv.vec.wf s.cfg

/-- IT: "Invariant while valid: `0 ≤ front ≤ back ≤ PV.n` and `PV.valid = 1`" (10 R30). -/
abbrev State.itOk (s : State) : Prop :=
  s.it.valid = true → s.pv.valid = true ∧ s.it.front ≤ s.it.back ∧ s.it.back ≤ s.pv.vec.n

/-- RI: a valid index is well formed, and one built over PV has a vector of the shape it was built over: it
"must not outlive" its source (10 R35). -/
abbrev State.riOk (s : State) : Prop :=
  s.ri.valid = true → s.ri.wf s.cfg ∧
    (s.ri.src = .pv → s.pv.valid = true ∧ s.ri.builtLen = s.pv.vec.n * s.pv.vec.k ∧
      s.ri.sr.n = s.pv.vec.mem.count + 1)

/-- The host presents sources of the port's types only. -/
abbrev HostEvent.wf (c : Config) : HostEvent → Prop
  | .request _ => True
  | .reset => True
  | .requestCutByReset _ => True
  | .sourceChange xs => xs.wf c

/-- The host events waiting are of the port's types. -/
def State.inputOk (s : State) : Prop := ∀ e ∈ s.input, e.wf s.cfg

/-- The invariant of the machine. -/
def State.Inv (s : State) : Prop :=
  s.cfg.wf ∧ s.cs.wf ∧ s.pvOk ∧ s.itOk ∧ s.riOk ∧ s.xs.wf s.cfg ∧ s.inputOk

/-- The padding of PV is zero (10 R28): what holds while every command meets its precondition. -/
def State.paddingZero (s : State) : Prop :=
  s.pv.valid = true → ∀ pos, s.pv.vec.bitLength ≤ pos → pos < s.pv.vec.mem.count * s.cfg.W →
    s.pv.vec.mem.flatBit s.cfg.W pos = 0

/-! ## What a response says (30 R73) -/

/-- The code in the newest response, read from the packet's bits [7:0]. -/
def State.newestCode (s : State) : Option (BitVec 8) := s.out.head?.map (fun p => p.extractLsb' 0 8)

/-- The newest response has CODE 0x00, OK. -/
abbrev State.completed (s : State) : Prop := s.newestCode = some 0x00

/-- The commands that return a value when they complete: "LEN, ISEMPTY, GET, GETBIT, RANK always; ITNEXT and
ITPREV when an element was consumed" (30 R73). -/
def returnsValue (s : State) : Instr → Prop
  | .len => True
  | .isempty => True
  | .get _ => True
  | .getbit _ => True
  | .rank _ => True
  | .itnext => s.it.front ≠ s.it.back
  | .itprev => s.it.front ≠ s.it.back
  | .new _ _ => False
  | .set _ _ => False
  | .setbit _ _ => False
  | .iter => False
  | .itskip _ => False
  | .build _ => False
  | .select1 _ => False
  | .select0 _ => False
  | .select _ _ => False

/-! ## Contexts (60 R196, 10 R29, R32) -/

/-- The context a command needs has not been created (60 R196). -/
def contextMissing (s : State) : Instr → Prop
  | .len => s.pv.valid = false
  | .isempty => s.pv.valid = false
  | .get _ => s.pv.valid = false
  | .set _ _ => s.pv.valid = false
  | .getbit _ => s.pv.valid = false
  | .setbit _ _ => s.pv.valid = false
  | .iter => s.pv.valid = false
  | .build sel => sel.toNat = 1 ∧ s.pv.valid = false
  | .itnext => s.it.valid = false
  | .itprev => s.it.valid = false
  | .itskip _ => s.it.valid = false
  | .rank _ => s.ri.valid = false
  | .new _ _ => False
  | .select1 _ => False
  | .select0 _ => False
  | .select _ _ => False

/-- Two states that differ at most in what stands behind a cleared valid bit, which "cannot be observed"
(10 R29, R30, R32). -/
def State.sameVisible (s t : State) : Prop :=
  s.cfg = t.cfg ∧ s.cs = t.cs ∧ s.xs = t.xs ∧ s.input = t.input ∧ s.out = t.out ∧ s.draws = t.draws ∧
    s.pv.valid = t.pv.valid ∧ (s.pv.valid = true → s.pv = t.pv) ∧
    s.it.valid = t.it.valid ∧ (s.it.valid = true → s.it = t.it) ∧
    s.ri.valid = t.ri.valid ∧ (s.ri.valid = true → s.ri = t.ri)

/-! ## Construction (41 R112, 43 R169) -/

/-- The four checks of `vnew(k, n)` pass (41 R112). -/
abbrev constructible (c : Config) (k n : Nat) : Prop :=
  k ≤ c.W ∧ n * k < 2 ^ 64 ∧ cdiv (n * k) c.W ≤ 2 ^ c.aw - 1 ∧ cdiv (n * k) c.W ≤ c.cap

/-- The first check of `vnew(k, n)` that fails, in the order written (41 R112, 60 R195). -/
def constructionFailure (c : Config) (k n : Nat) : Option StatusCode :=
  if c.W < k then some .widthTooLarge
  else if 2 ^ 64 ≤ n * k then some .sizeOverflow
  else if 2 ^ c.aw - 1 < cdiv (n * k) c.W then some .addressOverflow
  else if c.cap < cdiv (n * k) c.W then some .capacityExceeded
  else none

/-- The first check of BUILD's two tables that fails: "the tables are made LR first, then SR" (60 R195). -/
def tableFailure (c : Config) (src : Source) : Option StatusCode :=
  (constructionFailure c (lgN src.bitLen) (largeBlocks c.W src.bitLen src.mem.count + 1)).or
    (constructionFailure c (smallWidth c.W src.bitLen) (src.mem.count + 1))

/-- Both tables of a BUILD over a source can be made (43 R161). -/
abbrev tablesConstructible (c : Config) (src : Source) : Prop :=
  constructible c (lgN src.bitLen) (largeBlocks c.W src.bitLen src.mem.count + 1) ∧
    constructible c (smallWidth c.W src.bitLen) (src.mem.count + 1)

/-- `SR[w]`: the set bits since the start of the large block of word w (43 R164). -/
def smallEntry (W : Nat) (m : Memory) (spl w : Nat) : Nat :=
  m.onesBeforeWord W w - m.onesBeforeWord W (w / spl * spl)

/-- `SR[wc]`, the small sentinel: the set bits since the start of the last large block (43 R163, R164). -/
def smallTotal (W : Nat) (m : Memory) (spl : Nat) : Nat :=
  m.onesBeforeWord W m.count - m.onesBeforeWord W ((m.count - 1) / spl * spl)

/-- A sentinel total does not fit its slot (43 R169, 70 R224). -/
abbrev sentinelOverflows (W : Nat) (src : Source) : Prop :=
  2 ^ lgN src.bitLen ≤ src.mem.onesBeforeWord W src.mem.count ∨
    2 ^ smallWidth W src.bitLen ≤ smallTotal W src.mem (smallPerLarge W src.bitLen)

/-- Every entry BUILD writes, the sentinels among them, fits its slot (43 R164, R169). -/
abbrev entriesFit (W : Nat) (src : Source) : Prop :=
  (∀ j, j < largeBlocks W src.bitLen src.mem.count →
      src.mem.onesBeforeWord W (j * smallPerLarge W src.bitLen) < 2 ^ lgN src.bitLen) ∧
    (∀ w, w < src.mem.count →
      smallEntry W src.mem (smallPerLarge W src.bitLen) w < 2 ^ smallWidth W src.bitLen) ∧
    ¬ sentinelOverflows W src

/-! ## The host's contract (70 R217 to R226) -/

/-- No check that comes before a command's own ends it: the block is not halted, the operands are in their
domain, the context the command needs exists (60 R195, 1 to 4). -/
def State.admits (s : State) (i : Instr) : Prop :=
  s.cs.halt = false ∧ i.wellFormed = true ∧ ¬ contextMissing s i

/-- BUILD over the source a selector names writes no table entry that does not fit: a table cannot be made, or
every entry fits (43 R161, R169). -/
def buildFits (s : State) (sel : U64) : Prop :=
  ∀ src, operandSource sel = some src → tablesConstructible s.cfg (s.source src) →
    entriesFit s.cfg.W (s.source src)

/-- The unchecked preconditions of a command that the checks before its own let through (60 R198, 70 R219,
R220, R223). A command that fails one of those checks has none. -/
def meetsPrecondition (s : State) (i : Instr) : Prop :=
  s.admits i → match i with
    | .getbit pos => pos.toNat < s.pv.vec.bitLength
    | .setbit pos _ => pos.toNat < s.pv.vec.bitLength
    | .set idx value => s.cfg.dbg = true ∨ s.pv.vec.n ≤ idx.toNat ∨ value.toNat < 2 ^ s.pv.vec.k
    | .rank position => rankDefined s.cfg.W s.ri (s.source s.ri.src) position.toNat
    | .build sel => s.cfg.dbg = true ∨ buildFits s sel
    | .new _ _ => True
    | .len => True
    | .isempty => True
    | .get _ => True
    | .iter => True
    | .itnext => True
    | .itprev => True
    | .itskip _ => True
    | .select1 _ => True
    | .select0 _ => True
    | .select _ _ => True

/-- What a command that the checks before its own let through must respect so as not to halt the block: GET and
SET an index below LEN (70 R226), and, where values are checked, SET a value below 2^k and BUILD a source whose
entries fit (70 R224). -/
def staysRunning (s : State) (i : Instr) : Prop :=
  s.admits i → match i with
    | .get idx => idx.toNat < s.pv.vec.n
    | .set idx value => idx.toNat < s.pv.vec.n ∧ (s.cfg.dbg = true → value.toNat < 2 ^ s.pv.vec.k)
    | .build sel => s.cfg.dbg = false ∨ buildFits s sel
    | .new _ _ => True
    | .len => True
    | .isempty => True
    | .getbit _ => True
    | .setbit _ _ => True
    | .iter => True
    | .itnext => True
    | .itprev => True
    | .itskip _ => True
    | .rank _ => True
    | .select1 _ => True
    | .select0 _ => True
    | .select _ _ => True

/-! ## Runs -/

/-- Commands one after another, each with a next state; none when one has none. -/
def runCommands : List Instr → State → Option State
  | [], s => some s
  | i :: rest, s =>
    match exec i s with
    | .next t => runCommands rest t
    | .fault _ => none
    | .refused _ => none

/-! ## The select contract (44 R186)

The spec gives a source no bit past its last word, and RANK there is 93 U4. Over a source that is not well formed
(`block_len · W < bit_len`) the terms below take those positions, up to `bit_len`, as clear: `select0` may name
them and counts them, `select1` never does. That is the model's choice (DESIGN CHOICE, log 29). -/

/-- `select1(j) = p`: "the source's bit at flat position p is 1 and `RANK(p) = j + 1`" (44 R186). A position past
the last word of the source is never selected (DESIGN CHOICE, log 29). -/
def selectsOne (W : Nat) (src : Source) (j p : Nat) : Prop :=
  p < src.bitLen ∧ src.mem.flatBit W p = 1 ∧ src.rank W p = j + 1

/-- `select0(j) = p`: "bit p is 0 and `(p + 1) − RANK(p) = j + 1`" (44 R186). A position below `bit_len` and past
the last word of the source is taken as a clear bit (DESIGN CHOICE, log 29). -/
def selectsZero (W : Nat) (src : Source) (j p : Nat) : Prop :=
  p < src.bitLen ∧ src.mem.flatBit W p = 0 ∧ p + 1 - src.rank W p = j + 1

/-- `select1(j)` is "not found": "the source has at most j set bits" (44 R186), those of its words below `bit_len`
(log 29). -/
def selectOneNotFound (W : Nat) (src : Source) (j : Nat) : Prop := src.mem.onesBelow W src.bitLen ≤ j

/-- `select0(j)` is "not found", "symmetric for 0-bits": the source has at most j clear bits (44 R186),
positions below `bit_len` and past its last word among them (DESIGN CHOICE, log 29). -/
def selectZeroNotFound (W : Nat) (src : Source) (j : Nat) : Prop := src.mem.clearBelow W src.bitLen ≤ j

/-- The positions below `p` at which a sequence holds `value`. -/
def occurrencesBelow {α : Type} [DecidableEq α] (seq : Nat → α) (value : α) : (p : Nat) → Nat
  | 0 => 0
  | p + 1 => occurrencesBelow seq value p + if seq p = value then 1 else 0

/-- `select(j, value) = p`, which "generalizes to an arbitrary value domain": "position of the k-th occurrence" of
the value, from 0 (44 R186). The spec leaves the domain open, so it is any type, of a sequence of any length: the
bits of a source (`src.mem.flatBit W` with `src.bitLen`), the elements of a vector (`v.element W` with `v.n`)
(DESIGN CHOICE, log 30). -/
def selectsValue {α : Type} [DecidableEq α] (seq : Nat → α) (len : Nat) (value : α) (j p : Nat) : Prop :=
  p < len ∧ seq p = value ∧ occurrencesBelow seq value p = j

/-- `select(j, value)` is "not found": the value occurs at most j times (44 R186, log 30). -/
def selectValueNotFound {α : Type} [DecidableEq α] (seq : Nat → α) (len : Nat) (value : α) (j : Nat) : Prop :=
  occurrencesBelow seq value len ≤ j

end Sys2Proof.Machine
end

