-- ==== Sys2Proof/Certificates/Slice0/Obligations.lean ====
section
/-! DEFINITION. The statements about the block, for every value of the straps and of the free values unless
one says otherwise. `s.respond v` and `s.respondNone` are `s` with one more response of code OK, `s.raise c`
is `s` with one more response of code `c` and the effects of its class; `Obligations.AnswerChangesTheOutputAlone`
says what they are, field by field. -/

open Sys2Proof Sys2Proof.Machine

/-! ## Reset, the host's events and the invariant -/

/-- 70 R215, 10 R36: HALT, HCAUSE and the three valid bits after reset are the spec's. That the whole state
then meets the invariant rests on values the model chose (logs 1 to 4). -/
def Obligations.ResetMeetsTheInvariant : Prop :=
  State.reset.Inv ∧ State.reset.cs = { halt := false, hcause := 0x00 } ∧ State.reset.pv.valid = false ∧
    State.reset.it.valid = false ∧ State.reset.ri.valid = false

/-- The invariant of every context (10 R25, R28, R30, R32, R35) is kept by every step, from every state that
meets it. -/
def Obligations.EveryStepKeepsTheInvariant : Prop :=
  ∀ s t : State, s.Inv → step s = .next t → t.Inv

/-- 20 R62: a command once accepted "always completes"; 00 R14: no word outside a store is accessed. No state
that meets the invariant faults or refuses. -/
def Obligations.EveryStepCompletes : Prop :=
  ∀ s : State, s.Inv → ∃ t, step s = .next t

/-- 70 R215, R216, 60 R202: what the reset input does, at any time, to a halted block and to a command it
cuts short, which gives no response. The fields behind the valid bits are not spoken of. -/
def Obligations.ResetInputClearsTheContexts : Prop :=
  ∀ (s : State) (rest : List HostEvent),
    (s.input = .reset :: rest ∨ ∃ p, s.input = .requestCutByReset p :: rest) →
    ∃ t, step s = .next t ∧ t.cs = { halt := false, hcause := 0x00 } ∧ t.pv.valid = false ∧
      t.it.valid = false ∧ t.ri.valid = false ∧ t.cfg = s.cfg ∧ t.xs = s.xs ∧ t.out = s.out ∧
      t.input = rest ∧ t.draws = s.draws

/-- 60 R209, 10 R33: without an event the block keeps all state (idling as a step is log 18); a change of the
external source changes XS and nothing else. -/
def Obligations.IdlingAndSourceChange : Prop :=
  (∀ s : State, s.input = [] → step s = .next s) ∧
    ∀ (s : State) (xs : Source) (rest : List HostEvent), s.input = .sourceChange xs :: rest →
      step s = .next { s with input := rest, xs := xs }

/-- 30 R70: the packet at the command port runs as the command it decodes to, on the state without that
packet. -/
def Obligations.StepRunsTheDecodedCommand : Prop :=
  ∀ (s : State) (p : RequestPacket) (rest : List HostEvent) (i : Instr),
    s.input = .request p :: rest → decode p = .ok i → step s = exec i { s with input := rest }

/-- 20 R62: "produces exactly one response packet per accepted request, before it accepts the next". -/
def Obligations.OneResponsePerRequest : Prop :=
  ∀ (s t : State) (p : RequestPacket) (rest : List HostEvent),
    s.input = .request p :: rest → step s = .next t → t.input = rest ∧ ∃ r, t.out = r :: s.out

/-- 10 R26, R33: no step changes the straps, and only the host changes the external source. -/
def Obligations.StrapsAndSourceAreReadOnly : Prop :=
  ∀ s t : State, step s = .next t →
    t.cfg = s.cfg ∧ (t.xs = s.xs ∨ ∃ xs rest, s.input = .sourceChange xs :: rest ∧ t.xs = xs)

/-- 10 R24, R25, 60 R190, R202: HALT and HCAUSE change together, set by an indexing fault of GET, SET or
BUILD on a block that is not halted, cleared by reset alone. -/
def Obligations.HaltChangesOnlyByFaultAndReset : Prop :=
  ∀ s t : State, s.Inv → step s = .next t → t.cs ≠ s.cs →
    (∃ rest, s.input = .reset :: rest ∨ ∃ p, s.input = .requestCutByReset p :: rest) ∨
      (s.cs = { halt := false, hcause := 0x00 } ∧ t.cs.halt = true ∧
        (t.cs.hcause = 0x10 ∨ t.cs.hcause = 0x11) ∧
        ∃ p rest i, s.input = .request p :: rest ∧ decode p = .ok i ∧
          ((∃ k, i = .get k) ∨ (∃ k v, i = .set k v) ∨ ∃ sel, i = .build sel))

/-- 10 R29, R30, R32, 70 R215: what stands behind a cleared valid bit "cannot be observed". Two states that
differ there alone answer every command alike and still differ there alone. Commands outside their unchecked
precondition are left out, since a free value may depend on anything (log 28). -/
def Obligations.InvalidContextsAreUnobservable : Prop :=
  ∀ (i : Instr) (s s' t : State), s.Inv → meetsPrecondition s i → s.sameVisible s' →
    exec i s = .next t → ∃ t', exec i s' = .next t' ∧ t.sameVisible t'

/-! ## Packets -/

/-- 30 R77, R74, R71: the packet written for a command decodes to that command, for every operand. That the
three SELECT packets, which 30 R75 calls illegal, decode to commands is the model's choice (log 17). -/
def Obligations.DecodeOfEncode : Prop :=
  ∀ i : Instr, decode (encode i) = .ok i

/-- 30 R74, R76: the header word selects the command, and the sixteen header words of the map are the ones that
select any. By R76 a packet is "one of the thirteen commands or illegal": that the three SELECT headers 0x40 to
0x42 decode to a command too, whose meaning is the answer to an illegal one, is the model's choice (log 17). -/
def Obligations.TheHeaderSelectsTheCommand : Prop :=
  ∀ p : RequestPacket,
    (∀ i, decode p = .ok i → hdrField p = opcode i) ∧
    ((∃ i, decode p = .ok i) ↔ (hdrField p).toNat ∈
      [0x10, 0x11, 0x12, 0x13, 0x14, 0x15, 0x16, 0x20, 0x21, 0x22, 0x23, 0x30, 0x31, 0x40, 0x41, 0x42])

/-- 30 R71: "An operand a command does not read is ignored, whatever its value", and one it reads is read
where the layout puts it. It speaks of the SELECT packets too, which decode by the model's choice (log 17). -/
def Obligations.UnreadOperandsAreIgnored : Prop :=
  (∀ (p q : RequestPacket) (i : Instr), decode p = .ok i → hdrField q = hdrField p →
    (i.format ≠ .f0 → aField q = aField p) → (i.format = .fab → bField q = bField p) → decode q = .ok i) ∧
  ∀ (p : RequestPacket) (i : Instr), decode p = .ok i →
    operandA i = (if i.format = .f0 then 0 else aField p) ∧
    operandB i = (if i.format = .fab then bField p else 0)

/-- 95 V10, 30 R78: request packets written out as `B·2^96 + A·2^32 + HDR`, one of each family, and two illegal
ones. V10 calls the packet with header 0x40 illegal (reserved): that it decodes to `select1`, whose meaning is the
answer to an illegal command, is the model's choice (log 17). -/
def Obligations.WrittenPacketsDecode : Prop :=
  decode 0x0000000000000005_0000000000000004_00000014#160 = .ok (.set 4 5) ∧
  decode 0x0000000000000005_000000000000000d_00000010#160 = .ok (.new 13 5) ∧
  decode 0x0000000000000000_000000000000000a_00000023#160 = .ok (.itskip 10) ∧
  decode 0x0000000000000000_0000000000000001_00000030#160 = .ok (.build 1) ∧
  decode 0x0000000000000000_0000000000004000_00000031#160 = .ok (.rank 0x4000) ∧
  decode 0x0000000000000000_0000000000000000_00000040#160 = .ok (.select1 0) ∧
  decode 0#160 = .error (.unlistedOpcode 0) ∧
  decode 0x0000000000000000_0000000000000000_00000111#160 = .error .reservedBits

/-- 30 R73: where each field of a response lies in the 96-bit packet. -/
def Obligations.ResponsePacketLayout : Prop :=
  ∀ r : Response,
    r.pack.extractLsb' 0 8 = r.code ∧ r.pack.getLsbD 8 = r.hasResult ∧ r.pack.getLsbD 9 = r.halt ∧
    r.pack.extractLsb' 10 6 = 0 ∧ r.pack.extractLsb' 16 8 = r.hcause ∧ r.pack.extractLsb' 24 8 = 0 ∧
    r.pack.extractLsb' 32 64 = r.res

/-- 30 R73, 00 R14: an answer adds one response packet with the code, SOME, RES and the control flags as they
are after the command, and changes nothing else. -/
def Obligations.AnswerChangesTheOutputAlone : Prop :=
  ∀ (s : State) (v : Nat) (c : StatusCode),
    (∃ q, s.respond v = { s with out := q :: s.out } ∧ Response.unpack q =
      { code := 0x00, hasResult := true, halt := s.cs.halt, hcause := s.cs.hcause,
        res := BitVec.ofNat 64 v }) ∧
    (∃ q, s.respondNone = { s with out := q :: s.out } ∧ Response.unpack q =
      { code := 0x00, hasResult := false, halt := s.cs.halt, hcause := s.cs.hcause, res := 0 }) ∧
    (c ≠ .indexOutOfRange → c ≠ .valueOverflow →
      ∃ q, s.raise c = { s with out := q :: s.out } ∧ Response.unpack q =
        { code := c.number, hasResult := false, halt := s.cs.halt, hcause := s.cs.hcause, res := 0 }) ∧
    (c = .indexOutOfRange ∨ c = .valueOverflow →
      ∃ q, s.raise c = { s with cs := { halt := true, hcause := c.number }, out := q :: s.out } ∧
        Response.unpack q =
          { code := c.number, hasResult := false, halt := true, hcause := c.number, res := 0 })

/-- 30 R73, 60 R190: the fields of every command's response, and that CODE is one of the eleven. -/
def Obligations.EveryResponseIsWellFormed : Prop :=
  ∀ (i : Instr) (s t : State), exec i s = .next t → ∃ p : ResponsePacket, t.out = p :: s.out ∧
    (p.extractLsb' 0 8).toNat ∈ [0x00, 0x01, 0x02, 0x03, 0x04, 0x10, 0x11, 0x20, 0x21, 0x22, 0x23] ∧
    p.getLsbD 9 = t.cs.halt ∧ p.extractLsb' 10 6 = 0 ∧ p.extractLsb' 16 8 = t.cs.hcause ∧
    p.extractLsb' 24 8 = 0 ∧ (p.getLsbD 8 = true ↔ p.extractLsb' 0 8 = 0x00 ∧ returnsValue s i) ∧
    (p.getLsbD 8 = false → p.extractLsb' 32 64 = 0)

/-! ## Errors -/

/-- 30 R75: a request whose header is none of the thirteen commands of the block. That the block is not
halted is 60 R195's first check. -/
def Obligations.IllegalPacketsAreAnswered : Prop :=
  ∀ (s : State) (p : RequestPacket) (rest : List HostEvent),
    s.input = .request p :: rest → s.cs.halt = false →
    (hdrField p).toNat ∉ [0x10, 0x11, 0x12, 0x13, 0x14, 0x15, 0x16, 0x20, 0x21, 0x22, 0x23, 0x30, 0x31] →
    ∃ q, step s = .next { s with input := rest, out := q :: s.out } ∧ Response.unpack q =
      { code := 0x20, hasResult := false, halt := false, hcause := s.cs.hcause, res := 0 }

/-- 44 R185: the three encodings held for the external component "answered exactly like any other unlisted
opcode". -/
def Obligations.SelectEncodingsAreIllegal : Prop :=
  ∀ (s : State) (k v : U64), s.cs.halt = false →
    ∃ q, exec (.select1 k) s = .next { s with out := q :: s.out } ∧
      exec (.select0 k) s = .next { s with out := q :: s.out } ∧
      exec (.select k v) s = .next { s with out := q :: s.out } ∧ Response.unpack q =
        { code := 0x20, hasResult := false, halt := false, hcause := s.cs.hcause, res := 0 }

/-- 60 R193, R195: a halted block answers Halted to every request, legal or not, and changes nothing. -/
def Obligations.HaltedBlockRefusesEveryRequest : Prop :=
  ∀ (s : State) (p : RequestPacket) (rest : List HostEvent),
    s.input = .request p :: rest → s.cs.halt = true →
    ∃ q, step s = .next { s with input := rest, out := q :: s.out } ∧ Response.unpack q =
      { code := 0x23, hasResult := false, halt := true, hcause := s.cs.hcause, res := 0 }

/-- 60 R197: OperandRange is the answer to SETBIT with B > 1 and BUILD with A > 1, whatever the contexts
hold, and to no other command. -/
def Obligations.OperandRangeIsExact : Prop :=
  (∀ (s : State) (pos v : U64), s.cs.halt = false → 1 < v.toNat →
    exec (.setbit pos v) s = .next (s.raise .operandRange)) ∧
  (∀ (s : State) (sel : U64), s.cs.halt = false → 1 < sel.toNat →
    exec (.build sel) s = .next (s.raise .operandRange)) ∧
  ∀ (i : Instr) (s t : State), exec i s = .next t → t.newestCode = some 0x22 →
    (∃ pos v, i = .setbit pos v ∧ 1 < v.toNat) ∨ ∃ sel, i = .build sel ∧ 1 < sel.toNat

/-- 60 R196: NotConstructed is the answer exactly when the context a command needs has not been created;
after reset none has. Well-formed commands, because OperandRange comes first (60 R195). -/
def Obligations.NotConstructedIsExact : Prop :=
  (∀ (i : Instr) (s : State), s.cs.halt = false → i.wellFormed = true →
    (exec i s = .next (s.raise .notConstructed) ↔ contextMissing s i)) ∧
  State.reset.pv.valid = false ∧ State.reset.it.valid = false ∧ State.reset.ri.valid = false

/-- 60 R192, R194, R199: what a command that ends with a code other than OK may change. An indexing fault
sets HALT and HCAUSE; a BUILD that failed once it had begun leaves no index; nothing else changes. -/
def Obligations.FailingCommandsChangeNothingElse : Prop :=
  ∀ (i : Instr) (s t : State) (p : ResponsePacket), exec i s = .next t → t.out = p :: s.out →
    p.extractLsb' 0 8 ≠ 0x00 →
    t.cfg = s.cfg ∧ t.pv = s.pv ∧ t.it = s.it ∧ t.xs = s.xs ∧ t.input = s.input ∧
    p.getLsbD 8 = false ∧ p.extractLsb' 32 64 = 0 ∧
    t.cs = (if p.extractLsb' 0 8 = 0x10 ∨ p.extractLsb' 0 8 = 0x11 then
      { halt := true, hcause := p.extractLsb' 0 8 } else s.cs) ∧
    (if (∃ sel, i = .build sel) ∧ (p.extractLsb' 0 8).toNat < 0x20 then t.ri.valid = false
      else t.ri = s.ri ∧ t.draws = s.draws)

/-- 10 R36, "written by": the context each command may write. The response, HALT and HCAUSE are apart. -/
def Obligations.EveryContextHasItsWriters : Prop :=
  ∀ (i : Instr) (s t : State), exec i s = .next t →
    t.cfg = s.cfg ∧ t.xs = s.xs ∧ t.input = s.input ∧
    ((t.pv.valid ≠ s.pv.valid ∨ t.pv.vec.k ≠ s.pv.vec.k ∨ t.pv.vec.n ≠ s.pv.vec.n ∨
      t.pv.vec.mem.count ≠ s.pv.vec.mem.count) → ∃ k n, i = .new k n) ∧
    (t.pv ≠ s.pv → (∃ k n, i = .new k n) ∨ (∃ k v, i = .set k v) ∨ ∃ p v, i = .setbit p v) ∧
    (t.it.front ≠ s.it.front → i = .iter ∨ i = .itnext ∨ ∃ m, i = .itskip m) ∧
    (t.it.back ≠ s.it.back → i = .iter ∨ i = .itprev) ∧
    (t.ri.valid ≠ s.ri.valid → (∃ k n, i = .new k n) ∨ ∃ sel, i = .build sel) ∧
    ((t.ri.src ≠ s.ri.src ∨ t.ri.lbs ≠ s.ri.lbs ∨ t.ri.lr ≠ s.ri.lr ∨ t.ri.sr ≠ s.ri.sr) →
      ∃ sel, i = .build sel)

/-! ## The vector -/

/-- 41 R111 with the checks of R112 in their order: what NEW leaves, on success and on each error. -/
def Obligations.NewConstructsOrReports : Prop :=
  ∀ (s : State) (k n : U64), s.cs.halt = false →
    let nw := cdiv (n.toNat * k.toNat) s.cfg.W
    exec (.new k n) s =
      if s.cfg.W < k.toNat then .next (s.answer .widthTooLarge none)
      else if 2 ^ 64 ≤ n.toNat * k.toNat then .next (s.answer .sizeOverflow none)
      else if 2 ^ s.cfg.aw - 1 < nw then .next (s.answer .addressOverflow none)
      else if s.cfg.cap < nw then .next (s.answer .capacityExceeded none)
      else .next ({ s with
        pv := { valid := true, vec := { k := k.toNat, n := n.toNat, mem := { count := nw, cells := [] } } }
        it := { s.it with valid := false }
        ri := if s.ri.valid = true ∧ s.ri.src = SourceSel.pv then { s.ri with valid := false }
              else s.ri }.respondNone)

/-- 70 R217: after a successful NEW "every element reads 0 until set". -/
def Obligations.ElementsOfANewVectorReadZero : Prop :=
  ∀ (s : State) (k n i : U64), s.cs.halt = false → constructible s.cfg k.toNat n.toNat →
    i.toNat < n.toNat →
    ∃ t, exec (.new k n) s = .next t ∧ exec (.get i) t = .next (t.respond 0)

/-- 41 R122, R123: LEN answers the element count, ISEMPTY whether it is 0. -/
def Obligations.LenAndIsemptyAnswerTheCount : Prop :=
  ∀ s : State, s.cs.halt = false →
    (exec .len s =
      if s.pv.valid = false then .next (s.raise .notConstructed) else .next (s.respond s.pv.vec.n)) ∧
    exec .isempty s =
      if s.pv.valid = false then .next (s.raise .notConstructed)
      else .next (s.respond (if s.pv.vec.n = 0 then 1 else 0))

/-- 41 R116, R114, 20 R56: GET answers the value its k flat bits spell, below 2^k, or raises the code of the
first check that fails; no state but the response and the halt changes. -/
def Obligations.GetAnswersTheElement : Prop :=
  ∀ (s : State) (i : U64), s.Inv → s.cs.halt = false →
    (exec (.get i) s =
      if s.pv.valid = false then .next (s.raise .notConstructed)
      else if s.pv.vec.n ≤ i.toNat then .next (s.raise .indexOutOfRange)
      else .next (s.respond (s.pv.vec.element s.cfg.W i.toNat))) ∧
    s.pv.vec.element s.cfg.W i.toNat < 2 ^ s.pv.vec.k

/-- 41 R118, R119, R114, 20 R58: SET of a legal value replaces the k flat bits of element i, most significant
bit first, and no other bit of any word; no field but PV's words changes. The bits lie at the flat positions
from `i·k` (41 R115), so a word that holds none of them is the word it was. -/
def Obligations.SetReplacesOneElement : Prop :=
  ∀ (s : State) (i value : U64), s.Inv → s.cs.halt = false → s.pv.valid = true →
    i.toNat < s.pv.vec.n → value.toNat < 2 ^ s.pv.vec.k →
    ∃ m : Memory, exec (.set i value) s =
        .next ({ s with pv := { s.pv with vec := { s.pv.vec with mem := m } } }.respondNone) ∧
      m.count = s.pv.vec.mem.count ∧
      (∀ pos, m.flatBit s.cfg.W pos =
        if i.toNat * s.pv.vec.k ≤ pos ∧ pos < i.toNat * s.pv.vec.k + s.pv.vec.k then
          value.toNat / 2 ^ (i.toNat * s.pv.vec.k + s.pv.vec.k - 1 - pos) % 2
        else s.pv.vec.mem.flatBit s.cfg.W pos) ∧
      ∀ wi, (∀ pos, i.toNat * s.pv.vec.k ≤ pos → pos < i.toNat * s.pv.vec.k + s.pv.vec.k →
        wordIndex s.cfg.W pos ≠ wi) → m.word wi = s.pv.vec.mem.word wi

/-- 41 R118, R119, 60 R195: the checks of SET in their order: the bounds check, then, with DBG = 1, the value
check. Both halt the block and leave the store as it was. -/
def Obligations.SetChecksTheIndexThenTheValue : Prop :=
  ∀ (s : State) (i value : U64), s.cs.halt = false → s.pv.valid = true →
    (s.pv.vec.n ≤ i.toNat → exec (.set i value) s = .next (s.raise .indexOutOfRange)) ∧
    (i.toNat < s.pv.vec.n → 2 ^ s.pv.vec.k ≤ value.toNat → s.cfg.dbg = true →
      exec (.set i value) s = .next (s.raise .valueOverflow))

/-- 41 R119, UNSPECIFIED-FIELD (93 U3, log 10): with DBG = 0 a value of 2^k or more is stored without a
fault, as some k bits; every other flat bit keeps its value. -/
def Obligations.OverwideSetKeepsTheOtherBits : Prop :=
  ∀ (s : State) (i value : U64), s.Inv → s.cs.halt = false → s.pv.valid = true →
    i.toNat < s.pv.vec.n → 2 ^ s.pv.vec.k ≤ value.toNat → s.cfg.dbg = false →
    ∃ m : Memory, exec (.set i value) s =
        .next ({ s with
          pv := { s.pv with vec := { s.pv.vec with mem := m } }, draws := s.draws + 1 }.respondNone) ∧
      m.count = s.pv.vec.mem.count ∧
      ∀ pos, (pos < i.toNat * s.pv.vec.k ∨ i.toNat * s.pv.vec.k + s.pv.vec.k ≤ pos) →
        m.flatBit s.cfg.W pos = s.pv.vec.mem.flatBit s.cfg.W pos

/-- 41 R124: `get` after `set` returns the value at i and the previous value everywhere else, repeated `get`
is stable, both fault at every index ≥ n, and after any sets in any order each element reads "exactly the last
value set at i". In every regime of k, width 0 included. -/
def Obligations.GetAfterSet : Prop :=
  ∀ s : State, s.Inv → s.cs.halt = false → s.pv.valid = true →
    (∀ i j value : U64, i.toNat < s.pv.vec.n → j.toNat < s.pv.vec.n → value.toNat < 2 ^ s.pv.vec.k →
      ∃ t, exec (.set i value) s = .next t ∧
        exec (.get j) t = .next (t.respond
          (if j = i then value.toNat else s.pv.vec.element s.cfg.W j.toNat)) ∧
        ∀ v, exec (.get j) (t.respond v) = .next ((t.respond v).respond
          (if j = i then value.toNat else s.pv.vec.element s.cfg.W j.toNat))) ∧
    (∀ i value : U64, s.pv.vec.n ≤ i.toNat →
      exec (.get i) s = .next (s.raise .indexOutOfRange) ∧
      exec (.set i value) s = .next (s.raise .indexOutOfRange)) ∧
    ∀ sets : List (U64 × U64), (∀ o ∈ sets, o.1.toNat < s.pv.vec.n ∧ o.2.toNat < 2 ^ s.pv.vec.k) →
      ∃ t, runCommands (sets.map (fun o => .set o.1 o.2)) s = some t ∧
        ∀ j : U64, j.toNat < s.pv.vec.n → exec (.get j) t = .next (t.respond
          (match sets.reverse.find? (fun o => o.1 = j) with
            | some o => o.2.toNat
            | none => s.pv.vec.element s.cfg.W j.toNat))

/-- 41 R120, 20 R56: GETBIT answers the flat bit, which is bit `k - 1 - pos % k` of element `pos / k`. -/
def Obligations.GetbitAnswersTheFlatBit : Prop :=
  ∀ (s : State) (pos : U64), s.Inv → s.cs.halt = false → s.pv.valid = true →
    pos.toNat < s.pv.vec.n * s.pv.vec.k →
    exec (.getbit pos) s = .next (s.respond (s.pv.vec.mem.flatBit s.cfg.W pos.toNat)) ∧
    s.pv.vec.mem.flatBit s.cfg.W pos.toNat =
      s.pv.vec.element s.cfg.W (pos.toNat / s.pv.vec.k) / 2 ^ (s.pv.vec.k - 1 - pos.toNat % s.pv.vec.k) % 2

/-- 41 R120, 60 R198, 93 U1: beyond `n·k` no check is made and some bit is answered. That the answer is a
free value, counted in `draws`, is the model's choice (logs 6 and 7). -/
def Obligations.GetbitBeyondTheElementsAnswersSomeBit : Prop :=
  ∀ (s : State) (pos : U64), s.cs.halt = false → s.pv.valid = true →
    s.pv.vec.n * s.pv.vec.k ≤ pos.toNat →
    ∃ b, b < 2 ∧ exec (.getbit pos) s = .next ({ s with draws := s.draws + 1 }.respond b)

/-- 41 R121, 20 R58: SETBIT replaces its one flat bit and nothing else. -/
def Obligations.SetbitReplacesOneBit : Prop :=
  ∀ (s : State) (pos v : U64), s.Inv → s.cs.halt = false → s.pv.valid = true → v.toNat ≤ 1 →
    pos.toNat < s.pv.vec.n * s.pv.vec.k →
    ∃ m : Memory, exec (.setbit pos v) s =
        .next ({ s with pv := { s.pv with vec := { s.pv.vec with mem := m } } }.respondNone) ∧
      m.count = s.pv.vec.mem.count ∧
      (∀ q, m.flatBit s.cfg.W q = if q = pos.toNat then v.toNat else s.pv.vec.mem.flatBit s.cfg.W q) ∧
      ∀ wi, wi ≠ wordIndex s.cfg.W pos.toNat → m.word wi = s.pv.vec.mem.word wi

/-- 41 R121, 60 R198, 93 U2: beyond `n·k` SETBIT makes no check and answers OK. The rest is the MODEL'S CHOICE
(logs 8 and 9), since U2 guarantees nothing more: that at most PV's words change, that their number stays, that
no element bit changes when the position lies in the store, and that which words result is free. -/
def Obligations.SetbitBeyondTheElementsCompletes : Prop :=
  ∀ (s : State) (pos v : U64), s.Inv → s.cs.halt = false → s.pv.valid = true → v.toNat ≤ 1 →
    s.pv.vec.n * s.pv.vec.k ≤ pos.toNat →
    ∃ m : Memory, exec (.setbit pos v) s =
        .next ({ s with
          pv := { s.pv with vec := { s.pv.vec with mem := m } }, draws := s.draws + 1 }.respondNone) ∧
      m.count = s.pv.vec.mem.count ∧ m.wf s.cfg.W ∧
      (pos.toNat < s.pv.vec.mem.count * s.cfg.W → ∀ q, q < s.pv.vec.n * s.pv.vec.k →
        m.flatBit s.cfg.W q = s.pv.vec.mem.flatBit s.cfg.W q)

/-- 10 R28: the padding is 0 after construction "and no command with its precondition met writes" it, nor does
one that an earlier check ends. -/
def Obligations.PaddingStaysZero : Prop :=
  ∀ (i : Instr) (s t : State), s.Inv → s.paddingZero → meetsPrecondition s i → exec i s = .next t →
    t.paddingZero

/-- 42 R146: the rendering of a width and a list of values, piece by piece, each numeral the decimal digits of
its number; the rendering of a valid vector is that of its width and its elements in order; and the source's own
example. -/
def Obligations.RenderingListsTheElements : Prop :=
  let text := fun (k : Nat) (xs : List Nat) =>
    "IntVec ".toList ++ [Char.ofNat 123] ++ " element_bits: ".toList ++ Nat.toDigits 10 k ++
      ", elements: ".toList ++ [Char.ofNat 123] ++ [' '] ++
      xs.flatMap (fun x => Nat.toDigits 10 x ++ [',', ' ']) ++ [Char.ofNat 125] ++ [' '] ++ [Char.ofNat 125]
  (∀ (k : Nat) (xs : List Nat), k < 2 ^ 64 → (∀ x ∈ xs, x < 2 ^ 64) → renderValues k xs = text k xs) ∧
  (∀ (c : Config) (v : Vec), v.wf c →
    renderVec c v = .ok (text v.k ((List.range v.n).map (v.element c.W)))) ∧
  renderValues 13 [1, 1, 2, 3, 5] =
    "IntVec ".toList ++ [Char.ofNat 123] ++ " element_bits: 13, elements: ".toList ++ [Char.ofNat 123] ++
      " 1, 1, 2, 3, 5, ".toList ++ [Char.ofNat 125] ++ " ".toList ++ [Char.ofNat 125]

/-- 30 R77: the line written for a command reads back as that command. -/
def Obligations.WrittenLinesReadBack : Prop :=
  ∀ i : Instr, parseLine (commandLine i) = some i

/-! ## The iterator -/

/-- 42 R141. -/
def Obligations.IterStartsOver : Prop :=
  ∀ s : State, s.cs.halt = false →
    exec .iter s =
      if s.pv.valid = false then .next (s.raise .notConstructed)
      else .next ({ s with it := { valid := true, front := 0, back := s.pv.vec.n } }.respondNone)

/-- 42 R142. -/
def Obligations.ItnextConsumesTheFront : Prop :=
  ∀ s : State, s.Inv → s.cs.halt = false →
    exec .itnext s =
      if s.it.valid = false then .next (s.raise .notConstructed)
      else if s.it.front = s.it.back then .next s.respondNone
      else .next ({ s with it := { s.it with front := s.it.front + 1 } }.respond
        (s.pv.vec.element s.cfg.W s.it.front))

/-- 42 R143. -/
def Obligations.ItprevConsumesTheBack : Prop :=
  ∀ s : State, s.Inv → s.cs.halt = false →
    exec .itprev s =
      if s.it.valid = false then .next (s.raise .notConstructed)
      else if s.it.front = s.it.back then .next s.respondNone
      else .next ({ s with it := { s.it with back := s.it.back - 1 } }.respond
        (s.pv.vec.element s.cfg.W (s.it.back - 1)))

/-- 42 R144: the sum is over naturals, so `m = 2^64 - 1` exhausts the iterator. -/
def Obligations.ItskipSaturates : Prop :=
  ∀ (s : State) (m : U64), s.cs.halt = false →
    exec (.itskip m) s =
      if s.it.valid = false then .next (s.raise .notConstructed)
      else .next ({ s with
        it := { s.it with front := if s.it.front + m.toNat ≤ s.it.back then s.it.front + m.toNat
                                   else s.it.back } }.respondNone)

/-- 42 R140: "a finite, restartable, bidirectional lazy sequence of decoded elements in index order". ITER and
then j ITNEXT answer the elements 0 to j - 1 in that order; then the sequence from the back answers the
elements n - 1 down, and once the cursors have met nothing is produced. -/
def Obligations.IterationProducesTheElements : Prop :=
  ∀ (s : State) (j l : Nat), s.Inv → s.cs.halt = false → s.pv.valid = true → j + l ≤ s.pv.vec.n →
    let answered := fun v => (s.cs.response .ok (some v)).pack
    ∃ t, runCommands (.iter :: (List.replicate j .itnext ++ List.replicate l .itprev)) s = some t ∧
      t = { s with
        it := { valid := true, front := j, back := s.pv.vec.n - l }
        out := ((List.range j).map (fun i => answered (s.pv.vec.element s.cfg.W i)) ++
            (List.range l).map (fun i => answered (s.pv.vec.element s.cfg.W (s.pv.vec.n - 1 - i)))).reverse ++
          (s.cs.response .ok none).pack :: s.out } ∧
      (j + l = s.pv.vec.n → exec .itnext t = .next t.respondNone ∧ exec .itprev t = .next t.respondNone)

/-- 42 R145, 70 R227: what sets and what clears IT.valid, and that SET and SETBIT do not touch IT. -/
def Obligations.IteratorValidity : Prop :=
  (∀ (i : Instr) (s t : State), exec i s = .next t →
    (s.it.valid = false → t.it.valid = true → i = .iter) ∧
    (s.it.valid = true → t.it.valid = false → (∃ k n, i = .new k n) ∧ t.completed) ∧
    (t.completed → i = .iter → t.it.valid = true) ∧
    (t.completed → (∃ k n, i = .new k n) → t.it.valid = false) ∧
    ((∃ k v, i = .set k v) ∨ (∃ p v, i = .setbit p v) → t.it = s.it)) ∧
  ∀ (s t : State), step s = .next t → s.it.valid = true → t.it.valid = false →
    (∃ rest, s.input = .reset :: rest ∨ ∃ p, s.input = .requestCutByReset p :: rest) ∨
    ∃ p rest k n, s.input = .request p :: rest ∧ decode p = .ok (.new k n)

/-! ## The rank index -/

/-- 43 R156 to R161, 93 U9: over any source whose tables can be made, well formed or not, BUILD succeeds if DBG
= 0, or if every entry fits its slot, which in a well-formed source the sentinels alone decide (R169); it leaves an
index with the parameters of the formulas. Nothing but RI and the response changes (and, with an entry that does
not fit, the count of free values). -/
def Obligations.BuildMakesTheIndex : Prop :=
  ∀ (s : State) (sel : U64) (src : SourceSel), s.Inv → s.cs.halt = false →
    (sel.toNat = 0 ∧ src = .ext ∨ sel.toNat = 1 ∧ src = .pv ∧ s.pv.valid = true) →
    tablesConstructible s.cfg (s.source src) →
    (s.cfg.dbg = true → entriesFit s.cfg.W (s.source src) ∨
      (s.source src).wellFormed s.cfg.W ∧ ¬ sentinelOverflows s.cfg.W (s.source src)) →
    let n := (s.source src).bitLen
    let spl := if clog2 n = 0 then 1 else cdiv (clog2 n * clog2 n) s.cfg.W
    ∃ ri d, exec (.build sel) s = .next ({ s with ri := ri, draws := d }.respondNone) ∧
      ri.valid = true ∧ ri.src = src ∧ ri.lbs = s.cfg.W * spl ∧
      ri.lr.k = clog2 n ∧ ri.lr.n = cdiv (s.source src).mem.count spl + 1 ∧
      ri.lr.mem.count = cdiv (ri.lr.n * ri.lr.k) s.cfg.W ∧
      ri.sr.k = clog2 (s.cfg.W * spl) ∧ ri.sr.n = (s.source src).mem.count + 1 ∧
      ri.sr.mem.count = cdiv (ri.sr.n * ri.sr.k) s.cfg.W ∧
      (s.cfg.dbg = true ∨ entriesFit s.cfg.W (s.source src) → d = s.draws)

/-- 43 R156, R161, R169, 41 R112, 60 R192, R193, R195: what a BUILD over a source that exists answers. The first
check of the two tables that fails, LR before SR, decides the code and leaves no index on a block that is not
halted; else, with DBG = 1, an entry that does not fit halts the block; else BUILD completes. -/
def Obligations.BuildAnswersTheFirstFailure : Prop :=
  ∀ (s : State) (sel : U64) (src : SourceSel), s.Inv → s.cs.halt = false →
    operandSource sel = some src → s.sourceExists src = true →
    ∃ t, exec (.build sel) s = .next t ∧
      match tableFailure s.cfg (s.source src) with
      | some code => t.newestCode = some code.number ∧ t.cs = s.cs ∧ t.ri.valid = false
      | none =>
        if s.cfg.dbg = true ∧ ¬ entriesFit s.cfg.W (s.source src) then
          t.newestCode = some 0x11 ∧ t.cs = { halt := true, hcause := 0x11 } ∧ t.ri.valid = false
        else t.newestCode = some 0x00 ∧ t.cs = s.cs ∧ t.ri.valid = true ∧ t.ri.src = src

/-- 43 R164: the tables in closed form after a successful BUILD in which no entry violated the value
precondition. `P` is `onesBeforeWord`. -/
def Obligations.TablesInClosedForm : Prop :=
  ∀ (s t : State) (sel : U64) (src : SourceSel), s.Inv → s.cs.halt = false →
    operandSource sel = some src → exec (.build sel) s = .next t → t.completed →
    let m := (s.source src).mem
    let P := m.onesBeforeWord s.cfg.W
    let spl := smallPerLarge s.cfg.W (s.source src).bitLen
    let nlb := cdiv m.count spl
    (∀ j, j < nlb → P (j * spl) < 2 ^ t.ri.lr.k) → P m.count < 2 ^ t.ri.lr.k →
    (∀ w, w < m.count → P w - P (w / spl * spl) < 2 ^ t.ri.sr.k) →
    P m.count - P ((m.count - 1) / spl * spl) < 2 ^ t.ri.sr.k →
    (∀ j, j < nlb → vget s.cfg t.ri.lr j = .ok (P (j * spl))) ∧ vget s.cfg t.ri.lr nlb = .ok (P m.count) ∧
    (∀ w, w < m.count → vget s.cfg t.ri.sr w = .ok (P w - P (w / spl * spl))) ∧
    vget s.cfg t.ri.sr m.count =
      .ok (if m.count = 0 then 0 else P m.count - P ((m.count - 1) / spl * spl))

/-- 43 R168: over a well-formed source that is as it was at a successful BUILD, RANK answers the inclusive
count, whatever else happened since; and the count is monotone (past a source's last
word the term counts clear bits, log 29; it would be monotone with any bits there). -/
def Obligations.RankIsTheInclusiveCount : Prop :=
  (∀ (s t u : State) (sel position : U64) (src : SourceSel), s.Inv → s.cs.halt = false →
    operandSource sel = some src → (s.source src).wellFormed s.cfg.W →
    exec (.build sel) s = .next t → t.completed →
    u.ri = t.ri → u.cfg = s.cfg → u.source src = s.source src → u.cs.halt = false →
    position.toNat < (s.source src).bitLen →
    exec (.rank position) u = .next (u.respond ((s.source src).rank s.cfg.W position.toNat)) ∧
      (s.source src).rank s.cfg.W position.toNat ≤ (s.source src).bitLen) ∧
  ∀ (W : Nat) (src : Source) (p q : Nat), p < q → src.rank W p ≤ src.rank W q

/-- 43 R165, 70 R221: within its precondition RANK answers the sum of the two table entries as built and the
count inside the source word as it is now, over an index that may be stale. -/
def Obligations.RankAddsThreeTerms : Prop :=
  ∀ (s : State) (position : U64), s.Inv → s.cs.halt = false → s.ri.valid = true →
    rankDefined s.cfg.W s.ri (s.source s.ri.src) position.toNat →
    exec (.rank position) s = .next (s.respond
      (s.ri.lr.element s.cfg.W (position.toNat / s.ri.lbs) +
        s.ri.sr.element s.cfg.W (position.toNat / s.cfg.W) +
        countOnes s.cfg.W (getBits s.cfg.W
          ((s.source s.ri.src).mem.word (position.toNat / s.cfg.W)) 0 (position.toNat % s.cfg.W + 1))))

/-- 43 R167, 60 R198, 93 U4: at a position at or beyond the source's length no test is made and nothing is
raised. That the answer is a free value, counted in `draws`, is the model's choice (logs 6 and 11). -/
def Obligations.RankBeyondTheSourceRaisesNothing : Prop :=
  ∀ (s : State) (position : U64), s.cs.halt = false → s.ri.valid = true →
    s.ri.builtLen ≤ position.toNat →
    ∃ r, r < 2 ^ 64 ∧ exec (.rank position) s = .next ({ s with draws := s.draws + 1 }.respond r)

/-- 43 R166: the word-internal term counts positions 0 to bit_offset inclusive, which is the population count
of the word shifted right; the six values of the source that decide the reading. -/
def Obligations.InWordTermIsInclusive : Prop :=
  (∀ (c : Config) (w bo : Nat), w < 2 ^ c.W → bo < c.W →
    inWordCount c.W w bo = countOnes c.W (shr w (c.W - 1 - bo)) ∧
    inWordCount c.W w bo = ((List.range (bo + 1)).map (getBit c.W w)).sum) ∧
  [0, 7, 16, 17, 18, 20].map (inWordCount 32 0x8000E000) = [1, 1, 2, 3, 4, 4]

/-- 43 R170, 70 R225: BUILD reports WidthTooLarge exactly when the source is longer than 2^W bits. -/
def Obligations.BuildRefusesALongSource : Prop :=
  (∀ (s : State) (sel : U64) (src : SourceSel), s.Inv → s.cs.halt = false →
    operandSource sel = some src → s.sourceExists src = true →
    ∃ t, exec (.build sel) s = .next t ∧
      (t.newestCode = some 0x01 ↔ 2 ^ s.cfg.W < (s.source src).bitLen) ∧
      (t.newestCode = some 0x01 → t.ri.valid = false ∧ t.cs = s.cs)) ∧
  ∀ n, (n ≤ 2 ^ 8 → smallWidth 8 n ≤ 6) ∧ (n ≤ 2 ^ 16 → smallWidth 16 n ≤ 8) ∧
    (n ≤ 2 ^ 32 → smallWidth 32 n ≤ 10) ∧ (n ≤ 2 ^ 64 → smallWidth 64 n ≤ 12)

/-- 43 R169, 70 R224: with DBG = 1 a sentinel total that does not fit halts BUILD and leaves no index. -/
def Obligations.SentinelOverflowHaltsBuild : Prop :=
  ∀ (s : State) (sel : U64) (src : SourceSel), s.Inv → s.cs.halt = false → s.cfg.dbg = true →
    operandSource sel = some src → s.sourceExists src = true →
    tablesConstructible s.cfg (s.source src) → sentinelOverflows s.cfg.W (s.source src) →
    ∃ t, exec (.build sel) s = .next t ∧ t.newestCode = some 0x11 ∧
      t.cs = { halt := true, hcause := 0x11 } ∧ t.ri.valid = false ∧ t.pv = s.pv ∧ t.it = s.it ∧
      t.xs = s.xs ∧ t.cfg = s.cfg ∧ t.input = s.input

/-- 43 R169: "Which entries fit their slot". In a well-formed source every other entry fits, and the small
sentinel fails exactly when `lbs` is a power of two, the last large block is complete and all its bits are
set. -/
def Obligations.EntriesThatFit : Prop :=
  ∀ (c : Config) (src : Source), src.wf c → src.wellFormed c.W →
    let spl := smallPerLarge c.W src.bitLen
    (∀ j, j < largeBlocks c.W src.bitLen src.mem.count →
      src.mem.onesBeforeWord c.W (j * spl) < 2 ^ lgN src.bitLen) ∧
    (∀ w, w < src.mem.count → smallEntry c.W src.mem spl w < 2 ^ smallWidth c.W src.bitLen) ∧
    (2 ^ smallWidth c.W src.bitLen ≤ smallTotal c.W src.mem spl ↔
      2 ^ clog2 (largeBlockSize c.W src.bitLen) = largeBlockSize c.W src.bitLen ∧ 0 < src.mem.count ∧
        src.mem.count % spl = 0 ∧
        ∀ w, src.mem.count - spl ≤ w → w < src.mem.count → countOnes c.W (src.mem.word w) = c.W)

/-- 44 R186: in terms of rank, `select1(j)` is one position when the source has more than j set bits and none
otherwise; `select0(j)` is one position when it has more than j clear bits and none otherwise; `select(j, value)`
generalizes both, and over any value domain (log 30) it is one position when the value occurs more than j times and
none otherwise. Over a source with fewer words than its bits need, that the positions past the last word count as
clear is the model's choice (log 29). -/
def Obligations.SelectContractIsAFunction : Prop :=
  (∀ (c : Config) (src : Source) (j : Nat),
    ((∃ p, selectsOne c.W src j p) ↔ ¬ selectOneNotFound c.W src j) ∧
    (∀ p q, selectsOne c.W src j p → selectsOne c.W src j q → p = q) ∧
    ((∃ p, selectsZero c.W src j p) ↔ ¬ selectZeroNotFound c.W src j) ∧
    (∀ p q, selectsZero c.W src j p → selectsZero c.W src j q → p = q) ∧
    (∀ p, selectsValue (src.mem.flatBit c.W) src.bitLen 1 j p ↔ selectsOne c.W src j p) ∧
    (selectValueNotFound (src.mem.flatBit c.W) src.bitLen 1 j ↔ selectOneNotFound c.W src j) ∧
    (∀ p, selectsValue (src.mem.flatBit c.W) src.bitLen 0 j p ↔ selectsZero c.W src j p) ∧
    (selectValueNotFound (src.mem.flatBit c.W) src.bitLen 0 j ↔ selectZeroNotFound c.W src j)) ∧
  ∀ (α : Type) [DecidableEq α] (seq : Nat → α) (len : Nat) (value : α) (j : Nat),
    ((∃ p, selectsValue seq len value j p) ↔ ¬ selectValueNotFound seq len value j) ∧
    ∀ p q, selectsValue seq len value j p → selectsValue seq len value j q → p = q

/-! ## The host's contract -/

/-- 60 R198, R191: a command within its preconditions, or one that an earlier check ends, uses no free value,
except a BUILD that fails, after which nothing of the index can be observed (log 14). -/
def Obligations.NoFreeValueWithinTheContract : Prop :=
  ∀ (i : Instr) (s t : State), s.Inv → meetsPrecondition s i → exec i s = .next t →
    t.draws = s.draws ∨ (∃ sel, i = .build sel) ∧ t.ri.valid = false

/-- 70 R226, R224: a host that compares an index with LEN and, with DBG = 1, keeps its values below 2^k and builds
no index whose entries do not all fit, never halts the block. -/
def Obligations.CarefulHostsNeverHalt : Prop :=
  ∀ (i : Instr) (s t : State), s.Inv → s.cs.halt = false → staysRunning s i → exec i s = .next t →
    t.cs = s.cs

/-! ## The word layer -/

/-- 40 R94 to R96: a field read is right-aligned with the bit at position `offset` its most significant, and
the laws of `set_bit` and `set_bits`. -/
def Obligations.FieldLaws : Prop :=
  ∀ (c : Config) (w o l v i : Nat) (b : Bool), w < 2 ^ c.W → o + l ≤ c.W → i < c.W →
    getBits c.W w o l < 2 ^ l ∧
    (∀ j, j < l → getBits c.W w o l / 2 ^ (l - 1 - j) % 2 = getBit c.W w (o + j)) ∧
    getBits c.W (setBits c.W w o l v) o l = v % 2 ^ l ∧
    (∀ p, p < c.W → (p < o ∨ o + l ≤ p) → getBit c.W (setBits c.W w o l v) p = getBit c.W w p) ∧
    setBits c.W w o l (getBits c.W w o l) = w ∧ setBits c.W w o l v < 2 ^ c.W ∧
    setBit c.W w i b = setBits c.W w i 1 b.toNat ∧
    getBit c.W (setBit c.W w i b) i = b.toNat ∧
    (∀ j, j < c.W → j ≠ i → getBit c.W (setBit c.W w i b) j = getBit c.W w j) ∧
    setBit c.W w i (decide (getBit c.W w i = 1)) = w

/-- 40 R98, R99, 00 R11: the population count, the leading zeros, and `clog2` as the least exponent and by a
64-bit leading-zero count. -/
def Obligations.CountsOfAWord : Prop :=
  ∀ (c : Config) (w : Nat), w < 2 ^ c.W →
    countOnes c.W w = ((List.range c.W).map (fun j => w / 2 ^ j % 2)).sum ∧ countOnes c.W w ≤ c.W ∧
    (w = 0 → leadingZeros c.W w = c.W) ∧
    (0 < w → leadingZeros c.W w < c.W ∧ getBit c.W w (leadingZeros c.W w) = 1 ∧
      ∀ p, p < leadingZeros c.W w → getBit c.W w p = 0) ∧
    (∀ n e : Nat, clog2 n ≤ e ↔ n ≤ 2 ^ e) ∧
    ∀ n : Nat, 2 ≤ n → n ≤ 2 ^ 64 → clog2 n = 64 - leadingZeros 64 (n - 1)
end

