-- ==== Sys2Proof/Laws/Ops.lean ====
section
/-! SUPPORT. What the shared operations can do: the shapes of a command, raising a code, and the answer. -/

namespace Sys2Proof.Machine

variable {s : State} {b : Host.Outcome State Fault Refusal}

@[simp] theorem State.unlessHalted_running (h : s.cs.halt = false) : s.unlessHalted b = b := by
  simp [State.unlessHalted, h]

@[simp] theorem State.unlessHalted_halted (h : s.cs.halt = true) :
    s.unlessHalted b = .next (s.raise .halted) := by
  simp [State.unlessHalted, h]

@[simp] theorem State.ifConstructed_true : s.ifConstructed true b = b := rfl

@[simp] theorem State.ifConstructed_false : s.ifConstructed false b = .next (s.raise .notConstructed) := rfl

@[simp] theorem State.finish_ok (t : State) : s.finish (.ok t) = .next t := rfl

@[simp] theorem State.finish_raised (c : StatusCode) :
    s.finish (.error (.raised c)) = .next (s.raise c) := rfl

@[simp] theorem State.finish_absent (wi : Nat) :
    s.finish (.error (.absent wi)) = .fault (.absentWord wi) := rfl

/-- Everything the first check can do: Halted and nothing else, or the command (60 R195). -/
theorem State.unlessHalted_next {t : State} (h : s.unlessHalted b = .next t) :
    (s.cs.halt = true ∧ t = s.raise .halted) ∨ (s.cs.halt = false ∧ b = .next t) := by
  cases hh : s.cs.halt
  · rw [State.unlessHalted_running hh] at h; exact .inr ⟨rfl, h⟩
  · rw [State.unlessHalted_halted hh] at h; injection h with h; exact .inl ⟨rfl, h.symm⟩

/-- Everything the second check can do: NotConstructed and nothing else, or the command (60 R196). -/
theorem State.ifConstructed_next {t : State} {valid : Bool} (h : s.ifConstructed valid b = .next t) :
    (valid = false ∧ t = s.raise .notConstructed) ∨ (valid = true ∧ b = .next t) := by
  cases valid
  · injection h with h; exact .inl ⟨rfl, h.symm⟩
  · exact .inr ⟨rfl, h⟩

/-- Everything the end of a command can do: its state, or a raised code. -/
theorem State.finish_next {r : Run State} {t : State} (h : s.finish r = .next t) :
    r = .ok t ∨ ∃ c, r = .error (.raised c) ∧ t = s.raise c := by
  rcases r with (c | wi) | u
  · injection h with h; exact .inr ⟨c, rfl, h.symm⟩
  · cases h
  · injection h with h; exact .inl (by rw [h])

/-- A code that is no indexing fault changes the response alone (60 R192, R194). -/
theorem State.raise_eq_answer {c : StatusCode} (h : c.cls ≠ .indexingFault) : s.raise c = s.answer c none := by
  cases c <;> first | rfl | exact absurd rfl h

/-- An indexing fault halts the block (60 R193). -/
theorem State.raise_eq_halt {c : StatusCode} (h : c.cls = .indexingFault) :
    s.raise c = { s with cs := { halt := true, hcause := c.number } }.answer c none := by
  cases c <;> first | rfl | cases h

/-- The operand of SETBIT is a bit, or refused (60 R197). -/
theorem operandBit_cases (v : U64) :
    (v.toNat ≤ 1 ∧ operandBit v = some (decide (v.toNat = 1))) ∨ (1 < v.toNat ∧ operandBit v = none) := by
  unfold operandBit
  rcases (by omega : v.toNat = 0 ∨ v.toNat = 1 ∨ 1 < v.toNat) with h | h | h
  · exact .inl ⟨by omega, by simp [h]⟩
  · exact .inl ⟨by omega, by simp [h]⟩
  · exact .inr ⟨h, by simp [show v.toNat ≠ 0 by omega, show v.toNat ≠ 1 by omega]⟩

/-- The selector of BUILD names a source, or is refused (60 R197). -/
theorem operandSource_cases (sel : U64) :
    (sel.toNat = 0 ∧ operandSource sel = some .ext) ∨ (sel.toNat = 1 ∧ operandSource sel = some .pv) ∨
      (1 < sel.toNat ∧ operandSource sel = none) := by
  unfold operandSource
  rcases (by omega : sel.toNat = 0 ∨ sel.toNat = 1 ∨ 1 < sel.toNat) with h | h | h
  · exact .inl ⟨h, by simp [h]⟩
  · exact .inr (.inl ⟨h, by simp [h]⟩)
  · exact .inr (.inr ⟨h, by simp [show sel.toNat ≠ 0 by omega, show sel.toNat ≠ 1 by omega]⟩)

end Sys2Proof.Machine
end

