-- ==== Sys2Proof/Laws/Word.lean ====
section
/-! SUPPORT. Lemmas of the word layer: the bits of each field operation (40 R93 to R97). -/

namespace Sys2Proof.Machine

theorem width_pos (c : Config) : 0 < c.W := by
  unfold Config.W; cases c.width <;> decide

theorem width_le (c : Config) : c.W ≤ 64 := by
  unfold Config.W; cases c.width <;> decide

theorem eight_le_width (c : Config) : 8 ≤ c.W := by
  unfold Config.W; cases c.width <;> decide

/-- A bit as an arithmetic value is the test of that bit. -/
theorem div_mod_eq_testBit (x i : Nat) : x / 2 ^ i % 2 = (x.testBit i).toNat := by
  rw [Nat.testBit_eq_decide_div_mod_eq]
  rcases Nat.mod_two_eq_zero_or_one (x / 2 ^ i) with h | h <;> simp [h]

theorem getBit_eq_testBit (W w p : Nat) : getBit W w p = (w.testBit (W - 1 - p)).toNat :=
  div_mod_eq_testBit w (W - 1 - p)

theorem getBit_lt_two (W w p : Nat) : getBit W w p < 2 := Nat.mod_lt _ (by decide)

theorem getBit_zero (W p : Nat) : getBit W 0 p = 0 := by simp [getBit]

theorem getBits_lt (W w off len : Nat) : getBits W w off len < 2 ^ len :=
  Nat.mod_lt _ (Nat.two_pow_pos len)

theorem getBits_len_zero (W w off : Nat) : getBits W w off 0 = 0 := by simp [getBits, Nat.mod_one]

/-- One more bit of a field, on its less significant side. -/
theorem getBits_succ {W w off len : Nat} (h : off + len + 1 ≤ W) :
    getBits W w off (len + 1) = 2 * getBits W w off len + getBit W w (off + len) := by
  unfold getBits getBit
  have e : W - off - len = W - off - (len + 1) + 1 := by omega
  have e' : W - 1 - (off + len) = W - off - (len + 1) := by omega
  rw [e, e', pow_succ 2 (W - off - (len + 1)), ← Nat.div_div_eq_div_mul, pow_succ' 2 len, Nat.mod_mul]
  omega

/-- The word taken apart at a field: what lies above it, the field, what lies below it. -/
theorem setBits_eq {W w off len v : Nat} :
    setBits W w off len v =
      2 ^ (W - off - len + len) * (w / 2 ^ (W - off - len + len)) +
        (2 ^ (W - off - len) * (v % 2 ^ len) + w % 2 ^ (W - off - len)) := by
  unfold setBits
  set s := W - off - len
  have h1 : w = 2 ^ s * (w / 2 ^ s) + w % 2 ^ s := (Nat.div_add_mod w (2 ^ s)).symm
  have h2 : w / 2 ^ s = 2 ^ len * (w / 2 ^ (s + len)) + w / 2 ^ s % 2 ^ len := by
    rw [pow_add, ← Nat.div_div_eq_div_mul]; exact (Nat.div_add_mod _ _).symm
  have h3 : w = 2 ^ s * (2 ^ len * (w / 2 ^ (s + len))) + w / 2 ^ s % 2 ^ len * 2 ^ s + w % 2 ^ s := by
    conv_lhs => rw [h1, h2]
    ring
  have h4 : w - w / 2 ^ s % 2 ^ len * 2 ^ s = 2 ^ s * (2 ^ len * (w / 2 ^ (s + len))) + w % 2 ^ s := by
    omega
  show w - w / 2 ^ s % 2 ^ len * 2 ^ s + v % 2 ^ len * 2 ^ s = _
  rw [h4, pow_add]; ring

/-- The bits of `set_bits`, least significant first. -/
theorem testBit_setBits {W w off len v j : Nat} :
    (setBits W w off len v).testBit j =
      if j < W - off - len then w.testBit j
      else if j < W - off - len + len then v.testBit (j - (W - off - len))
      else w.testBit j := by
  rw [setBits_eq]
  set s := W - off - len
  have hlow : w % 2 ^ s < 2 ^ s := Nat.mod_lt _ (Nat.two_pow_pos s)
  have hmid : 2 ^ s * (v % 2 ^ len) + w % 2 ^ s < 2 ^ (s + len) := by
    have : v % 2 ^ len + 1 ≤ 2 ^ len := Nat.mod_lt _ (Nat.two_pow_pos len)
    calc 2 ^ s * (v % 2 ^ len) + w % 2 ^ s < 2 ^ s * (v % 2 ^ len) + 2 ^ s := by omega
      _ = 2 ^ s * (v % 2 ^ len + 1) := by ring
      _ ≤ 2 ^ s * 2 ^ len := Nat.mul_le_mul_left _ this
      _ = 2 ^ (s + len) := by rw [pow_add]
  rw [Nat.testBit_two_pow_mul_add _ hmid, Nat.testBit_two_pow_mul_add _ hlow]
  by_cases h1 : j < s
  · simp [h1, Nat.testBit_mod_two_pow, show j < s + len by omega]
  · by_cases h2 : j < s + len
    · simp [h1, h2, Nat.testBit_mod_two_pow, show j - s < len by omega]
    · simp only [h1, h2, if_false, Nat.testBit_div_two_pow]
      congr 1; omega

/-- The bits of `set_bits` by position: the field takes the low bits of the value, most significant first,
every other bit stays (40 R96). -/
theorem getBit_setBits {W w off len v p : Nat} (hf : off + len ≤ W) (hp : p < W) :
    getBit W (setBits W w off len v) p =
      if off ≤ p ∧ p < off + len then v / 2 ^ (off + len - 1 - p) % 2 else getBit W w p := by
  rw [getBit_eq_testBit, testBit_setBits, getBit_eq_testBit, div_mod_eq_testBit]
  by_cases h1 : W - 1 - p < W - off - len
  · rw [if_pos h1, if_neg (by omega)]
  · by_cases h2 : W - 1 - p < W - off - len + len
    · rw [if_neg h1, if_pos h2, if_pos (by omega)]
      congr 2; omega
    · rw [if_neg h1, if_neg h2, if_neg (by omega)]

/-- `set_bits` gives a word. -/
theorem setBits_lt {W w off len v : Nat} (hw : w < 2 ^ W) (hf : off + len ≤ W) :
    setBits W w off len v < 2 ^ W := by
  apply Nat.lt_pow_two_of_testBit
  intro j hj
  rw [testBit_setBits, if_neg (by omega), if_neg (by omega)]
  exact Nat.testBit_lt_two_pow (lt_of_lt_of_le hw (Nat.pow_le_pow_right (by decide) hj))

/-- `set_bit(w, i, b) = set_bits(w, i, 1, b)` (40 R96). -/
theorem setBit_eq_setBits {W w i : Nat} (b : Bool) : setBit W w i b = setBits W w i 1 b.toNat := by
  unfold setBit setBits
  have e : W - 1 - i = W - i - 1 := by omega
  rw [e]; cases b <;> simp

/-- The number of set bits is at most the number of bits (40 R98). -/
theorem countOnes_le (W w : Nat) : countOnes W w ≤ W := by
  induction W with
  | zero => simp [countOnes]
  | succ W ih => simp only [countOnes]; have := Nat.mod_lt (w / 2 ^ W) (by decide : 0 < 2); omega

/-- `count_ones` reads the low W bits alone. -/
theorem countOnes_mod {W L w : Nat} (h : W ≤ L) : countOnes W (w % 2 ^ L) = countOnes W w := by
  induction W with
  | zero => rfl
  | succ W ih =>
    simp only [countOnes, ih (by omega), div_mod_eq_testBit, Nat.testBit_mod_two_pow]
    simp [show W < L by omega]

/-- Bits above the value count nothing. -/
theorem countOnes_of_lt {L W w : Nat} (h : w < 2 ^ L) (hl : L ≤ W) : countOnes W w = countOnes L w := by
  induction W with
  | zero => simp [show L = 0 by omega]
  | succ W ih =>
    rcases Nat.lt_or_ge L (W + 1) with h1 | h1
    · simp only [countOnes]
      rw [ih (by omega), Nat.div_eq_of_lt (lt_of_lt_of_le h (Nat.pow_le_pow_right (by decide) (by omega)))]
      simp
    · rw [show L = W + 1 by omega]

/-- The population count from the least significant side. -/
theorem countOnes_succ_low (W w : Nat) : countOnes (W + 1) w = w % 2 + countOnes W (w / 2) := by
  induction W with
  | zero => simp [countOnes]
  | succ W ih =>
    rw [countOnes, ih, countOnes, Nat.div_div_eq_div_mul, ← pow_succ']; omega

theorem cdiv_le_iff {a b q : Nat} (hb : 0 < b) : cdiv a b ≤ q ↔ a ≤ q * b := by
  unfold cdiv
  rw [Nat.div_le_iff_le_mul_add_pred hb, Nat.mul_comm]
  omega

theorem lt_cdiv_iff {a b q : Nat} (hb : 0 < b) : q < cdiv a b ↔ q * b < a := by
  have := cdiv_le_iff (a := a) (q := q) hb
  omega

theorem le_cdiv_mul {a b : Nat} (hb : 0 < b) : a ≤ cdiv a b * b := (cdiv_le_iff hb).1 le_rfl

/-- `clog2` is the least exponent (00 R11). -/
theorem clog2_le_iff {n e : Nat} : clog2 n ≤ e ↔ n ≤ 2 ^ e := by
  unfold clog2
  split
  · have := Nat.one_le_two_pow (n := e); simp; omega
  · rename_i h
    have hn : n - 1 ≠ 0 := by omega
    rw [Nat.succ_le_iff, Nat.log2_lt hn]
    omega

theorem le_two_pow_clog2 (n : Nat) : n ≤ 2 ^ clog2 n := clog2_le_iff.1 le_rfl

end Sys2Proof.Machine
end

