-- ==== Sys2Proof/Laws/Memory.lean ====
section
/-! SUPPORT. Lemmas of the stores: read after write, the canonical form, flat bits and fields. -/

namespace Sys2Proof.Machine

/-! ## Cells -/

theorem lookupCell_eq_zero {cells : List (Nat × Word)} {a : Nat} (h : ∀ c ∈ cells, c.1 ≠ a) :
    lookupCell cells a = 0 := by
  induction cells with
  | nil => rfl
  | cons c rest ih =>
    rw [lookupCell, if_neg (h c List.mem_cons_self)]
    exact ih fun d hd => h d (List.mem_cons_of_mem _ hd)

theorem mem_storeCell {cells : List (Nat × Word)} {a v : Nat} {c : Nat × Word}
    (h : c ∈ storeCell cells a v) : c ∈ cells ∨ (c = (a, v) ∧ v ≠ 0) := by
  induction cells with
  | nil =>
    by_cases hv : v = 0 <;> simp [storeCell, hv] at h
    exact .inr ⟨h, hv⟩
  | cons d rest ih =>
    simp only [storeCell] at h
    split at h
    · by_cases hv : v = 0
      · rw [if_pos hv] at h; exact .inl h
      · rw [if_neg hv, List.mem_cons] at h
        exact h.elim (fun e => .inr ⟨e, hv⟩) .inl
    · split at h
      · by_cases hv : v = 0
        · rw [if_pos hv] at h; exact .inl (List.mem_cons_of_mem _ h)
        · rw [if_neg hv, List.mem_cons] at h
          exact h.elim (fun e => .inr ⟨e, hv⟩) (fun m => .inl (List.mem_cons_of_mem _ m))
      · rw [List.mem_cons] at h
        rcases h with rfl | h
        · exact .inl List.mem_cons_self
        · exact (ih h).imp (List.mem_cons_of_mem _) id

theorem pairwise_storeCell {cells : List (Nat × Word)} {a v : Nat}
    (h : cells.Pairwise (fun a b => a.1 < b.1)) :
    (storeCell cells a v).Pairwise (fun a b => a.1 < b.1) := by
  induction cells with
  | nil => by_cases hv : v = 0 <;> simp [storeCell, hv]
  | cons d rest ih =>
    have hd := List.pairwise_cons.1 h
    simp only [storeCell]
    split
    · rename_i hlt
      by_cases hv : v = 0
      · rw [if_pos hv]; exact h
      · rw [if_neg hv]
        refine List.pairwise_cons.2 ⟨fun c hc => ?_, h⟩
        rcases List.mem_cons.1 hc with rfl | hc
        · exact hlt
        · exact lt_trans hlt (hd.1 c hc)
    · split
      · rename_i heq
        by_cases hv : v = 0
        · rw [if_pos hv]; exact hd.2
        · rw [if_neg hv]; exact List.pairwise_cons.2 ⟨fun c hc => by simpa [heq] using hd.1 c hc, hd.2⟩
      · refine List.pairwise_cons.2 ⟨fun c hc => ?_, ih hd.2⟩
        rcases mem_storeCell hc with hc | ⟨rfl, -⟩
        · exact hd.1 c hc
        · show d.1 < a; omega

theorem lookupCell_storeCell {cells : List (Nat × Word)} {a b v : Nat}
    (h : cells.Pairwise (fun a b => a.1 < b.1)) :
    lookupCell (storeCell cells a v) b = if b = a then v else lookupCell cells b := by
  induction cells with
  | nil =>
    by_cases hv : v = 0 <;> by_cases hb : b = a <;> simp [storeCell, lookupCell, hv, hb]
    intro e; exact absurd e.symm hb
  | cons d rest ih =>
    have hd := List.pairwise_cons.1 h
    have hz : ∀ x, x ≤ d.1 → lookupCell rest x = 0 := fun x hx =>
      lookupCell_eq_zero fun c hc => by have := hd.1 c hc; omega
    simp only [storeCell]
    split
    · rename_i hlt
      by_cases hv : v = 0
      · rw [if_pos hv]
        by_cases hb : b = a
        · rw [if_pos hb, lookupCell, if_neg (by omega), hz b (by omega), hv]
        · rw [if_neg hb]
      · rw [if_neg hv]
        by_cases hb : b = a
        · simp [lookupCell, hb]
        · rw [lookupCell, if_neg (Ne.symm hb), if_neg hb]
    · split
      · rename_i heq
        by_cases hb : b = a
        · by_cases hv : v = 0
          · rw [if_pos hv, if_pos hb, hz b (by omega), hv]
          · rw [if_neg hv, if_pos hb, lookupCell, if_pos hb.symm]
        · by_cases hv : v = 0
          · rw [if_pos hv, if_neg hb, lookupCell, if_neg (by omega)]
          · rw [if_neg hv, if_neg hb, lookupCell, if_neg (Ne.symm hb), lookupCell, if_neg (by omega)]
      · simp only [lookupCell, ih hd.2]
        by_cases hb : b = a
        · rw [if_neg (by omega), if_pos hb, if_pos hb]
        · by_cases hd1 : d.1 = b <;> simp [hb, hd1]

/-! ## Stores -/

theorem Memory.zeros_wf (W count : Nat) : (Memory.zeros count).wf W :=
  ⟨List.Pairwise.nil, fun _ h => absurd h List.not_mem_nil⟩

@[simp] theorem Memory.zeros_count (count : Nat) : (Memory.zeros count).count = count := rfl

@[simp] theorem Memory.zeros_word (count wi : Nat) : (Memory.zeros count).word wi = 0 := rfl

@[simp] theorem Memory.put_count (m : Memory) (wi : Nat) (v : Word) : (m.put wi v).count = m.count := rfl

/-- A read after a write: the word written, or the word that was there. -/
theorem Memory.put_word {W : Nat} {m : Memory} (h : m.wf W) (wi : Nat) (v : Word) (a : Nat) :
    (m.put wi v).word a = if a = wi then v else m.word a := lookupCell_storeCell h.1

/-- A write of a word inside the store keeps the canonical form. -/
theorem Memory.put_wf {W : Nat} {m : Memory} (h : m.wf W) {wi : Nat} {v : Word} (hi : wi < m.count)
    (hv : v < 2 ^ W) : (m.put wi v).wf W := by
  refine ⟨pairwise_storeCell h.1, fun c hc => ?_⟩
  rcases mem_storeCell hc with hc | ⟨rfl, hne⟩
  · exact h.2 c hc
  · exact ⟨hi, Nat.pos_of_ne_zero hne, hv⟩

/-- Every operation that writes a store keeps its canonical form. -/
theorem Memory.write_wf {W : Nat} {m m' : Memory} (h : m.wf W) {wi : Nat} {v : Word} (hv : v < 2 ^ W)
    (hw : m.write wi v = .ok m') : m'.wf W := by
  unfold Memory.write at hw
  split at hw
  · injection hw with hw; subst hw; exact Memory.put_wf h ‹_› hv
  · cases hw

theorem lookupCell_mem {cells : List (Nat × Word)} {a : Nat} (h : lookupCell cells a ≠ 0) :
    (a, lookupCell cells a) ∈ cells := by
  induction cells with
  | nil => exact absurd rfl h
  | cons c rest ih =>
    by_cases hc : c.1 = a
    · rw [lookupCell, if_pos hc]; subst hc; exact List.mem_cons_self
    · rw [lookupCell, if_neg hc] at h ⊢; exact List.mem_cons_of_mem _ (ih h)

/-- Every word of a canonical store is a word. -/
theorem Memory.word_lt {W : Nat} {m : Memory} (h : m.wf W) (a : Nat) : m.word a < 2 ^ W := by
  by_cases h0 : m.word a = 0
  · rw [h0]; exact Nat.two_pow_pos W
  · exact (h.2 _ (lookupCell_mem h0)).2.2

/-- An index at or beyond the word count is not listed. -/
theorem Memory.word_of_count_le {W : Nat} {m : Memory} (h : m.wf W) {a : Nat} (ha : m.count ≤ a) :
    m.word a = 0 := by
  by_contra h0
  have := (h.2 _ (lookupCell_mem h0)).1
  exact absurd this (not_lt.2 ha)

theorem Memory.read_of_lt {m : Memory} {wi : Nat} (h : wi < m.count) : m.read wi = .ok (m.word wi) :=
  if_pos h

theorem Memory.write_of_lt {m : Memory} {wi : Nat} {v : Word} (h : wi < m.count) :
    m.write wi v = .ok (m.put wi v) := if_pos h

/-- Equal words make equal canonical stores. -/
theorem cells_ext {a b : List (Nat × Word)} (ha : a.Pairwise (fun a b => a.1 < b.1))
    (hb : b.Pairwise (fun a b => a.1 < b.1)) (pa : ∀ c ∈ a, 0 < c.2) (pb : ∀ c ∈ b, 0 < c.2)
    (h : ∀ x, lookupCell a x = lookupCell b x) : a = b := by
  induction a generalizing b with
  | nil =>
    cases b with
    | nil => rfl
    | cons c rest =>
      have := h c.1
      have hc := pb c List.mem_cons_self
      exact absurd (by simpa [lookupCell] using this.symm) (Nat.ne_of_gt hc)
  | cons c rest ih =>
    cases b with
    | nil =>
      have := h c.1
      have hc := pa c List.mem_cons_self
      exact absurd (by simpa [lookupCell] using this) (Nat.ne_of_gt hc)
    | cons d rest' =>
      have hc := List.pairwise_cons.1 ha
      have hd := List.pairwise_cons.1 hb
      have pc := pa c List.mem_cons_self
      have pd := pb d List.mem_cons_self
      have e1 : c.1 = d.1 := by
        by_contra hne
        rcases Nat.lt_or_gt_of_ne hne with hlt | hlt
        · have := h c.1
          rw [lookupCell, if_pos rfl, lookupCell, if_neg (by omega),
            lookupCell_eq_zero (fun x hx => by have := hd.1 x hx; omega)] at this
          exact absurd this (Nat.ne_of_gt pc)
        · have := h d.1
          rw [lookupCell, if_neg (by omega),
            lookupCell_eq_zero (fun x hx => by have := hc.1 x hx; omega), lookupCell, if_pos rfl] at this
          exact absurd this.symm (Nat.ne_of_gt pd)
      have e2 : c.2 = d.2 := by
        have := h c.1
        rwa [lookupCell, if_pos rfl, lookupCell, if_pos e1.symm] at this
      have e3 : rest = rest' := by
        refine ih hc.2 hd.2 (fun x hx => pa x (List.mem_cons_of_mem _ hx))
          (fun x hx => pb x (List.mem_cons_of_mem _ hx)) fun x => ?_
        by_cases hx : c.1 = x
        · rw [lookupCell_eq_zero fun y hy => by have := hc.1 y hy; omega,
            lookupCell_eq_zero fun y hy => by have := hd.1 y hy; omega]
        · have := h x
          rwa [lookupCell, if_neg hx, lookupCell, if_neg (by omega)] at this
      rw [e3, Prod.ext e1 e2]

/-- Two canonical stores with the same words are the same data. -/
theorem Memory.ext_of_word {W : Nat} {m m' : Memory} (h : m.wf W) (h' : m'.wf W) (hc : m.count = m'.count)
    (hw : ∀ a, m.word a = m'.word a) : m = m' := by
  have e := cells_ext h.1 h'.1 (fun c hc => (h.2 c hc).2.1) (fun c hc => (h'.2 c hc).2.1) hw
  cases m; cases m'; simp_all

/-! ## Flat bits and fields -/

theorem Memory.flatBit_lt_two (W : Nat) (m : Memory) (pos : Nat) : m.flatBit W pos < 2 :=
  getBit_lt_two _ _ _

theorem Memory.zeros_flatBit (W count pos : Nat) : (Memory.zeros count).flatBit W pos = 0 :=
  getBit_zero _ _

theorem Memory.field_lt (W : Nat) (m : Memory) (start len : Nat) : m.field W start len < 2 ^ len := by
  induction len with
  | zero => simp [Memory.field]
  | succ len ih =>
    have := m.flatBit_lt_two W (start + len)
    rw [Memory.field, pow_succ']; omega

theorem Memory.zeros_field (W count start len : Nat) : (Memory.zeros count).field W start len = 0 := by
  induction len with
  | zero => rfl
  | succ len ih => rw [Memory.field, ih, Memory.zeros_flatBit]

/-- A field is the concatenation of its two parts. -/
theorem Memory.field_append (W : Nat) (m : Memory) (start a b : Nat) :
    m.field W start (a + b) = m.field W start a * 2 ^ b + m.field W (start + a) b := by
  induction b with
  | zero => simp [Memory.field]
  | succ b ih => rw [← Nat.add_assoc, Memory.field, ih, Memory.field, pow_succ, ← Nat.add_assoc]; ring

/-- Fields agree where their bits agree. -/
theorem Memory.field_congr {W : Nat} {m m' : Memory} {start start' len : Nat}
    (h : ∀ q, q < len → m.flatBit W (start + q) = m'.flatBit W (start' + q)) :
    m.field W start len = m'.field W start' len := by
  induction len with
  | zero => rfl
  | succ len ih => rw [Memory.field, Memory.field, ih fun q hq => h q (by omega), h len (by omega)]

/-- A field whose bits are those of a value is the value. -/
theorem Memory.field_eq_value {W : Nat} {m : Memory} {start len v : Nat}
    (h : ∀ q, q < len → m.flatBit W (start + q) = v / 2 ^ (len - 1 - q) % 2) :
    m.field W start len = v % 2 ^ len := by
  induction len generalizing v with
  | zero => simp [Memory.field, Nat.mod_one]
  | succ len ih =>
    have hi := ih (v := v / 2) fun q hq => by
      rw [h q (by omega), Nat.div_div_eq_div_mul, ← pow_succ']; congr 3; omega
    have hl := h len (by omega)
    rw [Memory.field, hi, hl, pow_succ' 2 len, Nat.mod_mul]
    simp; omega

theorem index_of_lt {W start q : Nat} (hW : 0 < W) (h : start % W + q < W) :
    (start + q) / W = start / W ∧ (start + q) % W = start % W + q := by
  have h1 : start + q = W * (start / W) + (start % W + q) := by
    have := Nat.div_add_mod start W; omega
  constructor
  · rw [h1, Nat.mul_add_div hW, Nat.div_eq_of_lt h, Nat.add_zero]
  · rw [h1, Nat.mul_add_mod, Nat.mod_eq_of_lt h]

/-- A field inside one word is `get_bits` of that word (20 R56). -/
theorem Memory.field_eq_getBits {W : Nat} {m : Memory} {start len : Nat} (hW : 0 < W)
    (h : start % W + len ≤ W) :
    m.field W start len = getBits W (m.word (start / W)) (start % W) len := by
  induction len with
  | zero => rw [Memory.field, getBits_len_zero]
  | succ len ih =>
    obtain ⟨h1, h2⟩ := index_of_lt (start := start) (q := len) hW (by omega)
    rw [Memory.field, ih (by omega), getBits_succ (by omega), Memory.flatBit, wordIndex, bitOffset, h1, h2]

/-- The flat bits after one word takes a new field. -/
theorem Memory.put_setBits_flatBit {W : Nat} {m : Memory} (h : m.wf W) {wi off len v : Nat} (hW : 0 < W)
    (hf : off + len ≤ W) (pos : Nat) :
    (m.put wi (setBits W (m.word wi) off len v)).flatBit W pos =
      if pos / W = wi ∧ off ≤ pos % W ∧ pos % W < off + len then v / 2 ^ (off + len - 1 - pos % W) % 2
      else m.flatBit W pos := by
  unfold Memory.flatBit wordIndex bitOffset
  rw [Memory.put_word h]
  by_cases hp : pos / W = wi
  · rw [if_pos hp, getBit_setBits hf (Nat.mod_lt _ hW), hp]
    by_cases hq : off ≤ pos % W ∧ pos % W < off + len
    · rw [if_pos hq, if_pos ⟨rfl, hq⟩]
    · rw [if_neg hq, if_neg fun e => hq e.2]
  · rw [if_neg hp, if_neg fun e => hp e.1]

/-- A word is its flat bits (20 R51). -/
theorem Memory.word_eq_of_flatBit {c : Config} {m m' : Memory} (h : m.wf c.W) (h' : m'.wf c.W) {wi : Nat}
    (hb : ∀ pos, wordIndex c.W pos = wi → m.flatBit c.W pos = m'.flatBit c.W pos) :
    m.word wi = m'.word wi := by
  have hW := width_pos c
  apply Nat.eq_of_testBit_eq
  intro j
  by_cases hj : j < c.W
  · have hd : (wi * c.W + (c.W - 1 - j)) / c.W = wi := by
      rw [Nat.mul_comm, Nat.mul_add_div hW, Nat.div_eq_of_lt (by omega), Nat.add_zero]
    have hm : (wi * c.W + (c.W - 1 - j)) % c.W = c.W - 1 - j := by
      rw [Nat.mul_comm, Nat.mul_add_mod, Nat.mod_eq_of_lt (by omega)]
    have := hb (wi * c.W + (c.W - 1 - j)) hd
    unfold Memory.flatBit wordIndex bitOffset at this
    rw [hd, hm, getBit_eq_testBit, getBit_eq_testBit, show c.W - 1 - (c.W - 1 - j) = j by omega] at this
    cases h1 : (m.word wi).testBit j <;> cases h2 : (m'.word wi).testBit j <;> simp_all
  · have hp := Nat.pow_le_pow_right (show 0 < 2 by decide) (not_lt.1 hj)
    rw [Nat.testBit_lt_two_pow (lt_of_lt_of_le (Memory.word_lt h _) hp),
      Nat.testBit_lt_two_pow (lt_of_lt_of_le (Memory.word_lt h' _) hp)]

/-- Bit j of a field, from its most significant, is the flat bit at `start + j` (20 R56). -/
theorem Memory.field_bit (W : Nat) (m : Memory) (st len j : Nat) (h : j < len) :
    m.field W st len / 2 ^ (len - 1 - j) % 2 = m.flatBit W (st + j) := by
  induction len with
  | zero => omega
  | succ l ih =>
    rw [Memory.field]
    have h2 : m.flatBit W (st + l) < 2 := getBit_lt_two _ _ _
    by_cases hj : j = l
    · subst hj; simp; omega
    · have e : l + 1 - 1 - j = (l - 1 - j) + 1 := by omega
      rw [e, pow_succ', ← Nat.div_div_eq_div_mul]
      have : (2 * m.field W st l + m.flatBit W (st + l)) / 2 = m.field W st l := by omega
      rw [this, ih (by omega)]

end Sys2Proof.Machine
end

