-- ==== Sys2Proof/Laws/Vector.lean ====
section
/-! SUPPORT. What each vector function can do: one lemma per function (41 R112 to R121). -/

namespace Sys2Proof.Machine

variable {c : Config} {v v' : Vec} {i pos : Nat}

/-! ## Computations -/

@[simp] theorem Run.ok_bind {α β : Type} (a : α) (f : α → Run β) : ((Except.ok a : Run α) >>= f) = f a := rfl

@[simp] theorem Run.error_bind {α β : Type} (e : Stop) (f : α → Run β) :
    ((Except.error e : Run α) >>= f) = .error e := rfl

@[simp] theorem Run.pure_eq {α : Type} (a : α) : (pure a : Run α) = .ok a := rfl

/-! ## Bounds of a valid vector -/

theorem Vec.bits_le (h : v.wf c) : v.n * v.k ≤ v.mem.count * c.W := by
  have := le_cdiv_mul (a := v.n * v.k) (width_pos c)
  rw [h.2.2.2.1]; exact this

theorem Vec.element_end (h : v.wf c) (hi : i < v.n) : i * v.k + v.k ≤ v.mem.count * c.W := by
  have h1 : (i + 1) * v.k ≤ v.n * v.k := Nat.mul_le_mul_right _ hi
  have := Vec.bits_le h
  rw [Nat.add_mul, Nat.one_mul] at h1; omega

theorem wordIndex_lt (h : pos < v.mem.count * c.W) : wordIndex c.W pos < v.mem.count :=
  Nat.div_lt_of_lt_mul (by rwa [Nat.mul_comm])

theorem bitOffset_lt (c : Config) (pos : Nat) : bitOffset c.W pos < c.W := Nat.mod_lt _ (width_pos c)

theorem fits_iff {W : Nat} : v.fits W i = true ↔ bitOffset W (i * v.k) + v.k ≤ W := decide_eq_true_iff

/-- The straddling case: the element passes the end of its first word and ends in the next one (41 R117). -/
theorem straddle_bounds (h : v.wf c) (hi : i < v.n) (hs : ¬ v.fits c.W i = true) :
    v.margin c.W i + v.extra c.W i = v.k ∧ 1 ≤ v.margin c.W i ∧ 1 ≤ v.extra c.W i ∧ v.extra c.W i ≤ c.W ∧
      bitOffset c.W (i * v.k) + v.margin c.W i = c.W ∧
      i * v.k + v.margin c.W i = (wordIndex c.W (i * v.k) + 1) * c.W ∧
      wordIndex c.W (i * v.k) + 1 < v.mem.count := by
  have hb := bitOffset_lt c (i * v.k)
  have hk := h.1
  have hs' : ¬ bitOffset c.W (i * v.k) + v.k ≤ c.W := fun e => hs (fits_iff.2 e)
  have hd : c.W * wordIndex c.W (i * v.k) + bitOffset c.W (i * v.k) = i * v.k := Nat.div_add_mod _ _
  have he := Vec.element_end h hi
  have hm : i * v.k + (c.W - bitOffset c.W (i * v.k)) = (wordIndex c.W (i * v.k) + 1) * c.W := by
    rw [Nat.add_mul, Nat.one_mul, Nat.mul_comm (wordIndex _ _)]; omega
  have hc : wordIndex c.W (i * v.k) + 1 < v.mem.count := by
    by_contra hc
    have : v.mem.count * c.W ≤ (wordIndex c.W (i * v.k) + 1) * c.W :=
      Nat.mul_le_mul_right _ (not_lt.1 hc)
    omega
  refine ⟨?_, ?_, ?_, ?_, ?_, hm, hc⟩ <;> simp only [Vec.extra, Vec.margin, Vec.bitIndex] <;> omega

/-! ## vnew -/

/-- What `vnew` can do (41 R112): a vector of zero words, or the first check that fails. -/
theorem vnew_cases (c : Config) (k n : Nat) :
    (constructible c k n ∧ constructionFailure c k n = none ∧ vnew c k n = .ok (Vec.zeros c.W k n)) ∨
    ∃ code : StatusCode, code.cls = .construction ∧ constructionFailure c k n = some code ∧
      vnew c k n = .error (.raised code) := by
  unfold vnew constructionFailure
  split
  · exact .inr ⟨_, rfl, rfl, rfl⟩
  split
  · exact .inr ⟨_, rfl, rfl, rfl⟩
  split
  · exact .inr ⟨_, rfl, rfl, rfl⟩
  split
  · exact .inr ⟨_, rfl, rfl, rfl⟩
  · exact .inl ⟨⟨by omega, by omega, by omega, by omega⟩, rfl, rfl⟩

/-- No check of construction fails exactly when all four pass. -/
theorem constructionFailure_eq_none {k n : Nat} : constructionFailure c k n = none ↔ constructible c k n := by
  rcases vnew_cases c k n with ⟨h1, h2, -⟩ | ⟨code, -, h2, h3⟩
  · exact ⟨fun _ => h1, fun _ => h2⟩
  · rw [h2]
    refine ⟨nofun, fun ⟨_, _, _, _⟩ => ?_⟩
    unfold vnew at h3
    rw [if_neg (by omega), if_neg (by omega), if_neg (by omega), if_neg (by omega)] at h3
    cases h3

/-- No check of BUILD's tables fails exactly when both can be made. -/
theorem tableFailure_eq_none {src : Source} : tableFailure c src = none ↔ tablesConstructible c src := by
  unfold tableFailure
  rw [Option.or_eq_none_iff, constructionFailure_eq_none, constructionFailure_eq_none]

/-- A vector `vnew` makes is valid, when its length is a u64. -/
theorem vnew_wf {k n : Nat} (hn : n < 2 ^ 64) (h : vnew c k n = .ok v) : v.wf c := by
  rcases vnew_cases c k n with ⟨⟨h1, h2, h3, h4⟩, -, h5⟩ | ⟨_, _, _, h5⟩
  · rw [h5] at h; injection h with h; subst h
    exact ⟨h1, hn, h2, rfl, h4, h3, Memory.zeros_wf _ _⟩
  · rw [h5] at h; cases h

/-! ## vgetbit and vget -/

/-- `vgetbit` reads the flat bit (41 R120). -/
theorem vgetbit_eq (h : pos < v.mem.count * c.W) :
    vgetbit c.W v pos = .ok (v.mem.flatBit c.W pos) := by
  unfold vgetbit
  rw [Memory.read_of_lt (wordIndex_lt h)]; rfl

/-- `vget` in range answers the element: its k flat bits, by all three paths (41 R117). -/
theorem vget_eq (h : v.wf c) (hi : i < v.n) : vget c v i = .ok (v.element c.W i) := by
  have hW := width_pos c
  have he := Vec.element_end h hi
  unfold vget Vec.element
  rw [if_neg (by omega)]
  by_cases h0 : v.k = 0
  · rw [if_pos h0, h0]; rfl
  rw [if_neg h0]
  have hlt : i * v.k < v.mem.count * c.W := by omega
  have hwi := wordIndex_lt hlt
  by_cases hkW : v.k = c.W
  · rw [if_pos hkW, hkW, Memory.field_eq_getBits hW (by simp), Nat.mul_div_cancel _ hW]
    rw [wordIndex, hkW, Nat.mul_div_cancel _ hW] at hwi
    rw [Memory.read_of_lt hwi]
    simp only [Nat.mul_mod_left, getBits, Nat.sub_zero, Nat.sub_self, pow_zero, Nat.div_one]
    rw [Nat.mod_eq_of_lt (Memory.word_lt h.2.2.2.2.2.2 i)]
  rw [if_neg hkW]
  by_cases hk1 : v.k = 1
  · rw [if_pos hk1, hk1, vgetbit_eq (by rw [hk1] at hlt; omega)]
    simp [Memory.field]
  rw [if_neg hk1]
  by_cases hf : v.fits c.W i = true
  · rw [if_pos hf]
    rw [Vec.bitIndex, Memory.read_of_lt hwi, Memory.field_eq_getBits hW (fits_iff.1 hf)]
    rfl
  · rw [if_neg hf]
    obtain ⟨hk, hm1, he1, heW, hbm, hnext, hc⟩ := straddle_bounds h hi hf
    rw [Vec.bitIndex, Memory.read_of_lt hwi, Memory.read_of_lt hc]
    show Except.ok _ = Except.ok _
    congr 1
    have happ := Memory.field_append c.W v.mem (i * v.k) (v.margin c.W i) (v.extra c.W i)
    rw [hk, hnext] at happ
    rw [happ,
      Memory.field_eq_getBits hW (start := (wordIndex c.W (i * v.k) + 1) * c.W) (by simpa using heW),
      Memory.field_eq_getBits hW (start := i * v.k) (by rw [← bitOffset, hbm]),
      Nat.mul_div_cancel _ hW, Nat.mul_mod_left]
    rw [← Nat.shiftLeft_add_eq_or_of_lt (getBits_lt _ _ _ _), Nat.shiftLeft_eq]
    rfl

/-- `vget` past the end faults (41 R114). -/
theorem vget_out_of_range (hi : v.n ≤ i) : vget c v i = .error (.raised .indexOutOfRange) := if_pos hi

/-! ## vsetbit and vset -/

/-- One vector after another of the same shape, its words canonical, its flat bits given by a function. -/
structure Rewritten (c : Config) (v v' : Vec) (bit : Nat → Nat) : Prop where
  k : v'.k = v.k
  n : v'.n = v.n
  count : v'.mem.count = v.mem.count
  wf : v'.mem.wf c.W
  bits : ∀ pos, v'.mem.flatBit c.W pos = bit pos

/-- A vector of the same shape as a valid one, with canonical words, is valid. -/
theorem Rewritten.vec_wf {bit : Nat → Nat} (r : Rewritten c v v' bit) (h : v.wf c) : v'.wf c := by
  obtain ⟨h1, h2, h3, h4, h5, h6, _⟩ := h
  rw [← r.count] at h4 h5 h6
  rw [← r.k] at h1 h3 h4
  rw [← r.n] at h2 h3 h4
  exact ⟨h1, h2, h3, h4, h5, h6, r.wf⟩

/-- The flat bits after the field `[start, start + len)` takes the low bits of a value (40 R96). -/
def fieldBits (W : Nat) (v : Vec) (start len value pos : Nat) : Nat :=
  if start ≤ pos ∧ pos < start + len then value / 2 ^ (start + len - 1 - pos) % 2
  else v.mem.flatBit W pos

/-- Where a flat position lies, seen from a field inside one word. -/
theorem in_word_iff {W start len : Nat} (hW : 0 < W) (h : start % W + len ≤ W) (pos : Nat) :
    (pos / W = start / W ∧ start % W ≤ pos % W ∧ pos % W < start % W + len) ↔
      (start ≤ pos ∧ pos < start + len) := by
  have hp := Nat.div_add_mod pos W
  have hs := Nat.div_add_mod start W
  constructor
  · rintro ⟨h1, h2, h3⟩
    rw [h1] at hp; omega
  · rintro ⟨h1, h2⟩
    have := index_of_lt (start := start) (q := pos - start) hW (by omega)
    rw [show start + (pos - start) = pos by omega] at this
    omega

/-- The vector with a field of one word replaced. -/
def putField (W : Nat) (v : Vec) (start len value : Nat) : Vec :=
  let wi := start / W
  { v with mem := v.mem.put wi (setBits W (v.mem.word wi) (start % W) len value) }

/-- One word takes a field of `set_bits`: the rewriting of the vector's flat bits. -/
theorem putField_rewritten (hm : v.mem.wf c.W) {start len value : Nat}
    (hf : start % c.W + len ≤ c.W) (hwi : start / c.W < v.mem.count) :
    Rewritten c v (putField c.W v start len value) (fieldBits c.W v start len value) where
  k := rfl
  n := rfl
  count := rfl
  wf := Memory.put_wf hm hwi (setBits_lt (Memory.word_lt hm _) hf)
  bits pos := by
    have hW := width_pos c
    show (v.mem.put _ _).flatBit c.W pos = _
    rw [Memory.put_setBits_flatBit hm hW hf, fieldBits]
    by_cases hq : start ≤ pos ∧ pos < start + len
    · have hw := (in_word_iff hW hf pos).2 hq
      rw [if_pos hw, if_pos hq]
      have hp := Nat.div_add_mod pos c.W
      have hs := Nat.div_add_mod start c.W
      rw [hw.1] at hp
      congr 3; omega
    · rw [if_neg (fun e => hq ((in_word_iff hW hf pos).1 e)), if_neg hq]

/-- `vsetbit` replaces its one flat bit (41 R121). -/
theorem vsetbit_eq (hm : v.mem.wf c.W) (h : pos < v.mem.count * c.W) (b : Bool) :
    ∃ v', vsetbit c.W v pos b = .ok v' ∧ Rewritten c v v' (fieldBits c.W v pos 1 b.toNat) := by
  have hwi := wordIndex_lt h
  refine ⟨_, ?_, putField_rewritten hm (start := pos) (len := 1) (by have := bitOffset_lt c pos; exact this)
    hwi⟩
  unfold vsetbit
  rw [Memory.read_of_lt hwi, Run.ok_bind, Memory.write_of_lt hwi, setBit_eq_setBits]
  rfl

/-- `writeElement` replaces the k flat bits of the element, by all three paths (41 R119). -/
theorem writeElement_eq (h : v.wf c) (hi : i < v.n) {value : Nat} (hv : value < 2 ^ v.k) :
    ∃ v', writeElement c v i value = .ok v' ∧
      Rewritten c v v' (fieldBits c.W v (i * v.k) v.k value) := by
  have hW := width_pos c
  have he := Vec.element_end h hi
  have hm := h.2.2.2.2.2.2
  unfold writeElement
  by_cases h0 : v.k = 0
  · exact ⟨v, if_pos h0, rfl, rfl, rfl, hm, fun pos => by rw [fieldBits, h0, if_neg (by omega)]⟩
  rw [if_neg h0]
  have hlt : i * v.k < v.mem.count * c.W := by omega
  have hwi := wordIndex_lt hlt
  by_cases hkW : v.k = c.W
  · rw [if_pos hkW]
    have hd : i * v.k / c.W = i := by rw [hkW, Nat.mul_div_cancel _ hW]
    have hr : i * v.k % c.W = 0 := by rw [hkW, Nat.mul_mod_left]
    have hw : i < v.mem.count := by rw [wordIndex, hd] at hwi; exact hwi
    have := putField_rewritten hm (start := i * v.k) (len := v.k) (value := value)
      (by rw [hr, hkW]; omega) (by rw [hd]; exact hw)
    unfold putField at this
    simp only [hd, hr] at this
    have e : setBits c.W (v.mem.word i) 0 v.k value = value := by
      have hlt := Memory.word_lt hm i
      unfold setBits
      dsimp only
      rw [hkW, Nat.sub_zero, Nat.sub_self, pow_zero, Nat.div_one, Nat.mod_eq_of_lt hlt,
        Nat.mod_eq_of_lt (by rwa [hkW] at hv), Nat.mul_one, Nat.mul_one, Nat.sub_self, Nat.zero_add]
    rw [e] at this
    rw [Memory.write_of_lt hw]
    exact ⟨_, rfl, this⟩
  rw [if_neg hkW]
  by_cases hk1 : v.k = 1
  · rw [if_pos hk1]
    have := vsetbit_eq (pos := i * v.k) hm hlt (value = oneWord)
    rw [hk1] at hv
    have hb : (decide (value = oneWord)).toNat = value := by
      rcases (by omega : value = 0 ∨ value = 1) with e | e <;> subst e <;> rfl
    rw [hb] at this
    rw [hk1] at this ⊢
    simpa using this
  rw [if_neg hk1]
  by_cases hf : v.fits c.W i = true
  · rw [if_pos hf]
    have := putField_rewritten hm (start := i * v.k) (len := v.k) (value := value) (fits_iff.1 hf)
      hwi
    dsimp only [Vec.bitIndex]
    rw [Memory.read_of_lt hwi, Run.ok_bind, Memory.write_of_lt hwi]
    exact ⟨_, rfl, this⟩
  · rw [if_neg hf]
    obtain ⟨hk, hm1, he1, heW, hbm, hnext, hc⟩ := straddle_bounds h hi hf
    have r1 := putField_rewritten hm (start := i * v.k) (len := v.margin c.W i)
      (value := value / 2 ^ v.extra c.W i) (by rw [← bitOffset]; omega) hwi
    set v1 : Vec := putField c.W v (i * v.k) (v.margin c.W i) (value / 2 ^ v.extra c.W i) with hv1
    set start2 := i * v.k + v.margin c.W i with hs2
    have hd2 : start2 / c.W = wordIndex c.W (i * v.k) + 1 := by
      rw [hnext, Nat.mul_div_cancel _ hW]
    have hr2 : start2 % c.W = 0 := by rw [hnext, Nat.mul_mod_left]
    have hc1 : start2 / c.W < v1.mem.count := by rw [r1.count, hd2]; exact hc
    have r2 := putField_rewritten (v := v1) r1.wf (start := start2) (len := v.extra c.W i)
      (value := value % 2 ^ v.extra c.W i) (by omega) hc1
    have hread : v1.mem.read (start2 / c.W) = .ok (v1.mem.word (start2 / c.W)) := Memory.read_of_lt hc1
    have hwrite := Memory.write_of_lt (m := v1.mem)
      (v := setBits c.W (v1.mem.word (start2 / c.W)) (start2 % c.W) (v.extra c.W i)
        (value % 2 ^ v.extra c.W i)) hc1
    refine ⟨_, ?_, r2.k, r2.n, r2.count, r2.wf, fun pos => ?_⟩
    · rw [hd2] at hread hwrite
      dsimp only [Vec.bitIndex]
      rw [Memory.read_of_lt hwi, Run.ok_bind, Memory.write_of_lt hwi, Run.ok_bind]
      show (v1.mem.read (wordIndex c.W (i * v.k) + 1) >>= _) = _
      rw [hread, Run.ok_bind]
      rw [hr2] at hwrite
      show (v1.mem.write (wordIndex c.W (i * v.k) + 1) _ >>= _) = _
      rw [hwrite, Run.ok_bind, Run.pure_eq]
      unfold putField
      simp only [hd2, hr2]
      rfl
    · rw [r2.bits, fieldBits, fieldBits]
      by_cases hp2 : start2 ≤ pos ∧ pos < start2 + v.extra c.W i
      · rw [if_pos hp2, if_pos (by omega), div_mod_eq_testBit, div_mod_eq_testBit,
          Nat.testBit_mod_two_pow]
        rw [show start2 + v.extra c.W i - 1 - pos = i * v.k + v.k - 1 - pos by omega,
          decide_eq_true (show i * v.k + v.k - 1 - pos < v.extra c.W i by omega), Bool.true_and]
      · rw [if_neg hp2, r1.bits, fieldBits]
        by_cases hp1 : i * v.k ≤ pos ∧ pos < i * v.k + v.margin c.W i
        · rw [if_pos hp1, if_pos (by omega), Nat.div_div_eq_div_mul, ← pow_add]
          congr 3; omega
        · rw [if_neg hp1, if_neg (by omega)]

/-- Everything `vset` can do (41 R119): fault on the index, fault on the value (DBG = 1), or rewrite the
element's k flat bits, to the value or to a free value. -/
theorem vset_cases (h : v.wf c) (i value d : Nat) :
    (v.n ≤ i ∧ vset c v i value d = .error (.raised .indexOutOfRange)) ∨
    (i < v.n ∧ 2 ^ v.k ≤ value ∧ c.dbg = true ∧ vset c v i value d = .error (.raised .valueOverflow)) ∨
    (i < v.n ∧ value < 2 ^ v.k ∧ ∃ v', vset c v i value d = .ok (v', d) ∧
      Rewritten c v v' (fieldBits c.W v (i * v.k) v.k value)) ∨
    (i < v.n ∧ 2 ^ v.k ≤ value ∧ c.dbg = false ∧ ∃ v', vset c v i value d = .ok (v', d + 1) ∧
      Rewritten c v v' (fieldBits c.W v (i * v.k) v.k (freeBits d v.k))) := by
  unfold vset
  rcases Nat.lt_or_ge i v.n with hi | hi
  · rw [if_neg (by omega)]
    rcases Nat.lt_or_ge value (2 ^ v.k) with hv | hv
    · rw [if_pos hv]
      obtain ⟨v', e, r⟩ := writeElement_eq h hi hv
      exact .inr (.inr (.inl ⟨hi, hv, v', by rw [e]; rfl, r⟩))
    · rw [if_neg (by omega)]
      cases hd : c.dbg
      · obtain ⟨v', e, r⟩ := writeElement_eq h hi (value := freeBits d v.k)
          (Nat.mod_lt _ (Nat.two_pow_pos _))
        exact .inr (.inr (.inr ⟨hi, hv, rfl, v', by rw [if_neg (by simp), e]; rfl, r⟩))
      · exact .inr (.inl ⟨hi, hv, rfl, if_pos rfl⟩)
  · rw [if_pos hi]; exact .inl ⟨hi, rfl⟩

/-! ## Elements after a rewriting (41 R124) -/

/-- The rewritten element reads the value. -/
theorem Rewritten.element_same {value : Nat}
    (r : Rewritten c v v' (fieldBits c.W v (i * v.k) v.k value)) :
    v'.element c.W i = value % 2 ^ v.k := by
  unfold Vec.element
  rw [r.k]
  refine Memory.field_eq_value fun q hq => ?_
  rw [r.bits, fieldBits, if_pos (by omega)]
  congr 3; omega

/-- Every other element reads as before. -/
theorem Rewritten.element_other {value j : Nat}
    (r : Rewritten c v v' (fieldBits c.W v (i * v.k) v.k value)) (hj : j ≠ i) :
    v'.element c.W j = v.element c.W j := by
  unfold Vec.element
  rw [r.k]
  refine Memory.field_congr fun q hq => ?_
  rw [r.bits, fieldBits, if_neg]
  rintro ⟨h1, h2⟩
  rcases Nat.lt_or_gt_of_ne hj with hlt | hlt
  · have := Nat.mul_le_mul_right v.k hlt
    rw [Nat.succ_eq_add_one, Nat.add_mul, Nat.one_mul] at this; omega
  · have := Nat.mul_le_mul_right v.k hlt
    rw [Nat.succ_eq_add_one, Nat.add_mul, Nat.one_mul] at this; omega

theorem Vec.element_lt (W : Nat) (v : Vec) (i : Nat) : v.element W i < 2 ^ v.k := Memory.field_lt _ _ _ _

/-! ## The unchecked writes (93 U2) -/

/-- `scramblePadding` leaves every element bit as it was. -/
theorem scramblePadding_eq (h : v.wf c) (hp : v.bitLength < v.mem.count * c.W) (d : Nat) :
    ∃ v', scramblePadding c.W v d = .ok v' ∧
      Rewritten c v v' (fieldBits c.W v v.bitLength (v.padding c.W) (freeBits d (v.padding c.W))) := by
  have hW := width_pos c
  have hm := h.2.2.2.2.2.2
  have hcount := h.2.2.2.1
  have hpos : 0 < v.mem.count := by
    rcases Nat.eq_zero_or_pos v.mem.count with e | e
    · rw [e] at hp; omega
    · exact e
  have hlast : (v.mem.count - 1) * c.W < v.n * v.k := by
    apply (lt_cdiv_iff hW).1; omega
  have hsplit : v.mem.count * c.W = (v.mem.count - 1) * c.W + c.W := by
    rw [← Nat.succ_mul]; congr 1; omega
  have hpad : v.padding c.W = v.mem.count * c.W - v.n * v.k := rfl
  have hbl : v.bitLength = v.n * v.k := rfl
  have hq := index_of_lt (W := c.W) (start := (v.mem.count - 1) * c.W)
    (q := v.n * v.k - (v.mem.count - 1) * c.W) hW (by rw [Nat.mul_mod_left]; omega)
  rw [show (v.mem.count - 1) * c.W + (v.n * v.k - (v.mem.count - 1) * c.W) = v.bitLength by omega,
    Nat.mul_div_cancel _ hW, Nat.mul_mod_left] at hq
  have hoff : v.bitLength % c.W = c.W - v.padding c.W := by omega
  have r := putField_rewritten hm (start := v.bitLength) (len := v.padding c.W)
    (value := freeBits d (v.padding c.W)) (by omega) (by omega)
  unfold putField at r
  simp only [hq.1, hoff] at r
  refine ⟨_, ?_, r⟩
  unfold scramblePadding
  dsimp only
  rw [Memory.read_of_lt (by omega), Run.ok_bind, Memory.write_of_lt (by omega)]
  rfl

theorem foldl_put_wf {W : Nat} (l : List (Nat × Nat)) (m : Memory) (hl : ∀ a ∈ l, a.1 < m.count)
    (h : m.wf W) :
    (l.foldl (fun m a => m.put a.1 (a.2 % 2 ^ W)) m).wf W ∧
      (l.foldl (fun m a => m.put a.1 (a.2 % 2 ^ W)) m).count = m.count := by
  induction l generalizing m with
  | nil => exact ⟨h, rfl⟩
  | cons a l ih =>
    have hp := Memory.put_wf h (hl a List.mem_cons_self) (Nat.mod_lt a.2 (Nat.two_pow_pos W))
    exact ih _ (fun b hb => hl b (List.mem_cons_of_mem _ hb)) hp

theorem foldl_put_count {W : Nat} (l : List (Nat × Nat)) (m : Memory) :
    (l.foldl (fun m a => m.put a.1 (a.2 % 2 ^ W)) m).count = m.count := by
  induction l generalizing m with
  | nil => rfl
  | cons a l ih => exact ih _

/-- `scrambleWords` keeps the shape and the canonical form. -/
theorem scrambleWords_wf (h : v.wf c) (d : Nat) : (scrambleWords c.W v d).wf c := by
  have hf := foldl_put_wf (W := c.W)
    ((Config.freeCells d).filter (fun a => decide (a.1 < v.mem.count))) (Memory.zeros v.mem.count)
    (fun a ha => by simpa using (List.mem_filter.1 ha).2) (Memory.zeros_wf _ _)
  obtain ⟨h1, h2, h3, h4, h5, h6, _⟩ := h
  refine ⟨h1, h2, h3, ?_, ?_, ?_, hf.1⟩ <;> (unfold scrambleWords; rw [hf.2]; assumption)

end Sys2Proof.Machine
end

