-- ==== Sys2Proof/Laws/Rank.lean ====
section
/-! SUPPORT. What the rank unit can do: the counts of a source, the scan, the build, the sum of RANK
(43 R157 to R168). -/

namespace Sys2Proof.Machine

/-! ## Counts of set bits -/

/-- One more bit on the less significant side adds its value to the population count. -/
theorem countOnes_double_add {W j x b : Nat} (hx : x < 2 ^ j) (hj : j < W) (hb : b < 2) :
    countOnes W (2 * x + b) = countOnes W x + b := by
  obtain ⟨V, rfl⟩ : ∃ V, W = V + 1 := ⟨W - 1, by omega⟩
  rw [countOnes_succ_low, show (2 * x + b) % 2 = b by omega, show (2 * x + b) / 2 = x by omega,
    countOnes_of_lt hx (show j ≤ V by omega), countOnes_of_lt hx (show j ≤ V + 1 by omega)]
  omega

/-- The set bits below a position inside word w: those of the earlier words, and the word-internal count
(43 R166). -/
theorem onesBelow_in_word {W : Nat} (hW : 0 < W) (m : Memory) (w j : Nat) (hj : j ≤ W) :
    m.onesBelow W (w * W + j) = m.onesBelow W (w * W) + countOnes W (getBits W (m.word w) 0 j) := by
  induction j with
  | zero => rw [getBits_len_zero, countOnes_of_lt (L := 0) (by simp) (by omega)]; rfl
  | succ j ih =>
    have h1 : (w * W + j) / W = w := by
      rw [Nat.mul_comm, Nat.mul_add_div hW, Nat.div_eq_of_lt (by omega), Nat.add_zero]
    have h2 : (w * W + j) % W = j := by
      rw [Nat.mul_comm, Nat.mul_add_mod, Nat.mod_eq_of_lt (by omega)]
    rw [← Nat.add_assoc, Memory.onesBelow, ih (by omega), getBits_succ (by omega),
      countOnes_double_add (getBits_lt _ _ _ _) (by omega) (getBit_lt_two _ _ _), Memory.flatBit,
      wordIndex, bitOffset, h1, h2, Nat.zero_add, Nat.add_assoc]

/-- P(w) is the count of set bits below word w (43 R164). -/
theorem onesBeforeWord_eq {W : Nat} (hW : 0 < W) (m : Memory) (w : Nat) :
    m.onesBeforeWord W w = m.onesBelow W (w * W) := by
  induction w with
  | zero => rw [Nat.zero_mul]; rfl
  | succ w ih =>
    rw [Memory.onesBeforeWord, ih, Nat.succ_mul, onesBelow_in_word hW m w W le_rfl]
    unfold getBits
    rw [Nat.sub_zero, Nat.sub_self, pow_zero, Nat.div_one, countOnes_mod le_rfl]

theorem onesBeforeWord_mono {W : Nat} (m : Memory) {a b : Nat} (h : a ≤ b) :
    m.onesBeforeWord W a ≤ m.onesBeforeWord W b := by
  induction b with
  | zero => rw [Nat.le_zero.1 h]
  | succ b ih =>
    rcases Nat.lt_or_ge a (b + 1) with h1 | h1
    · exact le_trans (ih (by omega)) (Nat.le_add_right _ _)
    · rw [show a = b + 1 by omega]

theorem onesBeforeWord_sub_le {W : Nat} (m : Memory) (a d : Nat) :
    m.onesBeforeWord W (a + d) - m.onesBeforeWord W a ≤ d * W := by
  induction d with
  | zero => simp
  | succ d ih =>
    have h1 := countOnes_le W (m.word (a + d))
    have h2 := onesBeforeWord_mono (W := W) m (Nat.le_add_right a d)
    rw [← Nat.add_assoc, Memory.onesBeforeWord, Nat.succ_mul]
    omega

theorem onesBeforeWord_le {W : Nat} (m : Memory) (w : Nat) : m.onesBeforeWord W w ≤ w * W := by
  have := onesBeforeWord_sub_le (W := W) m 0 w
  simpa [Memory.onesBeforeWord] using this

/-- The occurrences of a value below a position grow with the position (44 R186). -/
theorem occurrencesBelow_mono {α : Type} [DecidableEq α] (seq : Nat → α) (value : α) {a b : Nat} (h : a ≤ b) :
    occurrencesBelow seq value a ≤ occurrencesBelow seq value b := by
  induction h with
  | refl => exact le_rfl
  | step _ ih => exact le_trans ih (Nat.le_add_right _ _)

/-- The occurrences of 1 and of 0 among the flat bits are the set and the clear bits (44 R186). -/
theorem occurrencesBelow_flatBit (W : Nat) (m : Memory) (p : Nat) :
    occurrencesBelow (m.flatBit W) 1 p = m.onesBelow W p ∧ occurrencesBelow (m.flatBit W) 0 p = m.clearBelow W p := by
  induction p with
  | zero => exact ⟨rfl, rfl⟩
  | succ p ih =>
    have hb : m.flatBit W p < 2 := getBit_lt_two _ _ _
    rw [occurrencesBelow, occurrencesBelow, Memory.onesBelow, Memory.clearBelow, ih.1, ih.2]
    rcases (by omega : m.flatBit W p = 0 ∨ m.flatBit W p = 1) with h | h <;> rw [h] <;> exact ⟨rfl, rfl⟩

/-! ## The formulas (43 R157 to R161) -/

theorem smallPerLarge_pos (W n : Nat) : 0 < smallPerLarge W n := by
  unfold smallPerLarge; split <;> omega

theorem width_le_largeBlockSize (W n : Nat) : W ≤ largeBlockSize W n :=
  Nat.le_mul_of_pos_right W (smallPerLarge_pos W n)

theorem three_le_smallWidth (c : Config) (n : Nat) : 3 ≤ smallWidth c.W n := by
  by_contra h
  have h1 : largeBlockSize c.W n ≤ 2 ^ 2 := clog2_le_iff.1 (by unfold smallWidth at h; omega)
  have h2 := width_le_largeBlockSize c.W n
  have h3 := eight_le_width c
  omega

theorem cdiv_le_self {a b : Nat} (hb : 0 < b) : cdiv a b ≤ a :=
  (cdiv_le_iff hb).2 (Nat.le_mul_of_pos_right a hb)

/-- The number of boundaries met before word w (43 R162), one step on. -/
theorem cdiv_succ {w spl : Nat} (hs : 0 < spl) :
    cdiv (w + 1) spl = w / spl + 1 ∧ (w % spl = 0 → cdiv w spl = w / spl) ∧
      (w % spl ≠ 0 → cdiv w spl = w / spl + 1) := by
  have hd := Nat.div_add_mod w spl
  have hm := Nat.mod_lt w hs
  have e1 : w / spl * spl = spl * (w / spl) := Nat.mul_comm _ _
  have e2 : (w / spl + 1) * spl = spl * (w / spl) + spl := by ring
  refine ⟨?_, fun h => ?_, fun h => ?_⟩ <;> apply Nat.le_antisymm
  · exact (cdiv_le_iff hs).2 (by omega)
  · exact (lt_cdiv_iff hs).2 (by omega)
  · exact (cdiv_le_iff hs).2 (by omega)
  · rcases Nat.eq_zero_or_pos (w / spl) with h0 | h0
    · omega
    · have hpos := Nat.mul_pos h0 hs
      have : w / spl - 1 < cdiv w spl := (lt_cdiv_iff hs).2 (by rw [Nat.sub_mul, Nat.one_mul]; omega)
      omega
  · exact (cdiv_le_iff hs).2 (by omega)
  · exact (lt_cdiv_iff hs).2 (by omega)

theorem pred_div_eq {w spl : Nat} (hs : 0 < spl) (h : w % spl ≠ 0) : (w - 1) / spl = w / spl := by
  have hd := Nat.div_add_mod w spl
  have hm := Nat.mod_lt w hs
  have e : w - 1 = spl * (w / spl) + (w % spl - 1) := by omega
  rw [e, Nat.mul_add_div hs, Nat.div_eq_of_lt (lt_of_le_of_lt (Nat.sub_le _ _) hm), Nat.add_zero]

/-! ## The scan (43 R162) -/

/-- Some entry of the scan does not fit its slot (43 R169). -/
def ScanOverflows (c : Config) (src : Source) (spl lw sw : Nat) : Prop :=
  (∃ j, j * spl < src.mem.count ∧ 2 ^ lw ≤ src.mem.onesBeforeWord c.W (j * spl)) ∨
    ∃ x, x < src.mem.count ∧ 2 ^ sw ≤ smallEntry c.W src.mem spl x

/-- What holds before word w of the scan: the counters, every entry written so far that fits its slot
holds its value, with DBG = 1 all of them fit, and no free value was used where none can be. -/
structure ScanOk (c : Config) (src : Source) (spl lw sw d0 w : Nat) (t : Scan) : Prop where
  lrWf : t.lr.wf c
  srWf : t.sr.wf c
  lrK : t.lr.k = lw
  srK : t.sr.k = sw
  lrN : t.lr.n = cdiv src.mem.count spl + 1
  srN : t.sr.n = src.mem.count + 1
  cur : t.cur = src.mem.onesBeforeWord c.W w
  last : t.last = src.mem.onesBeforeWord c.W ((w - 1) / spl * spl)
  li : t.li = cdiv w spl
  large : ∀ j, j * spl < w → src.mem.onesBeforeWord c.W (j * spl) < 2 ^ lw →
    t.lr.element c.W j = src.mem.onesBeforeWord c.W (j * spl)
  small : ∀ x, x < w → smallEntry c.W src.mem spl x < 2 ^ sw →
    t.sr.element c.W x = smallEntry c.W src.mem spl x
  fits : c.dbg = true → (∀ j, j * spl < w → src.mem.onesBeforeWord c.W (j * spl) < 2 ^ lw) ∧
    ∀ x, x < w → smallEntry c.W src.mem spl x < 2 ^ sw
  draws : c.dbg = true ∨ ¬ ScanOverflows c src spl lw sw → t.draws = d0

/-- Where one table entry is written: the write itself, in one of its three outcomes (41 R119). -/
theorem vset_entry {c : Config} {v : Vec} {i value d : Nat} (h : v.wf c) (hi : i < v.n) :
    (2 ^ v.k ≤ value ∧ c.dbg = true ∧ vset c v i value d = .error (.raised .valueOverflow)) ∨
    ∃ v' d', vset c v i value d = .ok (v', d') ∧ v'.wf c ∧ v'.k = v.k ∧ v'.n = v.n ∧
      (c.dbg = true → value < 2 ^ v.k) ∧ (c.dbg = true ∨ value < 2 ^ v.k → d' = d) ∧ (value < 2 ^ v.k → v'.element c.W i = value) ∧
      ∀ j, j ≠ i → v'.element c.W j = v.element c.W j := by
  rcases vset_cases h i value d with ⟨h1, -⟩ | ⟨-, h1, h2, h3⟩ | ⟨-, h1, v', h2, r⟩ | ⟨-, h1, h2, v', h3, r⟩
  · omega
  · exact .inl ⟨h1, h2, h3⟩
  · refine .inr ⟨v', d, h2, r.vec_wf h, r.k, r.n, fun _ => h1, fun _ => rfl, fun hv => ?_,
      fun j hj => r.element_other hj⟩
    rw [r.element_same, Nat.mod_eq_of_lt hv]
  · refine .inr ⟨v', d + 1, h3, r.vec_wf h, r.k, r.n, fun hd => ?_, fun hd => ?_, fun hv => ?_,
      fun j hj => r.element_other hj⟩
    · rw [h2] at hd; cases hd
    · rcases hd with hd | hd
      · rw [h2] at hd; cases hd
      · omega
    · omega

/-- One word of the scan keeps `ScanOk`, or meets an entry that does not fit with DBG = 1. -/
theorem Scan.word_cases {c : Config} {src : Source} {spl lw sw d0 w : Nat} {t : Scan} (hs : 0 < spl)
    (ht : ScanOk c src spl lw sw d0 w t) (hw : w < src.mem.count) :
    (c.dbg = true ∧ ScanOverflows c src spl lw sw ∧
      t.word c src spl w = .error (.raised .valueOverflow)) ∨
    ∃ t', t.word c src spl w = .ok t' ∧ ScanOk c src spl lw sw d0 (w + 1) t' := by
  obtain ⟨hc1, hc2, hc3⟩ := cdiv_succ (w := w) hs
  have hmul : w % spl = 0 → w / spl * spl = w := fun h => by
    have := Nat.div_add_mod w spl; rw [Nat.mul_comm]; omega
  -- the boundary action
  have hb : (c.dbg = true ∧ ScanOverflows c src spl lw sw ∧
        t.boundary c spl w = .error (.raised .valueOverflow)) ∨
      ∃ t1, t.boundary c spl w = .ok t1 ∧ t1.sr = t.sr ∧ t1.cur = t.cur ∧
        t1.last = src.mem.onesBeforeWord c.W (w / spl * spl) ∧ t1.li = cdiv (w + 1) spl ∧
        t1.lr.wf c ∧ t1.lr.k = lw ∧ t1.lr.n = cdiv src.mem.count spl + 1 ∧
        (c.dbg = true ∨ ¬ ScanOverflows c src spl lw sw → t1.draws = d0) ∧
        (c.dbg = true → ∀ j, j * spl < w + 1 → src.mem.onesBeforeWord c.W (j * spl) < 2 ^ lw) ∧
        ∀ j, j * spl < w + 1 → src.mem.onesBeforeWord c.W (j * spl) < 2 ^ lw →
          t1.lr.element c.W j = src.mem.onesBeforeWord c.W (j * spl) := by
    unfold Scan.boundary
    by_cases h0 : w % spl = 0
    · rw [if_pos h0]
      have hli : t.li = w / spl := by rw [ht.li, hc2 h0]
      have hin : t.li < t.lr.n := by
        rw [hli, ht.lrN]
        have := (lt_cdiv_iff (a := src.mem.count) (q := w / spl) hs).2 (by rw [hmul h0]; exact hw)
        omega
      rcases vset_entry (value := t.cur) (d := t.draws) ht.lrWf hin with
        ⟨h1, h2, h3⟩ | ⟨v', d', h1, h2, h3, h4, h5, h5', h6, h7⟩
      · refine .inl ⟨h2, .inl ⟨w / spl, by rw [hmul h0]; exact hw, ?_⟩, by rw [h3]; rfl⟩
        rw [hmul h0, ← ht.cur, ← ht.lrK]; exact h1
      · refine .inr ⟨{ t with lr := v', li := t.li + 1, last := t.cur, draws := d' }, by rw [h1]; rfl, rfl,
          rfl, ?_,
          ?_, h2, by rw [h3, ht.lrK], by rw [h4, ht.lrN], fun hd => ?_, fun hd j hj => ?_,
          fun j hj hfit => ?_⟩
        · show t.cur = _; rw [hmul h0, ht.cur]
        · show t.li + 1 = _; rw [hli, hc1]
        · refine (h5' (hd.imp_right fun hn => ?_)).trans (ht.draws hd)
          rw [ht.cur, ht.lrK]
          by_contra hv
          exact hn (.inl ⟨w / spl, by rw [hmul h0]; exact hw, by rw [hmul h0]; omega⟩)
        · by_cases hjw : j * spl = w
          · have := h5 hd; rw [ht.cur, ht.lrK] at this; rw [hjw]; exact this
          · exact (ht.fits hd).1 j (by omega)
        · show v'.element c.W j = _
          by_cases hjw : j * spl = w
          · have hji : j = t.li := by
              rw [hli, ← hjw, Nat.mul_div_cancel _ hs]
            rw [hjw] at hfit ⊢
            rw [hji, h6 (by rw [ht.cur, ht.lrK]; exact hfit), ht.cur]
          · have hji : j ≠ t.li := by
              rintro rfl; apply hjw; rw [hli]; exact hmul h0
            rw [h7 j hji]; exact ht.large j (by omega) hfit
    · rw [if_neg h0]
      have hbelow : ∀ j, j * spl < w + 1 → j * spl < w := fun j hj => by
        rcases Nat.lt_or_ge (j * spl) w with h | h
        · exact h
        · exact absurd (show w % spl = 0 by rw [show w = j * spl by omega, Nat.mul_mod_left]) h0
      refine .inr ⟨t, rfl, rfl, rfl, ?_, ?_, ht.lrWf, ht.lrK, ht.lrN, ht.draws,
        fun hd j hj => (ht.fits hd).1 j (hbelow j hj), fun j hj hfit => ht.large j (hbelow j hj) hfit⟩
      · rw [ht.last, pred_div_eq hs h0]
      · rw [ht.li, hc3 h0, hc1]
  unfold Scan.word
  rcases hb with ⟨h1, h2, h3⟩ | ⟨t1, h1, hsr, hcur, hlast, hli, hlwf, hlk, hln, hdr, hlfits, hlarge⟩
  · exact .inl ⟨h1, h2, by rw [h3]; rfl⟩
  · rw [h1, Run.ok_bind]
    have hin : w < t1.sr.n := by rw [hsr, ht.srN]; omega
    have hwf : t1.sr.wf c := by rw [hsr]; exact ht.srWf
    have hval : t1.cur - t1.last = smallEntry c.W src.mem spl w := by rw [hcur, hlast, ht.cur]; rfl
    rcases vset_entry (value := t1.cur - t1.last) (d := t1.draws) hwf hin with
      ⟨g1, g2, g3⟩ | ⟨v', d', g1, g2, g3, g4, g5, g5', g6, g7⟩
    · refine .inl ⟨g2, .inr ⟨w, hw, ?_⟩, by rw [g3]; rfl⟩
      rw [hval, hsr, ht.srK] at g1; exact g1
    · refine .inr ⟨_, by rw [g1, Run.ok_bind]; dsimp only; rw [Memory.read_of_lt hw, Run.ok_bind]; rfl, ?_⟩
      refine ⟨hlwf, g2, hlk, by rw [g3, hsr, ht.srK], hln, by rw [g4, hsr, ht.srN], ?_, ?_, hli, hlarge,
        fun x hx hfit => ?_, fun hd => ⟨hlfits hd, fun x hx => ?_⟩,
        fun hd => (g5' (hd.imp_right fun hn => ?_)).trans (hdr hd)⟩
      · show t1.cur + _ = _; rw [hcur, ht.cur]; rfl
      · show t1.last = _; rw [hlast, Nat.add_sub_cancel]
      · show v'.element c.W x = _
        by_cases hxw : x = w
        · rw [hxw] at hfit ⊢
          rw [g6 (by rw [hval, hsr, ht.srK]; exact hfit), hval]
        · rw [g7 x hxw, hsr]; exact ht.small x (by omega) hfit
      · by_cases hxw : x = w
        · have := g5 hd; rw [hval, hsr, ht.srK] at this; rw [hxw]; exact this
        · exact (ht.fits hd).2 x (by omega)
      · rw [hval, hsr, ht.srK]
        by_contra hv
        exact hn (.inr ⟨w, hw, by omega⟩)

/-- The whole scan (43 R162). -/
theorem Scan.words_cases {c : Config} {src : Source} {spl lw sw d0 : Nat} (hs : 0 < spl) :
    ∀ (r w : Nat) (t : Scan), ScanOk c src spl lw sw d0 w t → w + r = src.mem.count →
    (c.dbg = true ∧ ScanOverflows c src spl lw sw ∧
      Scan.words c src spl r w t = .error (.raised .valueOverflow)) ∨
    ∃ t', Scan.words c src spl r w t = .ok t' ∧ ScanOk c src spl lw sw d0 src.mem.count t'
  | 0, w, t, ht, hw => .inr ⟨t, rfl, by rw [← hw]; exact ht⟩
  | r + 1, w, t, ht, hw => by
    rw [Scan.words]
    rcases Scan.word_cases hs ht (by omega) with ⟨h1, h2, h3⟩ | ⟨t', h1, h2⟩
    · exact .inl ⟨h1, h2, by rw [h3]; rfl⟩
    · rw [h1, Run.ok_bind]
      exact Scan.words_cases hs r (w + 1) t' h2 (by omega)

/-! ## BUILD (43 R156) -/

/-- What a built index holds: its shape, and every entry that fits its slot holds its value
(43 R160, R161, R164). -/
structure BuiltFrom (c : Config) (sel : SourceSel) (src : Source) (ri : RankIndex) : Prop where
  valid : ri.valid = true
  sel : ri.src = sel
  wf : ri.wf c
  len : ri.builtLen = src.bitLen
  srN : ri.sr.n = src.mem.count + 1
  large : ∀ j, j * smallPerLarge c.W src.bitLen < src.mem.count →
    src.mem.onesBeforeWord c.W (j * smallPerLarge c.W src.bitLen) < 2 ^ lgN src.bitLen →
    ri.lr.element c.W j = src.mem.onesBeforeWord c.W (j * smallPerLarge c.W src.bitLen)
  small : ∀ x, x < src.mem.count →
    smallEntry c.W src.mem (smallPerLarge c.W src.bitLen) x < 2 ^ smallWidth c.W src.bitLen →
    ri.sr.element c.W x = smallEntry c.W src.mem (smallPerLarge c.W src.bitLen) x
  largeSentinel : src.mem.onesBeforeWord c.W src.mem.count < 2 ^ lgN src.bitLen →
    ri.lr.element c.W (largeBlocks c.W src.bitLen src.mem.count) = src.mem.onesBeforeWord c.W src.mem.count
  smallSentinel : smallTotal c.W src.mem (smallPerLarge c.W src.bitLen) < 2 ^ smallWidth c.W src.bitLen →
    ri.sr.element c.W src.mem.count = smallTotal c.W src.mem (smallPerLarge c.W src.bitLen)

/-- The entries of the scan fit their slots exactly when none overflows. -/
theorem entriesFit_iff {c : Config} {src : Source} : entriesFit c.W src ↔
    ¬ ScanOverflows c src (smallPerLarge c.W src.bitLen) (lgN src.bitLen) (smallWidth c.W src.bitLen) ∧
      ¬ sentinelOverflows c.W src := by
  have hs := smallPerLarge_pos c.W src.bitLen
  constructor
  · rintro ⟨h1, h2, h3⟩
    refine ⟨?_, h3⟩
    rintro (⟨j, hj, hv⟩ | ⟨x, hx, hv⟩)
    · have := h1 j ((lt_cdiv_iff hs).2 hj); omega
    · have := h2 x hx; omega
  · rintro ⟨h1, h3⟩
    refine ⟨fun j hj => ?_, fun x hx => ?_, h3⟩
    · by_contra hv; exact h1 (.inl ⟨j, (lt_cdiv_iff hs).1 hj, not_lt.1 hv⟩)
    · by_contra hv; exact h1 (.inr ⟨x, hx, not_lt.1 hv⟩)

/-- Everything a build can do (43 R156): the first construction error of a table, ValueOverflow exactly when an
entry does not fit with DBG = 1, or an index with the tables filled. No free value is used when DBG = 1 or every
entry fits. -/
theorem buildIndex_cases {c : Config} {src : Source} (sel : SourceSel) (d : Nat)
    (hlen : src.bitLen < 2 ^ 64) :
    (∃ code : StatusCode, code.cls = .construction ∧ tableFailure c src = some code ∧
      buildIndex c sel src d = .error (.raised code)) ∨
    (tableFailure c src = none ∧ c.dbg = true ∧ ¬ entriesFit c.W src ∧
      buildIndex c sel src d = .error (.raised .valueOverflow)) ∨
    ∃ ri d', buildIndex c sel src d = .ok (ri, d') ∧ BuiltFrom c sel src ri ∧
      tableFailure c src = none ∧ (c.dbg = true → entriesFit c.W src) ∧
      (c.dbg = true ∨ entriesFit c.W src → d' = d) := by
  have hs := smallPerLarge_pos c.W src.bitLen
  unfold buildIndex tableFailure
  dsimp only
  rcases vnew_cases c (lgN src.bitLen) (largeBlocks c.W src.bitLen src.mem.count + 1) with
    ⟨a0, a2, a5⟩ | ⟨code, a1, a2, a3⟩
  swap
  · exact .inl ⟨code, a1, by rw [a2]; rfl, by rw [a3]; rfl⟩
  rcases vnew_cases c (smallWidth c.W src.bitLen) (src.mem.count + 1) with
    ⟨b0, b2, b5⟩ | ⟨code, b1, b2, b3⟩
  swap
  · exact .inl ⟨code, b1, by rw [a2, b2]; rfl, by rw [a5, b3]; rfl⟩
  rw [a2, b2]
  have hsw := three_le_smallWidth c src.bitLen
  have hn2 : src.mem.count + 1 < 2 ^ 64 :=
    lt_of_le_of_lt (Nat.le_mul_of_pos_right _ (by omega)) b0.2.1
  have hn1 : largeBlocks c.W src.bitLen src.mem.count + 1 < 2 ^ 64 := by
    have : largeBlocks c.W src.bitLen src.mem.count ≤ src.mem.count := cdiv_le_self hs
    omega
  rw [a5, Run.ok_bind, b5, Run.ok_bind]
  have h0 : ScanOk c src (smallPerLarge c.W src.bitLen) (lgN src.bitLen) (smallWidth c.W src.bitLen) d 0
      { lr := Vec.zeros c.W (lgN src.bitLen) (largeBlocks c.W src.bitLen src.mem.count + 1),
        sr := Vec.zeros c.W (smallWidth c.W src.bitLen) (src.mem.count + 1), cur := 0, last := 0, li := 0,
        draws := d } := by
    refine ⟨vnew_wf hn1 a5, vnew_wf hn2 b5, rfl, rfl, rfl, rfl, rfl, ?_, ?_, fun j hj => ?_, fun x hx => ?_,
      fun _ => ⟨fun j hj => ?_, fun x hx => ?_⟩, fun _ => rfl⟩
    · simp [Memory.onesBeforeWord]
    · exact (Nat.le_zero.1 ((cdiv_le_iff hs).2 (by simp))).symm
    all_goals omega
  rcases Scan.words_cases hs src.mem.count 0 _ h0 (by omega) with ⟨e1, e2, e3⟩ | ⟨t, e1, ht⟩
  · exact .inr (.inl ⟨rfl, e1, fun h => (entriesFit_iff.1 h).1 e2, by rw [e3]; rfl⟩)
  rw [e1, Run.ok_bind]
  unfold Scan.sentinels
  have hin : t.li < t.lr.n := by rw [ht.li, ht.lrN]; omega
  rcases vset_entry (value := t.cur) (d := t.draws) ht.lrWf hin with
    ⟨f1, f2, f3⟩ | ⟨lr', d1, f1, f2, f3, f4, f5, f5', f6, f7⟩
  · refine .inr (.inl ⟨rfl, f2, fun h => h.2.2 (.inl ?_), by rw [f3]; rfl⟩)
    rw [← ht.cur, ← ht.lrK]; exact f1
  rw [f1, Run.ok_bind]
  dsimp only
  have hin2 : src.mem.count < t.sr.n := by rw [ht.srN]; omega
  have hval : t.cur - t.last = smallTotal c.W src.mem (smallPerLarge c.W src.bitLen) := by
    rw [ht.cur, ht.last]; rfl
  rcases vset_entry (value := t.cur - t.last) (d := d1) ht.srWf hin2 with
    ⟨g1, g2, g3⟩ | ⟨sr', d2, g1, g2, g3, g4, g5, g5', g6, g7⟩
  · refine .inr (.inl ⟨rfl, g2, fun h => h.2.2 (.inr ?_), by rw [g3]; rfl⟩)
    rw [← hval, ← ht.srK]; exact g1
  rw [g1, Run.ok_bind]
  rw [ht.cur, ht.lrK] at f5 f5'
  rw [hval, ht.srK] at g5 g5'
  refine .inr (.inr ⟨_, _, rfl, ?_, rfl, fun hd => entriesFit_iff.2 ⟨?_, ?_⟩, fun hd => ?_⟩)
  · refine ⟨rfl, rfl, ⟨f2, g2, hlen, rfl, by rw [f3, ht.lrK], by rw [g3, ht.srK], ?_, ?_⟩, rfl, ?_,
      fun j hj hfit => ?_, fun x hx hfit => ?_, fun hfit => ?_, fun hfit => ?_⟩
    · show 1 ≤ sr'.n; rw [g4, ht.srN]; omega
    · show lr'.n = _; rw [f4, ht.lrN, show sr'.n - 1 = src.mem.count by rw [g4, ht.srN]; omega]; rfl
    · show sr'.n = _; rw [g4, ht.srN]
    · show lr'.element c.W j = _
      have hne : j ≠ t.li := by
        have := (lt_cdiv_iff hs).2 hj
        rw [ht.li]; omega
      rw [f7 j hne]; exact ht.large j hj hfit
    · show sr'.element c.W x = _
      rw [g7 x (by omega)]; exact ht.small x hx hfit
    · show lr'.element c.W (cdiv src.mem.count (smallPerLarge c.W src.bitLen)) = _
      rw [← ht.li, f6 (by rw [ht.cur, ht.lrK]; exact hfit), ht.cur]
    · show sr'.element c.W src.mem.count = _
      rw [g6 (by rw [hval, ht.srK]; exact hfit), hval]
  · rintro (⟨j, hj, hv⟩ | ⟨x, hx, hv⟩)
    · have := (ht.fits hd).1 j hj; omega
    · have := (ht.fits hd).2 x hx; omega
  · have := f5 hd
    have := g5 hd
    rintro (h | h) <;> omega
  · have hscan := hd.imp_right fun h => (entriesFit_iff.1 h).1
    have hsent := hd.imp_right fun h => (entriesFit_iff.1 h).2
    refine (g5' (hsent.imp_right fun h => ?_)).trans ((f5' (hsent.imp_right fun h => ?_)).trans (ht.draws hscan))
    · by_contra hv; exact h (.inr (not_lt.1 hv))
    · by_contra hv; exact h (.inl (not_lt.1 hv))

/-! ## Which entries fit (43 R169) -/

/-- For a well-formed source every entry of the scan fits its slot (43 R169). -/
theorem wellFormed_fits {c : Config} {src : Source} (h : src.wellFormed c.W) :
    ¬ ScanOverflows c src (smallPerLarge c.W src.bitLen) (lgN src.bitLen) (smallWidth c.W src.bitLen) := by
  have hW := width_pos c
  have hs := smallPerLarge_pos c.W src.bitLen
  rintro (⟨j, hj, hv⟩ | ⟨x, hx, hv⟩)
  · have h1 := onesBeforeWord_le (W := c.W) src.mem (j * smallPerLarge c.W src.bitLen)
    have h2 : j * smallPerLarge c.W src.bitLen * c.W < src.bitLen := by
      rw [h] at hj; exact (lt_cdiv_iff hW).1 hj
    have h3 := le_two_pow_clog2 src.bitLen
    unfold lgN at hv
    omega
  · have hd := Nat.div_add_mod x (smallPerLarge c.W src.bitLen)
    have hm := Nat.mod_lt x hs
    rw [Nat.mul_comm] at hd
    have h1 := onesBeforeWord_sub_le (W := c.W) src.mem
      (x / smallPerLarge c.W src.bitLen * smallPerLarge c.W src.bitLen) (x % smallPerLarge c.W src.bitLen)
    rw [hd] at h1
    have h2 : (x % smallPerLarge c.W src.bitLen + 1) * c.W ≤ smallPerLarge c.W src.bitLen * c.W :=
      Nat.mul_le_mul_right _ hm
    rw [Nat.add_mul, Nat.one_mul] at h2
    have h3 : largeBlockSize c.W src.bitLen ≤ 2 ^ smallWidth c.W src.bitLen := le_two_pow_clog2 _
    unfold largeBlockSize at h3
    rw [Nat.mul_comm] at h3
    unfold smallEntry at hv
    omega

/-! ## RANK (43 R165) -/

/-- The sum of RANK where the spec defines it: the two table entries and the word-internal count. -/
theorem rankSum_eq {c : Config} {ri : RankIndex} {src : Source} {p : Nat} (h : ri.wf c)
    (hd : rankDefined c.W ri src p) :
    rankSum c ri src p = .ok (ri.lr.element c.W (p / ri.lbs) + ri.sr.element c.W (wordIndex c.W p) +
      inWordCount c.W (src.mem.word (wordIndex c.W p)) (bitOffset c.W p)) := by
  obtain ⟨hlr, hsr, -, hlbs, -, -, h1, hn⟩ := h
  obtain ⟨-, -, hcount, hw⟩ := hd
  have hs := smallPerLarge_pos c.W ri.builtLen
  have hlb : p / ri.lbs < ri.lr.n := by
    rw [hn, show ri.sr.n - 1 = src.mem.count by omega, hlbs]
    unfold largeBlockSize largeBlocks
    rw [← Nat.div_div_eq_div_mul]
    have : p / c.W / smallPerLarge c.W ri.builtLen < cdiv src.mem.count (smallPerLarge c.W ri.builtLen) :=
      (lt_cdiv_iff hs).2 (lt_of_le_of_lt (Nat.div_mul_le_self _ _) hw)
    omega
  unfold rankSum
  rw [vget_eq hlr hlb, Run.ok_bind, vget_eq hsr (by omega), Run.ok_bind, Memory.read_of_lt hw, Run.ok_bind]
  rfl

/-- The correctness of a rank (43 R168): over an index built from a well-formed source, the sum is the
inclusive rank. -/
theorem rankSum_correct {c : Config} {sel : SourceSel} {ri : RankIndex} {src : Source} {p : Nat}
    (hb : BuiltFrom c sel src ri) (hsrc : src.wellFormed c.W) (hp : p < src.bitLen) :
    rankDefined c.W ri src p ∧ rankSum c ri src p = .ok (src.rank c.W p) := by
  have hW := width_pos c
  have hs := smallPerLarge_pos c.W src.bitLen
  have hword : wordIndex c.W p < src.mem.count := by
    rw [hsrc]; exact (lt_cdiv_iff hW).2 (lt_of_le_of_lt (Nat.div_mul_le_self _ _) hp)
  have hd : rankDefined c.W ri src p := ⟨by rw [hb.len]; exact hp, hb.len.symm, hb.srN.symm, hword⟩
  refine ⟨hd, ?_⟩
  rw [rankSum_eq hb.wf hd]
  congr 1
  have hfit := wellFormed_fits hsrc
  have hlb : p / ri.lbs = wordIndex c.W p / smallPerLarge c.W src.bitLen := by
    rw [hb.wf.2.2.2.1, hb.len]; unfold largeBlockSize wordIndex; rw [Nat.div_div_eq_div_mul]
  have hle : wordIndex c.W p / smallPerLarge c.W src.bitLen * smallPerLarge c.W src.bitLen ≤ wordIndex c.W p :=
    Nat.div_mul_le_self _ _
  rw [hlb, hb.large _ (by omega) (by
      by_contra hv; exact hfit (.inl ⟨_, by omega, not_lt.1 hv⟩)),
    hb.small _ hword (by by_contra hv; exact hfit (.inr ⟨_, hword, not_lt.1 hv⟩))]
  have hmono := onesBeforeWord_mono (W := c.W) src.mem hle
  have hbo := bitOffset_lt c p
  have hsplit : p + 1 = wordIndex c.W p * c.W + (bitOffset c.W p + 1) := by
    have := Nat.div_add_mod p c.W
    rw [Nat.mul_comm] at this
    unfold wordIndex bitOffset; omega
  unfold Source.rank smallEntry inWordCount
  rw [hsplit, onesBelow_in_word hW _ _ _ (by omega), ← onesBeforeWord_eq hW]
  omega

end Sys2Proof.Machine
end

