-- ==== Sys2Proof/Laws/State.lean ====
section
/-! SUPPORT. One lemma per field per update of the state. -/

namespace Sys2Proof.Machine

section Fields

variable (s : State) (c : StatusCode) (r : Option Nat) (v : Vec) (n : Nat)

/-! `answer` changes `out` alone. -/

@[simp] theorem State.answer_cfg : (s.answer c r).cfg = s.cfg := rfl
@[simp] theorem State.answer_cs : (s.answer c r).cs = s.cs := rfl
@[simp] theorem State.answer_pv : (s.answer c r).pv = s.pv := rfl
@[simp] theorem State.answer_it : (s.answer c r).it = s.it := rfl
@[simp] theorem State.answer_ri : (s.answer c r).ri = s.ri := rfl
@[simp] theorem State.answer_xs : (s.answer c r).xs = s.xs := rfl
@[simp] theorem State.answer_input : (s.answer c r).input = s.input := rfl
@[simp] theorem State.answer_draws : (s.answer c r).draws = s.draws := rfl
@[simp] theorem State.answer_out : (s.answer c r).out = (s.cs.response c r).pack :: s.out := rfl

/-! `respond` and `respondNone` are answers with code OK. -/

@[simp] theorem State.respond_cfg : (s.respond n).cfg = s.cfg := rfl
@[simp] theorem State.respond_cs : (s.respond n).cs = s.cs := rfl
@[simp] theorem State.respond_pv : (s.respond n).pv = s.pv := rfl
@[simp] theorem State.respond_it : (s.respond n).it = s.it := rfl
@[simp] theorem State.respond_ri : (s.respond n).ri = s.ri := rfl
@[simp] theorem State.respond_xs : (s.respond n).xs = s.xs := rfl
@[simp] theorem State.respond_input : (s.respond n).input = s.input := rfl
@[simp] theorem State.respond_draws : (s.respond n).draws = s.draws := rfl
@[simp] theorem State.respond_out : (s.respond n).out = (s.cs.response .ok (some n)).pack :: s.out := rfl
@[simp] theorem State.respondNone_cfg : (s.respondNone).cfg = s.cfg := rfl
@[simp] theorem State.respondNone_cs : (s.respondNone).cs = s.cs := rfl
@[simp] theorem State.respondNone_pv : (s.respondNone).pv = s.pv := rfl
@[simp] theorem State.respondNone_it : (s.respondNone).it = s.it := rfl
@[simp] theorem State.respondNone_ri : (s.respondNone).ri = s.ri := rfl
@[simp] theorem State.respondNone_xs : (s.respondNone).xs = s.xs := rfl
@[simp] theorem State.respondNone_input : (s.respondNone).input = s.input := rfl
@[simp] theorem State.respondNone_draws : (s.respondNone).draws = s.draws := rfl
@[simp] theorem State.respondNone_out : (s.respondNone).out = (s.cs.response .ok none).pack :: s.out := rfl

/-! `haltWith` changes `cs` alone. -/

@[simp] theorem State.haltWith_cfg : (s.haltWith c).cfg = s.cfg := rfl
@[simp] theorem State.haltWith_pv : (s.haltWith c).pv = s.pv := rfl
@[simp] theorem State.haltWith_it : (s.haltWith c).it = s.it := rfl
@[simp] theorem State.haltWith_ri : (s.haltWith c).ri = s.ri := rfl
@[simp] theorem State.haltWith_xs : (s.haltWith c).xs = s.xs := rfl
@[simp] theorem State.haltWith_input : (s.haltWith c).input = s.input := rfl
@[simp] theorem State.haltWith_draws : (s.haltWith c).draws = s.draws := rfl
@[simp] theorem State.haltWith_out : (s.haltWith c).out = s.out := rfl
@[simp] theorem State.haltWith_cs : (s.haltWith c).cs = { halt := true, hcause := c.number } := rfl

/-! `raise` changes `out`, and `cs` for an indexing fault. -/

@[simp] theorem State.raise_cfg : (s.raise c).cfg = s.cfg := by cases c <;> rfl
@[simp] theorem State.raise_pv : (s.raise c).pv = s.pv := by cases c <;> rfl
@[simp] theorem State.raise_it : (s.raise c).it = s.it := by cases c <;> rfl
@[simp] theorem State.raise_ri : (s.raise c).ri = s.ri := by cases c <;> rfl
@[simp] theorem State.raise_xs : (s.raise c).xs = s.xs := by cases c <;> rfl
@[simp] theorem State.raise_input : (s.raise c).input = s.input := by cases c <;> rfl
@[simp] theorem State.raise_draws : (s.raise c).draws = s.draws := by cases c <;> rfl
theorem State.raise_cs : (s.raise c).cs =
    if c.cls = .indexingFault then { halt := true, hcause := c.number } else s.cs := by cases c <;> rfl
theorem State.raise_out : (s.raise c).out = ((s.raise c).cs.response c none).pack :: s.out := by
  cases c <;> rfl

/-! `installVector` and `setVec`. -/

@[simp] theorem State.installVector_cfg : (s.installVector v).cfg = s.cfg := rfl
@[simp] theorem State.installVector_cs : (s.installVector v).cs = s.cs := rfl
@[simp] theorem State.installVector_xs : (s.installVector v).xs = s.xs := rfl
@[simp] theorem State.installVector_input : (s.installVector v).input = s.input := rfl
@[simp] theorem State.installVector_draws : (s.installVector v).draws = s.draws := rfl
@[simp] theorem State.installVector_out : (s.installVector v).out = s.out := rfl
@[simp] theorem State.installVector_pv : (s.installVector v).pv = { valid := true, vec := v } := rfl
@[simp] theorem State.installVector_it : (s.installVector v).it = { s.it with valid := false } := rfl
@[simp] theorem State.installVector_ri : (s.installVector v).ri =
    { s.ri with valid := s.ri.valid && decide (s.ri.src ≠ .pv) } := rfl
@[simp] theorem State.setVec_cfg : (s.setVec v).cfg = s.cfg := rfl
@[simp] theorem State.setVec_cs : (s.setVec v).cs = s.cs := rfl
@[simp] theorem State.setVec_it : (s.setVec v).it = s.it := rfl
@[simp] theorem State.setVec_ri : (s.setVec v).ri = s.ri := rfl
@[simp] theorem State.setVec_xs : (s.setVec v).xs = s.xs := rfl
@[simp] theorem State.setVec_input : (s.setVec v).input = s.input := rfl
@[simp] theorem State.setVec_draws : (s.setVec v).draws = s.draws := rfl
@[simp] theorem State.setVec_out : (s.setVec v).out = s.out := rfl
@[simp] theorem State.setVec_pv : (s.setVec v).pv = { s.pv with vec := v } := rfl

/-! `withoutIndex` changes `ri` and `draws`. -/

@[simp] theorem State.withoutIndex_cfg : (s.withoutIndex).cfg = s.cfg := rfl
@[simp] theorem State.withoutIndex_cs : (s.withoutIndex).cs = s.cs := rfl
@[simp] theorem State.withoutIndex_pv : (s.withoutIndex).pv = s.pv := rfl
@[simp] theorem State.withoutIndex_it : (s.withoutIndex).it = s.it := rfl
@[simp] theorem State.withoutIndex_xs : (s.withoutIndex).xs = s.xs := rfl
@[simp] theorem State.withoutIndex_input : (s.withoutIndex).input = s.input := rfl
@[simp] theorem State.withoutIndex_out : (s.withoutIndex).out = s.out := rfl
@[simp] theorem State.withoutIndex_draws : (s.withoutIndex).draws = s.draws + 1 := rfl
@[simp] theorem State.withoutIndex_ri_valid : (s.withoutIndex).ri.valid = false := rfl

/-! `resetInput` keeps the straps, the source and the host's own. -/

@[simp] theorem State.resetInput_cfg : (s.resetInput).cfg = s.cfg := rfl
@[simp] theorem State.resetInput_xs : (s.resetInput).xs = s.xs := rfl
@[simp] theorem State.resetInput_input : (s.resetInput).input = s.input := rfl
@[simp] theorem State.resetInput_out : (s.resetInput).out = s.out := rfl
@[simp] theorem State.resetInput_draws : (s.resetInput).draws = s.draws := rfl
@[simp] theorem State.resetInput_cs : (s.resetInput).cs = { halt := false, hcause := 0x00 } := rfl
@[simp] theorem State.resetInput_pv : (s.resetInput).pv = { valid := false, vec := emptyVec } := rfl
@[simp] theorem State.resetInput_it : (s.resetInput).it = { valid := false, front := 0, back := 0 } := rfl
@[simp] theorem State.resetInput_ri : (s.resetInput).ri = emptyIndex := rfl

end Fields

end Sys2Proof.Machine
end

