-- ==== Sys2Proof/Laws/Exec.lean ====
section
/-! SUPPORT. What each command can do: one lemma per command, over every state. A command that answers a next
state was refused by a check, and the state is `raise` of a code, or it ran, and the state is its own. -/

namespace Sys2Proof.Machine

variable {s t : State}

/-! ## Which codes the shared functions raise -/

theorem Memory.read_raised {m : Memory} {wi : Nat} {e : StatusCode} (h : m.read wi = .error (.raised e)) :
    False := by
  unfold Memory.read at h; split at h <;> cases h

theorem Memory.write_raised {m : Memory} {wi v : Nat} {e : StatusCode}
    (h : m.write wi v = .error (.raised e)) : False := by
  unfold Memory.write at h; split at h <;> cases h

/-- A computation with a first part raises what one of its parts raises. -/
theorem Run.bind_raised {α β : Type} {r : Run α} {f : α → Run β} {e : StatusCode}
    (h : (r >>= f) = .error (.raised e)) :
    r = .error (.raised e) ∨ ∃ a, r = .ok a ∧ f a = .error (.raised e) := by
  rcases r with d | a
  · cases h; exact .inl rfl
  · exact .inr ⟨a, rfl, h⟩

/-- A computation with a first part has a result when both parts have one. -/
theorem Run.bind_ok {α β : Type} {r : Run α} {f : α → Run β} {b : β} (h : (r >>= f) = .ok b) :
    ∃ a, r = .ok a ∧ f a = .ok b := by
  rcases r with d | a
  · cases h
  · exact ⟨a, rfl, h⟩

theorem vnew_raised {c : Config} {k n : Nat} {e : StatusCode} (h : vnew c k n = .error (.raised e)) :
    e.cls = .construction ∧ ¬ constructible c k n := by
  unfold vnew at h
  split at h
  · cases h; exact ⟨rfl, fun g => by have := g.1; omega⟩
  split at h
  · cases h; exact ⟨rfl, fun g => by have := g.2.1; omega⟩
  split at h
  · cases h; exact ⟨rfl, fun g => by have := g.2.2.1; omega⟩
  split at h
  · cases h; exact ⟨rfl, fun g => by have := g.2.2.2; omega⟩
  · cases h

theorem vnew_eq_ok {c : Config} {k n : Nat} (h : constructible c k n) : vnew c k n = .ok (Vec.zeros c.W k n) := by
  obtain ⟨h1, h2, h3, h4⟩ := h
  unfold vnew
  rw [if_neg (by omega), if_neg (by omega), if_neg (by omega), if_neg (by omega)]

theorem vnew_tooWide {c : Config} {k n : Nat} (h : c.W < k) : vnew c k n = .error (.raised .widthTooLarge) :=
  if_pos h

theorem vnew_not_tooWide {c : Config} {k n : Nat} {e : StatusCode} (hk : k ≤ c.W)
    (h : vnew c k n = .error (.raised e)) : e ≠ .widthTooLarge := by
  unfold vnew at h
  rw [if_neg (by omega)] at h
  rintro rfl
  split at h
  · cases h
  split at h
  · cases h
  split at h <;> cases h

theorem vgetbit_raised {W : Nat} {v : Vec} {pos : Nat} {e : StatusCode} :
    vgetbit W v pos ≠ .error (.raised e) := by
  intro h
  unfold vgetbit at h
  rcases Run.bind_raised h with h | ⟨_, _, h⟩
  · exact Memory.read_raised h
  · cases h

theorem vsetbit_raised {W : Nat} {v : Vec} {pos : Nat} {b : Bool} {e : StatusCode} :
    vsetbit W v pos b ≠ .error (.raised e) := by
  intro h
  unfold vsetbit at h
  rcases Run.bind_raised h with h | ⟨_, _, h⟩
  · exact Memory.read_raised h
  rcases Run.bind_raised h with h | ⟨_, _, h⟩
  · exact Memory.write_raised h
  · cases h

/-- `vget` raises IndexOutOfRange and nothing else (41 R117). -/
theorem vget_raised {c : Config} {v : Vec} {i : Nat} {e : StatusCode}
    (h : vget c v i = .error (.raised e)) : e = .indexOutOfRange ∧ v.n ≤ i := by
  unfold vget at h
  split at h
  · cases h; exact ⟨rfl, ‹_›⟩
  exfalso
  split at h
  · cases h
  split at h
  · exact Memory.read_raised h
  split at h
  · exact vgetbit_raised h
  split at h
  · rcases Run.bind_raised h with h | ⟨_, _, h⟩
    · exact Memory.read_raised h
    · cases h
  · rcases Run.bind_raised h with h | ⟨_, _, h⟩
    · exact Memory.read_raised h
    rcases Run.bind_raised h with h | ⟨_, _, h⟩
    · exact Memory.read_raised h
    · cases h

theorem writeElement_raised {c : Config} {v : Vec} {i value : Nat} {e : StatusCode} :
    writeElement c v i value ≠ .error (.raised e) := by
  intro h
  unfold writeElement at h
  split at h
  · cases h
  split at h
  · rcases Run.bind_raised h with h | ⟨_, _, h⟩
    · exact Memory.write_raised h
    · cases h
  split at h
  · exact vsetbit_raised h
  split at h
  · dsimp only at h
    rcases Run.bind_raised h with h | ⟨_, _, h⟩
    · exact Memory.read_raised h
    rcases Run.bind_raised h with h | ⟨_, _, h⟩
    · exact Memory.write_raised h
    · cases h
  · dsimp only at h
    rcases Run.bind_raised h with h | ⟨_, _, h⟩
    · exact Memory.read_raised h
    rcases Run.bind_raised h with h | ⟨_, _, h⟩
    · exact Memory.write_raised h
    rcases Run.bind_raised h with h | ⟨_, _, h⟩
    · exact Memory.read_raised h
    rcases Run.bind_raised h with h | ⟨_, _, h⟩
    · exact Memory.write_raised h
    · cases h

/-- `vset` raises IndexOutOfRange, or ValueOverflow with DBG = 1, and nothing else (41 R119). -/
theorem vset_raised {c : Config} {v : Vec} {i value d : Nat} {e : StatusCode}
    (h : vset c v i value d = .error (.raised e)) :
    (e = .indexOutOfRange ∧ v.n ≤ i) ∨ (e = .valueOverflow ∧ c.dbg = true ∧ 2 ^ v.k ≤ value) := by
  unfold vset at h
  split at h
  · cases h; exact .inl ⟨rfl, ‹_›⟩
  split at h
  · rcases Run.bind_raised h with h | ⟨_, _, h⟩
    · exact absurd h writeElement_raised
    · cases h
  split at h
  · cases h; exact .inr ⟨rfl, ‹_›, by omega⟩
  · rcases Run.bind_raised h with h | ⟨_, _, h⟩
    · exact absurd h writeElement_raised
    · cases h

/-- The writing part of `vset` changes the words alone. -/
theorem writeElement_frame {c : Config} {v v' : Vec} {i value : Nat} (h : writeElement c v i value = .ok v') :
    v'.k = v.k ∧ v'.n = v.n ∧ v'.mem.count = v.mem.count := by
  have hw : ∀ {m m' : Memory} {wi x : Nat}, m.write wi x = .ok m' → m'.count = m.count := by
    intro m m' wi x h
    unfold Memory.write at h
    split at h
    · cases h; rfl
    · cases h
  unfold writeElement at h
  split at h
  · cases h; exact ⟨rfl, rfl, rfl⟩
  split at h
  · obtain ⟨m, h1, h⟩ := Run.bind_ok h
    cases h; exact ⟨rfl, rfl, hw h1⟩
  split at h
  · unfold vsetbit at h
    obtain ⟨w, -, h⟩ := Run.bind_ok h
    obtain ⟨m, h1, h⟩ := Run.bind_ok h
    cases h; exact ⟨rfl, rfl, hw h1⟩
  split at h
  · dsimp only at h
    obtain ⟨w, -, h⟩ := Run.bind_ok h
    obtain ⟨m, h1, h⟩ := Run.bind_ok h
    cases h; exact ⟨rfl, rfl, hw h1⟩
  · dsimp only at h
    obtain ⟨w, -, h⟩ := Run.bind_ok h
    obtain ⟨m, h1, h⟩ := Run.bind_ok h
    obtain ⟨w', -, h⟩ := Run.bind_ok h
    obtain ⟨m', h2, h⟩ := Run.bind_ok h
    cases h; exact ⟨rfl, rfl, (hw h2).trans (hw h1)⟩

/-- What `vset` leaves when it has a result, over any vector: the same shape, and at most one free value. -/
theorem vset_frame {c : Config} {v v' : Vec} {i value d d' : Nat} (h : vset c v i value d = .ok (v', d')) :
    v'.k = v.k ∧ v'.n = v.n ∧ v'.mem.count = v.mem.count ∧
      (c.dbg = true ∨ value < 2 ^ v.k → d' = d) := by
  unfold vset at h
  split at h
  · cases h
  split at h
  · obtain ⟨w, h1, h⟩ := Run.bind_ok h
    cases h
    have := writeElement_frame h1
    exact ⟨this.1, this.2.1, this.2.2, fun _ => rfl⟩
  split at h
  · cases h
  · obtain ⟨w, h1, h⟩ := Run.bind_ok h
    cases h
    have := writeElement_frame h1
    exact ⟨this.1, this.2.1, this.2.2, fun g => by
      rcases g with g | g
      · exact absurd g ‹_›
      · exact absurd g ‹_›⟩

/-! ## The commands -/

/-! Each: Halted, or the codes of its checks in their order (60 R195), or its own effect. -/

theorem execNew_next {k n : U64} (h : exec (.new k n) s = .next t) :
    (s.cs.halt = true ∧ t = s.raise .halted) ∨
    (s.cs.halt = false ∧ ((∃ e : StatusCode, e.cls = .construction ∧ ¬ constructible s.cfg k.toNat n.toNat ∧
        t = s.raise e) ∨
      (constructible s.cfg k.toNat n.toNat ∧
        t = (s.installVector (Vec.zeros s.cfg.W k.toNat n.toNat)).respondNone))) := by
  rcases State.unlessHalted_next h with h | ⟨hh, h⟩
  · exact .inl h
  refine .inr ⟨hh, ?_⟩
  by_cases hc : constructible s.cfg k.toNat n.toNat
  · rw [vnew_eq_ok hc] at h
    cases h; exact .inr ⟨hc, rfl⟩
  · rcases State.finish_next h with h | ⟨e, h, ht⟩
    · obtain ⟨v, h1, -⟩ := Run.bind_ok h
      rcases vnew_cases s.cfg k.toNat n.toNat with ⟨a, -⟩ | ⟨e, -, -, h2⟩
      · exact absurd a hc
      · rw [h2] at h1; cases h1
    · rcases Run.bind_raised h with h | ⟨_, _, h⟩
      · exact .inl ⟨e, (vnew_raised h).1, hc, ht⟩
      · cases h

theorem execLen_next (h : exec .len s = .next t) :
    (s.cs.halt = true ∧ t = s.raise .halted) ∨
    (s.cs.halt = false ∧ ((s.pv.valid = false ∧ t = s.raise .notConstructed) ∨
      (s.pv.valid = true ∧ t = s.respond s.pv.vec.n))) := by
  rcases State.unlessHalted_next h with h | ⟨hh, h⟩
  · exact .inl h
  refine .inr ⟨hh, ?_⟩
  rcases State.ifConstructed_next h with h | ⟨hv, h⟩
  · exact .inl h
  · cases h; exact .inr ⟨hv, rfl⟩

theorem execIsempty_next (h : exec .isempty s = .next t) :
    (s.cs.halt = true ∧ t = s.raise .halted) ∨
    (s.cs.halt = false ∧ ((s.pv.valid = false ∧ t = s.raise .notConstructed) ∨
      (s.pv.valid = true ∧ t = s.respond (if s.pv.vec.n = 0 then 1 else 0)))) := by
  rcases State.unlessHalted_next h with h | ⟨hh, h⟩
  · exact .inl h
  refine .inr ⟨hh, ?_⟩
  rcases State.ifConstructed_next h with h | ⟨hv, h⟩
  · exact .inl h
  · cases h; exact .inr ⟨hv, rfl⟩

theorem execGet_next {i : U64} (h : exec (.get i) s = .next t) :
    (s.cs.halt = true ∧ t = s.raise .halted) ∨
    (s.cs.halt = false ∧ ((s.pv.valid = false ∧ t = s.raise .notConstructed) ∨
      (s.pv.valid = true ∧ s.pv.vec.n ≤ i.toNat ∧ t = s.raise .indexOutOfRange) ∨
      (s.pv.valid = true ∧ ∃ x, vget s.cfg s.pv.vec i.toNat = .ok x ∧ t = s.respond x))) := by
  rcases State.unlessHalted_next h with h | ⟨hh, h⟩
  · exact .inl h
  refine .inr ⟨hh, ?_⟩
  rcases State.ifConstructed_next h with h | ⟨hv, h⟩
  · exact .inl h
  rcases State.finish_next h with h | ⟨e, h, ht⟩
  · obtain ⟨x, h1, h2⟩ := Run.bind_ok h
    cases h2; exact .inr (.inr ⟨hv, x, h1, rfl⟩)
  · rcases Run.bind_raised h with h | ⟨_, _, h⟩
    · obtain ⟨rfl, hn⟩ := vget_raised h
      exact .inr (.inl ⟨hv, hn, ht⟩)
    · cases h

theorem execSet_next {i value : U64} (h : exec (.set i value) s = .next t) :
    (s.cs.halt = true ∧ t = s.raise .halted) ∨
    (s.cs.halt = false ∧ ((s.pv.valid = false ∧ t = s.raise .notConstructed) ∨
      (s.pv.valid = true ∧ s.pv.vec.n ≤ i.toNat ∧ t = s.raise .indexOutOfRange) ∨
      (s.pv.valid = true ∧ s.cfg.dbg = true ∧ 2 ^ s.pv.vec.k ≤ value.toNat ∧ t = s.raise .valueOverflow) ∨
      (s.pv.valid = true ∧ ∃ v d, vset s.cfg s.pv.vec i.toNat value.toNat s.draws = .ok (v, d) ∧
        t = ({ s.setVec v with draws := d }).respondNone))) := by
  rcases State.unlessHalted_next h with h | ⟨hh, h⟩
  · exact .inl h
  refine .inr ⟨hh, ?_⟩
  rcases State.ifConstructed_next h with h | ⟨hv, h⟩
  · exact .inl h
  rcases State.finish_next h with h | ⟨e, h, ht⟩
  · obtain ⟨⟨v, d⟩, h1, h2⟩ := Run.bind_ok h
    cases h2; exact .inr (.inr (.inr ⟨hv, v, d, h1, rfl⟩))
  · rcases Run.bind_raised h with h | ⟨_, _, h⟩
    · rcases vset_raised h with ⟨rfl, hn⟩ | ⟨rfl, hd, hk⟩
      · exact .inr (.inl ⟨hv, hn, ht⟩)
      · exact .inr (.inr (.inl ⟨hv, hd, hk, ht⟩))
    · cases h

theorem execGetbit_next {pos : U64} (h : exec (.getbit pos) s = .next t) :
    (s.cs.halt = true ∧ t = s.raise .halted) ∨
    (s.cs.halt = false ∧ ((s.pv.valid = false ∧ t = s.raise .notConstructed) ∨
      (s.pv.valid = true ∧ pos.toNat < s.pv.vec.bitLength ∧
        ∃ b, vgetbit s.cfg.W s.pv.vec pos.toNat = .ok b ∧ t = s.respond b) ∨
      (s.pv.valid = true ∧ s.pv.vec.bitLength ≤ pos.toNat ∧
        t = { s with draws := s.draws + 1 }.respond (freeBits s.draws 1)))) := by
  rcases State.unlessHalted_next h with h | ⟨hh, h⟩
  · exact .inl h
  refine .inr ⟨hh, ?_⟩
  rcases State.ifConstructed_next h with h | ⟨hv, h⟩
  · exact .inl h
  split at h
  · rcases State.finish_next h with h | ⟨e, h, -⟩
    · obtain ⟨x, h1, h2⟩ := Run.bind_ok h
      cases h2; exact .inr (.inl ⟨hv, ‹_›, x, h1, rfl⟩)
    · rcases Run.bind_raised h with h | ⟨_, _, h⟩
      · exact absurd h vgetbit_raised
      · cases h
  · cases h; exact .inr (.inr ⟨hv, by omega, rfl⟩)

/-- The words after a stray bit write are the only thing it changes besides the count of free values. -/
theorem State.strayBitWrite_frame {pos : Nat} (h : s.strayBitWrite pos = .ok t) :
    ∃ v : Vec, v.k = s.pv.vec.k ∧ v.n = s.pv.vec.n ∧ v.mem.count = s.pv.vec.mem.count ∧
      t = { s.setVec v with draws := s.draws + 1 } := by
  unfold State.strayBitWrite at h
  split at h
  · obtain ⟨v, h1, h⟩ := Run.bind_ok h
    cases h
    unfold scramblePadding at h1
    dsimp only at h1
    obtain ⟨w, -, h1⟩ := Run.bind_ok h1
    obtain ⟨m, h2, h1⟩ := Run.bind_ok h1
    cases h1
    refine ⟨{ s.pv.vec with mem := m }, rfl, rfl, ?_, rfl⟩
    unfold Memory.write at h2
    split at h2
    · cases h2; rfl
    · cases h2
  · cases h
    refine ⟨scrambleWords s.cfg.W s.pv.vec s.draws, rfl, rfl, ?_, rfl⟩
    exact (foldl_put_count _ _)

theorem State.strayBitWrite_raised {pos : Nat} {e : StatusCode} :
    s.strayBitWrite pos ≠ .error (.raised e) := by
  intro h
  unfold State.strayBitWrite at h
  split at h
  · rcases Run.bind_raised h with h | ⟨_, _, h⟩
    · unfold scramblePadding at h
      dsimp only at h
      rcases Run.bind_raised h with h | ⟨_, _, h⟩
      · exact Memory.read_raised h
      rcases Run.bind_raised h with h | ⟨_, _, h⟩
      · exact Memory.write_raised h
      · cases h
    · cases h
  · cases h

theorem execSetbit_next {pos v : U64} (h : exec (.setbit pos v) s = .next t) :
    (s.cs.halt = true ∧ t = s.raise .halted) ∨
    (s.cs.halt = false ∧ ((1 < v.toNat ∧ t = s.raise .operandRange) ∨
      (v.toNat ≤ 1 ∧ s.pv.valid = false ∧ t = s.raise .notConstructed) ∨
      (v.toNat ≤ 1 ∧ s.pv.valid = true ∧ pos.toNat < s.pv.vec.bitLength ∧
        ∃ v', vsetbit s.cfg.W s.pv.vec pos.toNat (decide (v.toNat = 1)) = .ok v' ∧
          t = (s.setVec v').respondNone) ∨
      (v.toNat ≤ 1 ∧ s.pv.valid = true ∧ s.pv.vec.bitLength ≤ pos.toNat ∧
        ∃ u, s.strayBitWrite pos.toNat = .ok u ∧ t = u.respondNone))) := by
  rcases State.unlessHalted_next h with h | ⟨hh, h⟩
  · exact .inl h
  refine .inr ⟨hh, ?_⟩
  rcases operandBit_cases v with ⟨h1, h2⟩ | ⟨h1, h2⟩
  swap
  · rw [h2] at h; cases h; exact .inl ⟨h1, rfl⟩
  rw [h2] at h
  refine .inr ?_
  rcases State.ifConstructed_next h with ⟨hv, h⟩ | ⟨hv, h⟩
  · exact .inl ⟨h1, hv, h⟩
  split at h
  · rcases State.finish_next h with h | ⟨e, h, -⟩
    · obtain ⟨x, h3, h4⟩ := Run.bind_ok h
      cases h4; exact .inr (.inl ⟨h1, hv, ‹_›, x, h3, rfl⟩)
    · rcases Run.bind_raised h with h | ⟨_, _, h⟩
      · exact absurd h vsetbit_raised
      · cases h
  · rcases State.finish_next h with h | ⟨e, h, -⟩
    · obtain ⟨u, h3, h4⟩ := Run.bind_ok h
      cases h4; exact .inr (.inr ⟨h1, hv, by omega, u, h3, rfl⟩)
    · rcases Run.bind_raised h with h | ⟨_, _, h⟩
      · exact absurd h State.strayBitWrite_raised
      · cases h

theorem execIter_next (h : exec .iter s = .next t) :
    (s.cs.halt = true ∧ t = s.raise .halted) ∨
    (s.cs.halt = false ∧ ((s.pv.valid = false ∧ t = s.raise .notConstructed) ∨
      (s.pv.valid = true ∧
        t = { s with it := { valid := true, front := 0, back := s.pv.vec.n } }.respondNone))) := by
  rcases State.unlessHalted_next h with h | ⟨hh, h⟩
  · exact .inl h
  refine .inr ⟨hh, ?_⟩
  rcases State.ifConstructed_next h with h | ⟨hv, h⟩
  · exact .inl h
  · cases h; exact .inr ⟨hv, rfl⟩

theorem execItnext_next (h : exec .itnext s = .next t) :
    (s.cs.halt = true ∧ t = s.raise .halted) ∨
    (s.cs.halt = false ∧ ((s.it.valid = false ∧ t = s.raise .notConstructed) ∨
      (s.it.valid = true ∧ s.it.front = s.it.back ∧ t = s.respondNone) ∨
      (s.it.valid = true ∧ s.it.front ≠ s.it.back ∧ s.pv.vec.n ≤ s.it.front ∧
        t = s.raise .indexOutOfRange) ∨
      (s.it.valid = true ∧ s.it.front ≠ s.it.back ∧ ∃ x, vget s.cfg s.pv.vec s.it.front = .ok x ∧
        t = { s with it := { s.it with front := s.it.front + 1 } }.respond x))) := by
  rcases State.unlessHalted_next h with h | ⟨hh, h⟩
  · exact .inl h
  refine .inr ⟨hh, ?_⟩
  rcases State.ifConstructed_next h with h | ⟨hv, h⟩
  · exact .inl h
  split at h
  · cases h; exact .inr (.inl ⟨hv, ‹_›, rfl⟩)
  rcases State.finish_next h with h | ⟨e, h, ht⟩
  · obtain ⟨x, h1, h2⟩ := Run.bind_ok h
    cases h2; exact .inr (.inr (.inr ⟨hv, ‹_›, x, h1, rfl⟩))
  · rcases Run.bind_raised h with h | ⟨_, _, h⟩
    · obtain ⟨rfl, hn⟩ := vget_raised h
      exact .inr (.inr (.inl ⟨hv, ‹_›, hn, ht⟩))
    · cases h

theorem execItprev_next (h : exec .itprev s = .next t) :
    (s.cs.halt = true ∧ t = s.raise .halted) ∨
    (s.cs.halt = false ∧ ((s.it.valid = false ∧ t = s.raise .notConstructed) ∨
      (s.it.valid = true ∧ s.it.front = s.it.back ∧ t = s.respondNone) ∨
      (s.it.valid = true ∧ s.it.front ≠ s.it.back ∧ s.pv.vec.n ≤ s.it.back - 1 ∧
        t = s.raise .indexOutOfRange) ∨
      (s.it.valid = true ∧ s.it.front ≠ s.it.back ∧ ∃ x, vget s.cfg s.pv.vec (s.it.back - 1) = .ok x ∧
        t = { s with it := { s.it with back := s.it.back - 1 } }.respond x))) := by
  rcases State.unlessHalted_next h with h | ⟨hh, h⟩
  · exact .inl h
  refine .inr ⟨hh, ?_⟩
  rcases State.ifConstructed_next h with h | ⟨hv, h⟩
  · exact .inl h
  split at h
  · cases h; exact .inr (.inl ⟨hv, ‹_›, rfl⟩)
  rcases State.finish_next h with h | ⟨e, h, ht⟩
  · obtain ⟨x, h1, h2⟩ := Run.bind_ok h
    cases h2; exact .inr (.inr (.inr ⟨hv, ‹_›, x, h1, rfl⟩))
  · rcases Run.bind_raised h with h | ⟨_, _, h⟩
    · obtain ⟨rfl, hn⟩ := vget_raised h
      exact .inr (.inr (.inl ⟨hv, ‹_›, hn, ht⟩))
    · cases h

theorem execItskip_next {m : U64} (h : exec (.itskip m) s = .next t) :
    (s.cs.halt = true ∧ t = s.raise .halted) ∨
    (s.cs.halt = false ∧ ((s.it.valid = false ∧ t = s.raise .notConstructed) ∨
      (s.it.valid = true ∧
        t = { s with it := { s.it with front := min (s.it.front + m.toNat) s.it.back } }.respondNone))) := by
  rcases State.unlessHalted_next h with h | ⟨hh, h⟩
  · exact .inl h
  refine .inr ⟨hh, ?_⟩
  rcases State.ifConstructed_next h with h | ⟨hv, h⟩
  · exact .inl h
  · cases h; exact .inr ⟨hv, rfl⟩

theorem execBuild_next {sel : U64} (h : exec (.build sel) s = .next t) :
    (s.cs.halt = true ∧ t = s.raise .halted) ∨
    (s.cs.halt = false ∧ ((1 < sel.toNat ∧ t = s.raise .operandRange) ∨
      ∃ src, operandSource sel = some src ∧
        ((s.sourceExists src = false ∧ t = s.raise .notConstructed) ∨
        (s.sourceExists src = true ∧ ∃ e, buildIndex s.cfg src (s.source src) s.draws = .error (.raised e) ∧
          t = s.withoutIndex.raise e) ∨
        (s.sourceExists src = true ∧ ∃ ri d, buildIndex s.cfg src (s.source src) s.draws = .ok (ri, d) ∧
          t = ({ s with ri := ri, draws := d }).respondNone)))) := by
  rcases State.unlessHalted_next h with h | ⟨hh, h⟩
  · exact .inl h
  refine .inr ⟨hh, ?_⟩
  rcases hs : operandSource sel with _ | src
  · rw [hs] at h
    cases h
    rcases operandSource_cases sel with ⟨-, h2⟩ | ⟨-, h2⟩ | ⟨h1, -⟩
    · rw [hs] at h2; cases h2
    · rw [hs] at h2; cases h2
    · exact .inl ⟨h1, rfl⟩
  rw [hs] at h
  refine .inr ⟨src, rfl, ?_⟩
  rcases State.ifConstructed_next h with h | ⟨hv, h⟩
  · exact .inl h
  rcases State.finish_next h with h | ⟨e, h, ht⟩
  · obtain ⟨⟨ri, d⟩, h1, h2⟩ := Run.bind_ok h
    cases h2; exact .inr (.inr ⟨hv, ri, d, h1, rfl⟩)
  · rcases Run.bind_raised h with h | ⟨_, _, h⟩
    · exact .inr (.inl ⟨hv, e, h, ht⟩)
    · cases h

theorem execRank_next {position : U64} (h : exec (.rank position) s = .next t) :
    (s.cs.halt = true ∧ t = s.raise .halted) ∨
    (s.cs.halt = false ∧ ((s.ri.valid = false ∧ t = s.raise .notConstructed) ∨
      (s.ri.valid = true ∧ rankDefined s.cfg.W s.ri (s.source s.ri.src) position.toNat ∧
        ((t = s.raise .indexOutOfRange) ∨
        ∃ r, rankSum s.cfg s.ri (s.source s.ri.src) position.toNat = .ok r ∧ t = s.respond r)) ∨
      (s.ri.valid = true ∧ ¬ rankDefined s.cfg.W s.ri (s.source s.ri.src) position.toNat ∧
        t = { s with draws := s.draws + 1 }.respond (freeBits s.draws 64)))) := by
  rcases State.unlessHalted_next h with h | ⟨hh, h⟩
  · exact .inl h
  refine .inr ⟨hh, ?_⟩
  rcases State.ifConstructed_next h with h | ⟨hv, h⟩
  · exact .inl h
  refine .inr ?_
  split at h
  · rename_i hd
    refine .inl ⟨hv, hd, ?_⟩
    rcases State.finish_next h with h | ⟨e, h, ht⟩
    · obtain ⟨x, h1, h2⟩ := Run.bind_ok h
      cases h2; exact .inr ⟨x, h1, rfl⟩
    · rcases Run.bind_raised h with h | ⟨_, _, h⟩
      · unfold rankSum at h
        left
        rcases Run.bind_raised h with h | ⟨_, _, h⟩
        · rw [(vget_raised h).1] at ht; exact ht
        rcases Run.bind_raised h with h | ⟨_, _, h⟩
        · rw [(vget_raised h).1] at ht; exact ht
        rcases Run.bind_raised h with h | ⟨_, _, h⟩
        · exact (Memory.read_raised h).elim
        · cases h
      · cases h
  · rename_i hd
    cases h
    exact .inr ⟨hv, hd, rfl⟩

/-- The answer to a request that is no command (30 R75). -/
theorem State.answerIllegal_next (h : s.answerIllegal = .next t) :
    (s.cs.halt = true ∧ t = s.raise .halted) ∨ (s.cs.halt = false ∧ t = s.raise .illegalCommand) := by
  rcases State.unlessHalted_next h with h | ⟨hh, h⟩
  · exact .inl h
  · cases h; exact .inr ⟨hh, rfl⟩

/-- BUILD raises a construction error or an indexing fault and nothing else (43 R156). -/
theorem buildIndex_raised {c : Config} {sel : SourceSel} {src : Source} {d : Nat} {e : StatusCode}
    (h : buildIndex c sel src d = .error (.raised e)) : e.cls = .construction ∨ e.cls = .indexingFault := by
  have hv : ∀ {v : Vec} {i x d : Nat} {e : StatusCode}, vset c v i x d = .error (.raised e) →
      e.cls = .indexingFault := by
    intro v i x d e h
    rcases vset_raised h with ⟨rfl, _⟩ | ⟨rfl, _⟩ <;> rfl
  unfold buildIndex at h
  dsimp only at h
  rcases Run.bind_raised h with h | ⟨_, _, h⟩
  · exact .inl (vnew_raised h).1
  rcases Run.bind_raised h with h | ⟨_, _, h⟩
  · exact .inl (vnew_raised h).1
  rcases Run.bind_raised h with h | ⟨_, _, h⟩
  · right
    have : ∀ (r w : Nat) (t : Scan),
        Scan.words c src (smallPerLarge c.W src.bitLen) r w t = .error (.raised e) →
        e.cls = .indexingFault := by
      intro r
      induction r with
      | zero => intro w t h; cases h
      | succ r ih =>
        intro w t h
        rw [Scan.words] at h
        rcases Run.bind_raised h with h | ⟨_, _, h⟩
        · unfold Scan.word at h
          rcases Run.bind_raised h with h | ⟨_, _, h⟩
          · unfold Scan.boundary at h
            split at h
            · rcases Run.bind_raised h with h | ⟨_, _, h⟩
              · exact hv h
              · cases h
            · cases h
          rcases Run.bind_raised h with h | ⟨_, _, h⟩
          · exact hv h
          dsimp only at h
          rcases Run.bind_raised h with h | ⟨_, _, h⟩
          · exact (Memory.read_raised h).elim
          · cases h
        · exact ih _ _ h
    exact this _ _ _ h
  rcases Run.bind_raised h with h | ⟨_, _, h⟩
  · right
    unfold Scan.sentinels at h
    rcases Run.bind_raised h with h | ⟨_, _, h⟩
    · exact hv h
    dsimp only at h
    rcases Run.bind_raised h with h | ⟨_, _, h⟩
    · exact hv h
    · cases h
  · cases h

/-- A halted block refuses every command (60 R193). -/
theorem exec_halted {i : Instr} (hh : s.cs.halt = true) : exec i s = .next (s.raise .halted) := by
  cases i <;> exact State.unlessHalted_halted hh

/-- Everything any command can do: end with a code its checks raise, in the state it began in; fail inside
BUILD, without an index; or complete with OK, with a result exactly when the command returns one. -/
theorem exec_next {i : Instr} (h : exec i s = .next t) :
   (∃ c : StatusCode, c ≠ .ok ∧ t = s.raise c ∧
       (c.cls = .construction → ∃ k n, i = .new k n) ∧
       (c = .notConstructed → contextMissing s i) ∧
       (c = .operandRange → (∃ pos v, i = .setbit pos v ∧ 1 < v.toNat) ∨ ∃ sel,
           i = .build sel ∧ 1 < sel.toNat) ∧
       (c.cls = .indexingFault → ¬ ∃ sel, i = .build sel)) ∨
   (∃ sel e, i = .build sel ∧ e ≠ StatusCode.ok ∧ (e.cls = .construction ∨
       e.cls = .indexingFault) ∧ t = s.withoutIndex.raise e) ∨
   (∃ u : State, u.cs = s.cs ∧ u.out = s.out ∧ u.cfg = s.cfg ∧ u.xs = s.xs ∧ u.input = s.input ∧ s.cs.halt = false ∧
     ((t = u.respondNone ∧ ¬ returnsValue s i) ∨ (∃ v, t = u.respond v ∧ returnsValue s i))) := by
  cases i
  case new k n =>
    rcases execNew_next h with ⟨h1, rfl⟩ | ⟨h1, ⟨e, he, _, rfl⟩ | ⟨hc, rfl⟩⟩
    · exact .inl ⟨.halted, by decide, rfl, nofun, nofun, nofun, nofun⟩
    · refine .inl ⟨e, ?_, rfl, fun _ => ⟨_, _, rfl⟩, ?_, ?_, ?_⟩ <;> cases e <;> simp_all [StatusCode.cls]
    · refine .inr (.inr ⟨_, ?_, ?_, ?_, ?_, ?_, h1, .inl ⟨rfl, nofun⟩⟩) <;> rfl
  case len =>
    rcases execLen_next h with ⟨h1, rfl⟩ | ⟨h1, ⟨h2, rfl⟩ | ⟨h2, rfl⟩⟩
    · exact .inl ⟨.halted, by decide, rfl, nofun, nofun, nofun, nofun⟩
    · exact .inl ⟨.notConstructed, by decide, rfl, nofun, fun _ => h2, nofun, nofun⟩
    · exact .inr (.inr ⟨s, rfl, rfl, rfl, rfl, rfl, h1, .inr ⟨_, rfl, trivial⟩⟩)
  case isempty =>
    rcases execIsempty_next h with ⟨h1, rfl⟩ | ⟨h1, ⟨h2, rfl⟩ | ⟨h2, rfl⟩⟩
    · exact .inl ⟨.halted, by decide, rfl, nofun, nofun, nofun, nofun⟩
    · exact .inl ⟨.notConstructed, by decide, rfl, nofun, fun _ => h2, nofun, nofun⟩
    · exact .inr (.inr ⟨s, rfl, rfl, rfl, rfl, rfl, h1, .inr ⟨_, rfl, trivial⟩⟩)
  case get j =>
    rcases execGet_next h with ⟨h1, rfl⟩ | ⟨h1, ⟨h2, rfl⟩ | ⟨h2, h3, rfl⟩ | ⟨h2, x, h3, rfl⟩⟩
    · exact .inl ⟨.halted, by decide, rfl, nofun, nofun, nofun, nofun⟩
    · exact .inl ⟨.notConstructed, by decide, rfl, nofun, fun _ => h2, nofun, nofun⟩
    · exact .inl ⟨.indexOutOfRange, by decide, rfl, nofun, nofun, nofun, nofun⟩
    · exact .inr (.inr ⟨s, rfl, rfl, rfl, rfl, rfl, h1, .inr ⟨_, rfl, trivial⟩⟩)
  case set j v =>
    rcases execSet_next h with ⟨h1, rfl⟩ | ⟨h1, ⟨h2, rfl⟩ | ⟨h2, h3, rfl⟩ | ⟨h2, h3, h4, rfl⟩ | ⟨h2, x, d,
        h3, rfl⟩⟩
    · exact .inl ⟨.halted, by decide, rfl, nofun, nofun, nofun, nofun⟩
    · exact .inl ⟨.notConstructed, by decide, rfl, nofun, fun _ => h2, nofun, nofun⟩
    · exact .inl ⟨.indexOutOfRange, by decide, rfl, nofun, nofun, nofun, nofun⟩
    · exact .inl ⟨.valueOverflow, by decide, rfl, nofun, nofun, nofun, nofun⟩
    · refine .inr (.inr ⟨_, ?_, ?_, ?_, ?_, ?_, h1, .inl ⟨rfl, nofun⟩⟩) <;> rfl
  case getbit j =>
    rcases execGetbit_next h with ⟨h1, rfl⟩ | ⟨h1, ⟨h2, rfl⟩ | ⟨h2, h3, x, h4, rfl⟩ | ⟨h2, h3, rfl⟩⟩
    · exact .inl ⟨.halted, by decide, rfl, nofun, nofun, nofun, nofun⟩
    · exact .inl ⟨.notConstructed, by decide, rfl, nofun, fun _ => h2, nofun, nofun⟩
    · exact .inr (.inr ⟨s, rfl, rfl, rfl, rfl, rfl, h1, .inr ⟨_, rfl, trivial⟩⟩)
    · refine .inr (.inr ⟨_, ?_, ?_, ?_, ?_, ?_, h1, .inr ⟨_, rfl, trivial⟩⟩) <;> rfl
  case setbit j v =>
    rcases execSetbit_next h with ⟨h1, rfl⟩ | ⟨h1, ⟨h2, rfl⟩ | ⟨h2, h3, rfl⟩ | ⟨h2, h3, h4, x, h5, rfl⟩ |
        ⟨h2, h3, h4, u, h5, rfl⟩⟩
    · exact .inl ⟨.halted, by decide, rfl, nofun, nofun, nofun, nofun⟩
    · exact .inl ⟨.operandRange, by decide, rfl, nofun, nofun, fun _ => .inl ⟨_, _, rfl, h2⟩, nofun⟩
    · exact .inl ⟨.notConstructed, by decide, rfl, nofun, fun _ => h3, nofun, nofun⟩
    · refine .inr (.inr ⟨_, ?_, ?_, ?_, ?_, ?_, h1, .inl ⟨rfl, nofun⟩⟩) <;> rfl
    · obtain ⟨v, -, -, -, rfl⟩ := State.strayBitWrite_frame h5
      refine .inr (.inr ⟨_, ?_, ?_, ?_, ?_, ?_, h1, .inl ⟨rfl, nofun⟩⟩) <;> rfl
  case iter =>
    rcases execIter_next h with ⟨h1, rfl⟩ | ⟨h1, ⟨h2, rfl⟩ | ⟨h2, rfl⟩⟩
    · exact .inl ⟨.halted, by decide, rfl, nofun, nofun, nofun, nofun⟩
    · exact .inl ⟨.notConstructed, by decide, rfl, nofun, fun _ => h2, nofun, nofun⟩
    · refine .inr (.inr ⟨_, ?_, ?_, ?_, ?_, ?_, h1, .inl ⟨rfl, nofun⟩⟩) <;> rfl
  case itnext =>
    rcases execItnext_next h with ⟨h1, rfl⟩ | ⟨h1, ⟨h2, rfl⟩ | ⟨h2, h3, rfl⟩ | ⟨h2, h3, h4, rfl⟩ | ⟨h2, h3,
        x, h4, rfl⟩⟩
    · exact .inl ⟨.halted, by decide, rfl, nofun, nofun, nofun, nofun⟩
    · exact .inl ⟨.notConstructed, by decide, rfl, nofun, fun _ => h2, nofun, nofun⟩
    · exact .inr (.inr ⟨s, rfl, rfl, rfl, rfl, rfl, h1, .inl ⟨rfl, fun g => g h3⟩⟩)
    · exact .inl ⟨.indexOutOfRange, by decide, rfl, nofun, nofun, nofun, nofun⟩
    · refine .inr (.inr ⟨_, ?_, ?_, ?_, ?_, ?_, h1, .inr ⟨_, rfl, h3⟩⟩) <;> rfl
  case itprev =>
    rcases execItprev_next h with ⟨h1, rfl⟩ | ⟨h1, ⟨h2, rfl⟩ | ⟨h2, h3, rfl⟩ | ⟨h2, h3, h4, rfl⟩ | ⟨h2, h3,
        x, h4, rfl⟩⟩
    · exact .inl ⟨.halted, by decide, rfl, nofun, nofun, nofun, nofun⟩
    · exact .inl ⟨.notConstructed, by decide, rfl, nofun, fun _ => h2, nofun, nofun⟩
    · exact .inr (.inr ⟨s, rfl, rfl, rfl, rfl, rfl, h1, .inl ⟨rfl, fun g => g h3⟩⟩)
    · exact .inl ⟨.indexOutOfRange, by decide, rfl, nofun, nofun, nofun, nofun⟩
    · refine .inr (.inr ⟨_, ?_, ?_, ?_, ?_, ?_, h1, .inr ⟨_, rfl, h3⟩⟩) <;> rfl
  case itskip m =>
    rcases execItskip_next h with ⟨h1, rfl⟩ | ⟨h1, ⟨h2, rfl⟩ | ⟨h2, rfl⟩⟩
    · exact .inl ⟨.halted, by decide, rfl, nofun, nofun, nofun, nofun⟩
    · exact .inl ⟨.notConstructed, by decide, rfl, nofun, fun _ => h2, nofun, nofun⟩
    · refine .inr (.inr ⟨_, ?_, ?_, ?_, ?_, ?_, h1, .inl ⟨rfl, nofun⟩⟩) <;> rfl
  case build sel =>
    rcases execBuild_next h with ⟨h1, rfl⟩ | ⟨h1, ⟨h2, rfl⟩ | ⟨src, h2, ⟨h3, rfl⟩ | ⟨h3, e, h4, rfl⟩ | ⟨h3,
        ri, d, h4, rfl⟩⟩⟩
    · exact .inl ⟨.halted, by decide, rfl, nofun, nofun, nofun, nofun⟩
    · exact .inl ⟨.operandRange, by decide, rfl, nofun, nofun, fun _ => .inr ⟨_, rfl, h2⟩, nofun⟩
    · refine .inl ⟨.notConstructed, by decide, rfl, nofun, fun _ => ?_, nofun, nofun⟩
      cases src
      · cases h3
      · rcases operandSource_cases sel with ⟨a, b⟩ | ⟨a, b⟩ | ⟨a, b⟩ <;> rw [h2] at b <;> cases b
        exact ⟨a, h3⟩
    · have := buildIndex_raised h4
      refine .inr (.inl ⟨sel, e, rfl, ?_, this, rfl⟩)
      rintro rfl; rcases this with h | h <;> cases h
    · refine .inr (.inr ⟨_, ?_, ?_, ?_, ?_, ?_, h1, .inl ⟨rfl, nofun⟩⟩) <;> rfl
  case rank p =>
    rcases execRank_next h with ⟨h1, rfl⟩ | ⟨h1, ⟨h2, rfl⟩ | ⟨h2, h3, rfl | ⟨r, h4, rfl⟩⟩ | ⟨h2, h3, rfl⟩⟩
    · exact .inl ⟨.halted, by decide, rfl, nofun, nofun, nofun, nofun⟩
    · exact .inl ⟨.notConstructed, by decide, rfl, nofun, fun _ => h2, nofun, nofun⟩
    · exact .inl ⟨.indexOutOfRange, by decide, rfl, nofun, nofun, nofun, nofun⟩
    · exact .inr (.inr ⟨s, rfl, rfl, rfl, rfl, rfl, h1, .inr ⟨_, rfl, trivial⟩⟩)
    · refine .inr (.inr ⟨_, ?_, ?_, ?_, ?_, ?_, h1, .inr ⟨_, rfl, trivial⟩⟩) <;> rfl
  all_goals
    rcases State.answerIllegal_next h with ⟨h1, rfl⟩ | ⟨h1, rfl⟩
    · exact .inl ⟨.halted, by decide, rfl, nofun, nofun, nofun, nofun⟩
    · exact .inl ⟨.illegalCommand, by decide, rfl, nofun, nofun, nofun, nofun⟩

/-- What no command changes: the straps, the external source and the events that wait (10 R26, R33). -/
theorem exec_frame {i : Instr} (h : exec i s = .next t) :
    t.cfg = s.cfg ∧ t.xs = s.xs ∧ t.input = s.input := by
  rcases exec_next h with ⟨c, hc, rfl, -⟩ | ⟨sel, e, rfl, he, -, rfl⟩ |
    ⟨u, h1, h2, h3, h4, h5, h6, ⟨rfl, g⟩ | ⟨v, rfl, g⟩⟩ <;> simp [*]

end Sys2Proof.Machine
end

