-- ==== Sys2Proof/Laws/Packet.lean ====
section
/-! SUPPORT. The fields of a packet put together from them, and what the decoder can answer (30 R71 to R77). -/

namespace Sys2Proof

/-- The bits of a request packet: the header word, then A, then B (30 R71). -/
theorem requestPacket_bit (hdr : BitVec 32) (a b : U64) (i : Nat) :
    (requestPacket hdr a b).getLsbD i =
      if i < 32 then hdr.getLsbD i else if i < 96 then a.getLsbD (i - 32) else b.getLsbD (i - 96) := by
  have h : (requestPacket hdr a b).getLsbD i = (b ++ a ++ hdr).getLsbD i := rfl
  rw [h, BitVec.getLsbD_append, BitVec.getLsbD_append]
  by_cases h1 : i < 32
  · simp [h1]
  · by_cases h2 : i < 96
    · simp [h1, h2, show i - 32 < 64 by omega]
    · simp [h1, h2, show ¬ i - 32 < 64 by omega, show i - 32 - 64 = i - 96 by omega]

@[simp] theorem hdrField_requestPacket (hdr : BitVec 32) (a b : U64) :
    hdrField (requestPacket hdr a b) = hdr := by
  apply BitVec.eq_of_getLsbD_eq
  intro i hi
  simp [hdrField, requestPacket_bit, hi]

@[simp] theorem aField_requestPacket (hdr : BitVec 32) (a b : U64) : aField (requestPacket hdr a b) = a := by
  apply BitVec.eq_of_getLsbD_eq
  intro i hi
  simp [aField, requestPacket_bit, hi, show 32 + i < 96 by omega]

@[simp] theorem bField_requestPacket (hdr : BitVec 32) (a b : U64) : bField (requestPacket hdr a b) = b := by
  apply BitVec.eq_of_getLsbD_eq
  intro i hi
  simp [bField, requestPacket_bit, hi, show ¬ 96 + i < 32 by omega]

/-- The opcode and the reserved field are the two parts of the header word (30 R71). -/
theorem hdrField_parts (p : RequestPacket) :
    opField p = (hdrField p).extractLsb' 0 8 ∧ rsvField p = (hdrField p).extractLsb' 8 24 := by
  constructor
  · apply BitVec.eq_of_getLsbD_eq
    intro i hi
    simp [opField, hdrField, hi]
  · apply BitVec.eq_of_getLsbD_eq
    intro i hi
    simp [rsvField, hdrField, hi]

@[simp] theorem opField_requestPacket (hdr : BitVec 32) (a b : U64) :
    opField (requestPacket hdr a b) = hdr.extractLsb' 0 8 := by
  rw [(hdrField_parts _).1, hdrField_requestPacket]

@[simp] theorem rsvField_requestPacket (hdr : BitVec 32) (a b : U64) :
    rsvField (requestPacket hdr a b) = hdr.extractLsb' 8 24 := by
  rw [(hdrField_parts _).2, hdrField_requestPacket]

/-- The header word is the reserved field above the opcode (30 R71). -/
theorem hdrField_append (p : RequestPacket) : hdrField p = rsvField p ++ opField p := by
  rw [(hdrField_parts p).1, (hdrField_parts p).2]
  apply BitVec.eq_of_getLsbD_eq
  intro i hi
  rw [BitVec.getLsbD_append]
  by_cases h : i < 8
  · simp [h]
  · simp [h, show i - 8 < 24 by omega, show 8 + (i - 8) = i by omega]

/-- What a decoded packet was: its reserved field is zero and its opcode stands in the map. -/
theorem decode_ok {p : RequestPacket} {i : Instr} (h : decode p = .ok i) :
    rsvField p = 0 ∧ decodeOp (opField p).toNat (aField p) (bField p) = some i := by
  unfold decode at h
  split at h
  · cases h
  · split at h
    · injection h with h; subst h; exact ⟨by simp_all, ‹_›⟩
    · cases h

/-- Everything a row of the map says of the command it gives (30 R74): its opcode, and its operands, which
are those its format reads. -/
theorem decodeOp_some {op : Nat} {a b : U64} {i : Instr} (h : decodeOp op a b = some i) :
    op = (opcode i).toNat ∧ operandA i = (if i.format = .f0 then 0 else a) ∧
      operandB i = (if i.format = .fab then b else 0) := by
  unfold decodeOp at h
  split at h
  any_goals (injection h with h; subst h; simp [opcode, operandA, operandB, Instr.format])
  cases h

namespace Machine

/-- The bits of a response packet (30 R73). -/
theorem Response.pack_bit (r : Response) (i : Nat) : r.pack.getLsbD i =
    if i < 8 then r.code.getLsbD i
    else if i < 9 then r.hasResult
    else if i < 10 then r.halt
    else if i < 16 then false
    else if i < 24 then r.hcause.getLsbD (i - 16)
    else if i < 32 then false
    else r.res.getLsbD (i - 32) := by
  have h : r.pack.getLsbD i = (r.res ++ 0#8 ++ r.hcause ++ 0#6 ++ BitVec.ofBool r.halt ++
    BitVec.ofBool r.hasResult ++ r.code).getLsbD i := rfl
  rw [h]
  simp only [BitVec.getLsbD_append, BitVec.getLsbD_ofBool, BitVec.getLsbD_zero]
  split_ifs <;> first | rfl | (simp; try omega) | (exfalso; omega)

/-- The fields read back from a packet are the ones it was put together from (30 R73). -/
@[simp] theorem Response.unpack_pack (r : Response) : Response.unpack r.pack = r := by
  cases r with | mk code hasResult halt hcause res =>
  unfold Response.unpack
  simp only [Response.mk.injEq]
  refine ⟨?_, ?_, ?_, ?_, ?_⟩
  · apply BitVec.eq_of_getLsbD_eq; intro i hi; simp [pack_bit, hi]
  · rw [pack_bit]; rfl
  · rw [pack_bit]; rfl
  · apply BitVec.eq_of_getLsbD_eq; intro i hi
    simp only [BitVec.getLsbD_extractLsb', hi, decide_true, Bool.true_and, pack_bit]
    rw [if_neg (by omega), if_neg (by omega), if_neg (by omega), if_neg (by omega), if_pos (by omega)]
    congr 1; omega
  · apply BitVec.eq_of_getLsbD_eq; intro i hi
    simp only [BitVec.getLsbD_extractLsb', hi, decide_true, Bool.true_and, pack_bit]
    rw [if_neg (by omega), if_neg (by omega), if_neg (by omega), if_neg (by omega), if_neg (by omega),
      if_neg (by omega)]
    congr 1; omega

end Machine

end Sys2Proof
end

