-- ==== Sys2Proof/Laws/PerInstr.lean ====
section
/-! SUPPORT. Facts stated for every command, one lemma per constructor. -/

namespace Sys2Proof.Laws.EncodedHeader

/-- The packet of a command has the row's opcode, reserved bits that are zero, and its operands where the
layout puts them (30 R71, R74, R77). -/
def Statement (i : Instr) : Prop :=
  hdrField (encode i) = opcode i ∧ (opcode i).extractLsb' 8 24 = 0 ∧ aField (encode i) = operandA i ∧
    bField (encode i) = operandB i

theorem of_opcode {i : Instr} (h : (opcode i).extractLsb' 8 24 = 0) : Statement i := by
  refine ⟨?_, h, ?_, ?_⟩ <;> simp [encode]

theorem new (k n : U64) : Statement (.new k n) := of_opcode (by simp [opcode])
theorem len : Statement (.len) := of_opcode (by simp [opcode])
theorem isempty : Statement (.isempty) := of_opcode (by simp [opcode])
theorem get (i : U64) : Statement (.get i) := of_opcode (by simp [opcode])
theorem set (i value : U64) : Statement (.set i value) := of_opcode (by simp [opcode])
theorem getbit (pos : U64) : Statement (.getbit pos) := of_opcode (by simp [opcode])
theorem setbit (pos v : U64) : Statement (.setbit pos v) := of_opcode (by simp [opcode])
theorem iter : Statement (.iter) := of_opcode (by simp [opcode])
theorem itnext : Statement (.itnext) := of_opcode (by simp [opcode])
theorem itprev : Statement (.itprev) := of_opcode (by simp [opcode])
theorem itskip (m : U64) : Statement (.itskip m) := of_opcode (by simp [opcode])
theorem build (sel : U64) : Statement (.build sel) := of_opcode (by simp [opcode])
theorem rank (position : U64) : Statement (.rank position) := of_opcode (by simp [opcode])
theorem select1 (k : U64) : Statement (.select1 k) := of_opcode (by simp [opcode])
theorem select0 (k : U64) : Statement (.select0 k) := of_opcode (by simp [opcode])
theorem select (k value : U64) : Statement (.select k value) := of_opcode (by simp [opcode])

end Sys2Proof.Laws.EncodedHeader
end

