-- ==== Sys2Proof/Laws/Step.lean ====
section
/-! SUPPORT. What a step can do: one lemma. -/

namespace Sys2Proof.Machine

variable {s t : State}

/-- Everything a step can do: idle, run the command of a request, answer a request that is no command, reset,
or take a new external source. -/
theorem step_next (h : step s = .next t) :
   (s.input = [] ∧ t = s) ∨ ∃ e rest, s.input = e :: rest ∧
   ((∃ p i, e = .request p ∧ decode p = .ok i ∧ exec i { s with input := rest } = .next t) ∨
    (∃ p d, e = .request p ∧ decode p = .error d ∧ ({ s with input := rest } : State).answerIllegal = .next t) ∨
    ((e = .reset ∨ ∃ p, e = .requestCutByReset p) ∧ t = ({ s with input := rest } : State).resetInput) ∨
    (∃ xs, e = .sourceChange xs ∧ t = { s with input := rest, xs := xs })) := by
  unfold step at h
  split at h
  · injection h with h; exact .inl ⟨‹_›, h.symm⟩
  · rename_i e rest hi
    refine .inr ⟨e, rest, hi, ?_⟩
    cases e with
    | request p =>
      simp only [applyEvent, acceptRequest] at h
      split at h
      · exact .inl ⟨_, _, rfl, ‹_›, h⟩
      · exact .inr (.inl ⟨_, _, rfl, ‹_›, h⟩)
    | reset => injection h with h; exact .inr (.inr (.inl ⟨.inl rfl, h.symm⟩))
    | requestCutByReset p => injection h with h; exact .inr (.inr (.inl ⟨.inr ⟨_, rfl⟩, h.symm⟩))
    | sourceChange xs => injection h with h; exact .inr (.inr (.inr ⟨_, rfl, h.symm⟩))

end Sys2Proof.Machine
end

