-- ==== Sys2Proof/Tests/Slice0.lean ====
section
/-! SUPPORT. Tests. The expected values come from the spec's own vectors (95), cited by their part. A theorem
`test_hyp_X` shows states and operands that meet the hypotheses of `Obligations.X`. -/

namespace Sys2Proof.Tests

open Sys2Proof Sys2Proof.Machine

/-! ## Helper states -/

/-- The state after a list of commands. -/
def after (is : List Instr) (s : State) : State := (runCommands is s).getD s

/-- The result of the newest response, when it has one. -/
def newestResult (s : State) : Option U64 :=
  s.out.head?.bind (fun p => if p.getLsbD 8 then some (p.extractLsb' 32 64) else none)

/-- The words of PV that are not zero. -/
def pvCells (s : State) : List (Nat × Word) := s.pv.vec.mem.cells

/-- The state with one request packet waiting. -/
def withRequest (s : State) (p : RequestPacket) : State := { s with input := [.request p] }

/-- Straps of a given width, the check of values on or off. -/
def straps (w : WordWidth) (dbg : Bool) : Config :=
  { width := w, aw := 32, cap := Config.defaultCap 32, dbg := dbg }

/-- 95 P1: a block of 16-bit words. -/
def wide : State := State.afterReset (straps .w16 true) emptySource

/-- A vector of seven 3-bit elements (21 element bits, 3 words of 8) with an iterator and an index over it. -/
def small : State := after [.new 3 7, .set 2 5, .iter, .build 1] State.reset

/-- The same vector on a block that does not check values. -/
def loose : State := after [.new 3 7, .set 2 5] (State.afterReset (straps .w8 false) emptySource)

/-- A block with an external source of 20 bits, three of them set in the first word and the last. -/
def ext : State :=
  State.afterReset resetConfig { bitLen := 20, mem := { count := 3, cells := [(0, 0x80), (2, 0xF0)] } }

/-- The same block with its index built. -/
def extBuilt : State := after [.build 0] ext

/-- 95 V9e: eight bits, all set, whose sentinel does not fit. -/
def full : State := State.afterReset resetConfig { bitLen := 8, mem := { count := 1, cells := [(0, 255)] } }

/-- A block halted by a GET at the element count. -/
def stopped : State := after [.get 7] small

theorem inv_of {s : State} (h1 : s.cfg.wf) (h2 : s.cs.wf) (h3 : s.pvOk) (h4 : s.itOk) (h5 : s.riOk)
    (h6 : s.xs.wf s.cfg) (hi : s.input = []) : s.Inv :=
  ⟨h1, h2, h3, h4, h5, h6, by intro e he; rw [hi] at he; cases he⟩

theorem inv_withRequest {s : State} (p : RequestPacket) (h : s.Inv) : (withRequest s p).Inv := by
  obtain ⟨h1, h2, h3, h4, h5, h6, _⟩ := h
  refine ⟨h1, h2, h3, h4, h5, h6, ?_⟩
  intro e he
  simp only [withRequest, List.mem_singleton] at he
  subst he
  trivial

theorem reset_inv : State.reset.Inv :=
  inv_of (by decide) (by decide) (by decide) (by decide) (by decide) (by decide) rfl
theorem small_inv : small.Inv :=
  inv_of (by decide) (by decide) (by decide) (by decide) (by decide) (by decide) rfl
theorem loose_inv : loose.Inv :=
  inv_of (by decide) (by decide) (by decide) (by decide) (by decide) (by decide) rfl
theorem ext_inv : ext.Inv :=
  inv_of (by decide) (by decide) (by decide) (by decide) (by decide) (by decide) rfl
theorem extBuilt_inv : extBuilt.Inv :=
  inv_of (by decide) (by decide) (by decide) (by decide) (by decide) (by decide) rfl
theorem full_inv : full.Inv :=
  inv_of (by decide) (by decide) (by decide) (by decide) (by decide) (by decide) rfl
theorem stopped_inv : stopped.Inv :=
  inv_of (by decide) (by decide) (by decide) (by decide) (by decide) (by decide) rfl

/-! ## WellFormed refuses (30 R72) -/

theorem test_wellFormed_setbit : (Instr.setbit 0 1).wellFormed = true ∧ (Instr.setbit 0 2).wellFormed = false := by
  decide
theorem test_wellFormed_build : (Instr.build 1).wellFormed = true ∧ (Instr.build 2).wellFormed = false := by
  decide

/-! ## Decoding written packets (95 V10): `B`, `A` and `HDR` of each line -/

theorem test_decode_new : decode 0x0000000000000005_000000000000000d_00000010#160 = .ok (.new 13 5) := rfl
theorem test_decode_len : decode 0x0000000000000000_0000000000000000_00000011#160 = .ok .len := rfl
theorem test_decode_isempty : decode 0x0000000000000000_0000000000000000_00000012#160 = .ok .isempty := rfl
theorem test_decode_get : decode 0x0000000000000000_0000000000000003_00000013#160 = .ok (.get 3) := rfl
theorem test_decode_set : decode 0x0000000000000005_0000000000000004_00000014#160 = .ok (.set 4 5) := rfl
theorem test_decode_getbit : decode 0x0000000000000000_000000000000000c_00000015#160 = .ok (.getbit 12) := rfl
theorem test_decode_setbit : decode 0x0000000000000001_0000000000000009_00000016#160 = .ok (.setbit 9 1) := rfl
theorem test_decode_iter : decode 0x0000000000000000_0000000000000000_00000020#160 = .ok .iter := rfl
theorem test_decode_itnext : decode 0x0000000000000000_0000000000000000_00000021#160 = .ok .itnext := rfl
theorem test_decode_itprev : decode 0x0000000000000000_0000000000000000_00000022#160 = .ok .itprev := rfl
theorem test_decode_itskip : decode 0x0000000000000000_000000000000000a_00000023#160 = .ok (.itskip 10) := rfl
theorem test_decode_build : decode 0x0000000000000000_0000000000000001_00000030#160 = .ok (.build 1) := rfl
theorem test_decode_rank : decode 0x0000000000000000_0000000000004000_00000031#160 = .ok (.rank 0x4000) := rfl
theorem test_decode_select1 : decode 0x0000000000000000_0000000000000000_00000040#160 = .ok (.select1 0) := rfl
theorem test_decode_select0 : decode 0x0000000000000000_0000000000000000_00000041#160 = .ok (.select0 0) := rfl
theorem test_decode_select : decode 0x0000000000000001_0000000000000000_00000042#160 = .ok (.select 0 1) := rfl

/-- V10: LEN reads no operand, GET reads A alone. -/
theorem test_decode_ignores_unread :
    decode 0x0123456789abcdef_deadbeefdeadbeef_00000011#160 = .ok .len ∧
    decode 0xffffffffffffffff_0000000000000003_00000013#160 = .ok (.get 3) := ⟨rfl, rfl⟩

/-- V10: reserved bits that are not zero, with an opcode that is listed and whatever the bit. -/
theorem test_decode_reserved_bits :
    decode 0x0000000000000000_0000000000000003_00000113#160 = .error .reservedBits ∧
    decode 0x0000000000000005_000000000000000d_80000010#160 = .error .reservedBits := ⟨rfl, rfl⟩

/-- V10: the unlisted opcodes at the edges of the listed ranges. -/
theorem test_decode_unlisted :
    ∀ op ∈ [0x00, 0x0F, 0x17, 0x1F, 0x24, 0x2F, 0x32, 0x3F, 0x43, 0xFF],
      decodeCommand (requestPacket (BitVec.ofNat 32 op) 0 0) = none := by decide

/-- 30 R71: the number of a row's bits, the operands of zeros above them. -/
theorem test_decodeTableWord :
    decodeTableWord 160 0x0000000000000005_0000000000000004_00000014 = some (.set 4 5) ∧
    decodeTableWord 32 0x00000020 = some .iter := by decide

/-! ## The commands (95 V4 to V12, P1 to P4) -/

/-- V2: the four refusals at their first failing values, and 2^32 - 1 words, which is allowed. -/
theorem test_new_checks :
    [(after [.new 9 0x2000000000000000] State.reset).newestCode,
      (after [.new 8 0x2000000000000000] State.reset).newestCode,
      (after [.new 8 0x100000000] State.reset).newestCode,
      (after [.new 8 5] (State.afterReset { resetConfig with cap := 4 } emptySource)).newestCode,
      (after [.new 8 0xFFFFFFFF] State.reset).newestCode] =
    [some 0x01, some 0x02, some 0x03, some 0x04, some 0x00] := by decide

/-- V2, V9f: a product of exactly 2^64 is refused although it is 0 in 64 bits; four words of a capacity of four
are taken. -/
theorem test_new_boundary :
    (after [.new 8 4] (State.afterReset { resetConfig with cap := 4 } emptySource)).pv =
      { valid := true, vec := { k := 8, n := 4, mem := { count := 4, cells := [] } } } ∧
    (after [.new 8 0x2000000000000000] State.reset).pv.valid = false := by decide

/-- V6. -/
theorem test_len : newestResult (after [.new 0 5, .len] wide) = some 5 ∧
    newestResult (after [.new 1 0xFFFFFFF8, .len] State.reset) = some 0xFFFFFFF8 := by decide

/-- V6. -/
theorem test_isempty : newestResult (after [.new 13 0, .isempty] wide) = some 1 ∧
    newestResult (after [.new 0 5, .isempty] wide) = some 0 := by decide

/-- S1, P1: the straddling vector. -/
def fib : State := after [.new 13 5, .set 0 1, .set 1 1, .set 2 2, .set 3 3, .set 4 5] wide

/-- S1: the element 3 is split between words 2 and 3. -/
theorem test_get : newestResult (after [.get 3] fib) = some 3 ∧ newestResult (after [.get 4] fib) = some 5 := by
  decide

/-- V4e: no element, so every index faults. -/
theorem test_get_faults : (after [.new 5 0, .get 0] State.reset).cs = { halt := true, hcause := 0x10 } := by decide

/-- S1: the five words. -/
theorem test_set : pvCells fib = [(0, 0x0008), (1, 0x0040), (2, 0x0400), (3, 0x3002), (4, 0x8000)] := by decide

/-- V4c: clearing element 2 changes flat bits 6, 7 and 8 only. -/
theorem test_set_straddling :
    pvCells (after [.new 3 6, .set 0 5, .set 1 2, .set 2 7, .set 3 1, .set 4 6, .set 5 3, .set 2 0] State.reset) =
      [(0, 0xA8), (1, 0x1C), (2, 0xC0)] := by decide

/-- V5: the last two bits of element 0, and flat bit 64. -/
theorem test_getbit : newestResult (after [.getbit 12] fib) = some 1 ∧
    newestResult (after [.getbit 11] fib) = some 0 ∧ newestResult (after [.getbit 64] fib) = some 1 := by decide

/-- V5. -/
theorem test_setbit : pvCells (after [.new 1 20, .setbit 9 1] State.reset) = [(1, 0x40)] ∧
    pvCells (after [.new 1 20, .setbit 9 1, .setbit 9 0, .setbit 19 1] State.reset) = [(2, 0x10)] := by decide

/-- V5, V11: OperandRange before NotConstructed, and nothing changes. -/
theorem test_setbit_range : (after [.setbit 0 2] State.reset).newestCode = some 0x22 ∧
    (after [.setbit 0 2] State.reset).pv = State.reset.pv := by decide

/-- P3. -/
theorem test_iter : (after [.new 4 6, .iter, .itnext, .iter] State.reset).it =
    { valid := true, front := 0, back := 6 } := by decide

/-- P3: an element changed after ITER is decoded as it is when it is consumed. -/
theorem test_itnext : newestResult (after [.new 4 6, .iter, .set 0 9, .itnext] State.reset) = some 9 ∧
    newestResult (after [.new 4 0, .iter, .itnext] State.reset) = none := by decide

/-- P3, V7: the back cursor steps down first. -/
theorem test_itprev : newestResult (after [.new 4 6, .set 5 6, .iter, .itprev] State.reset) = some 6 ∧
    (after [.new 4 6, .iter, .itprev, .itprev] State.reset).it.back = 4 := by decide

/-- V7: 2^64 - 1 saturates with no wrap. -/
theorem test_itskip : (after [.new 4 6, .iter, .itnext, .itskip 0xFFFFFFFFFFFFFFFF] State.reset).it.front = 6 ∧
    (after [.new 4 6, .iter, .itprev, .itprev, .itskip 3] State.reset).it =
      { valid := true, front := 3, back := 4 } := by decide

/-- V9a: a source of 40 bits and its tables. -/
def v9a : State := after [.build 0] (State.afterReset (straps .w16 true)
  { bitLen := 40, mem := { count := 3, cells := [(0, 0xFFFF), (1, 0x0F0F), (2, 0xAA00)] } })

theorem test_build : v9a.ri =
    { valid := true, src := .ext, lbs := 48,
      lr := { k := 6, n := 2, mem := { count := 1, cells := [(0, 0x01C0)] } },
      sr := { k := 6, n := 4, mem := { count := 2, cells := [(0, 0x0106), (1, 0x1C00)] } },
      builtLen := 40 } := by decide

/-- V9e: all ones, eight of them: the sentinel does not fit and the block halts without an index. -/
theorem test_build_overflow : (after [.build 0] full).cs = { halt := true, hcause := 0x11 } ∧
    (after [.build 0] full).ri.valid = false := by decide

/-- V9a. -/
theorem test_rank : [0, 15, 16, 20, 31, 32, 39].map (fun p => newestResult (after [.rank p] v9a)) =
    [some 1, some 16, some 16, some 17, some 24, some 25, some 28] := by decide

/-- P2 in small: the index is stale where a table holds the old count, and current inside the word. -/
theorem test_rank_stale :
    newestResult (after [.new 1 20, .build 1, .setbit 1 1, .rank 7] State.reset) = some 1 ∧
    newestResult (after [.new 1 20, .build 1, .setbit 1 1, .rank 8] State.reset) = some 0 := by decide

/-- V10, P4. -/
theorem test_select1 : (after [.select1 0] small).newestCode = some 0x20 := by decide
theorem test_select0 : (after [.select0 0] small).newestCode = some 0x20 := by decide
theorem test_select : (after [.select 0 1] small).newestCode = some 0x20 := by decide

/-- V11: STATUS of a halted block, which keeps HCAUSE. -/
theorem test_halted_response : (after [.new 4 2, .set 2 99, .setbit 0 2] State.reset).out.map responseText =
    ["00100223 0000000000000000".toList, "00100210 0000000000000000".toList,
      "00000000 0000000000000000".toList] := by decide

/-- V12: reset out of the halt; the next LEN answers NotConstructed. -/
theorem test_reset_event :
    ∃ t, step { stopped with input := [.reset] } = .next t ∧ (after [.len] t).newestCode = some 0x21 :=
  ⟨_, rfl, by decide⟩

/-! ## The word layer (95 V1) and the text (95 S2, V10) -/

theorem test_word_layer :
    [getBit 8 0x80 0, getBit 8 0x01 7, setBit 8 0x00 0 true, setBit 8 0xFF 7 false, getBits 8 0xB4 1 3,
      getBits 8 0xB4 5 3, setBits 8 0x00 1 3 5, setBits 8 0xFF 5 3 0, setBits 8 0x00 2 4 0x1F, countOnes 8 0xB4,
      leadingZeros 8 0x00, leadingZeros 8 0x01, shl 8 0x81 1, shr 0x81 7] =
    [1, 1, 0x80, 0xFE, 3, 4, 0x50, 0xF8, 0x3C, 4, 8, 7, 0x02, 0x01] := by decide

theorem test_render_digits : renderValues 13 [] =
    "IntVec ".toList ++ [openBrace] ++ " element_bits: 13, elements: ".toList ++ [openBrace, ' ', closeBrace, ' ',
      closeBrace] := by decide

theorem test_assemble : assemble " RANK 0x4000 ; a comment".toList = some (encode (.rank 0x4000)) ∧
    assemble "BUILD PV".toList = some (encode (.build 1)) ∧ assemble "SET 4, 5".toList = some (encode (.set 4 5)) ∧
    assemble "SET 4".toList = none := by decide

theorem test_request_text : requestText (encode (.set 4 5)) =
    "00000014 0000000000000004 0000000000000005".toList := by decide

/-! ## Hypotheses that can be met -/

theorem test_hyp_EveryStepKeepsTheInvariant :
    (withRequest small (encode (.set 6 7))).Inv ∧
      ∃ t, step (withRequest small (encode (.set 6 7))) = .next t :=
  ⟨inv_withRequest _ small_inv, _, rfl⟩

theorem test_hyp_EveryStepCompletes : (withRequest stopped (encode .len)).Inv := inv_withRequest _ stopped_inv

theorem test_hyp_ResetInputClearsTheContexts :
    ({ stopped with input := [.reset] } : State).input = .reset :: [] ∧
    ∃ p, ({ small with input := [.requestCutByReset 0] } : State).input = .requestCutByReset p :: [] :=
  ⟨rfl, _, rfl⟩

theorem test_hyp_IdlingAndSourceChange :
    small.input = [] ∧ ({ small with input := [.sourceChange ext.xs] } : State).input = .sourceChange ext.xs :: [] :=
  ⟨rfl, rfl⟩

theorem test_hyp_StepRunsTheDecodedCommand :
    (withRequest small (encode (.get 2))).input = .request (encode (.get 2)) :: [] ∧
      decode (encode (.get 2)) = .ok (.get 2) := ⟨rfl, rfl⟩

theorem test_hyp_OneResponsePerRequest :
    (withRequest small 0).input = .request 0 :: [] ∧ ∃ t, step (withRequest small 0) = .next t := ⟨rfl, _, rfl⟩

theorem test_hyp_StrapsAndSourceAreReadOnly :
    ∃ t, step { small with input := [.sourceChange ext.xs] } = .next t ∧ t.xs ≠ small.xs := ⟨_, rfl, by decide⟩

/-- Each side: an indexing fault of a running block, and a reset of a halted one. -/
theorem test_hyp_HaltChangesOnlyByFaultAndReset :
    ((withRequest small (encode (.get 7))).Inv ∧
      ∃ t, step (withRequest small (encode (.get 7))) = .next t ∧ t.cs ≠ small.cs) ∧
    ∃ t, step { stopped with input := [.reset] } = .next t ∧ t.cs ≠ stopped.cs :=
  ⟨⟨inv_withRequest _ small_inv, _, rfl, by decide⟩, _, rfl, by decide⟩

/-- Two states that differ behind the cleared valid bits of the iterator and the index. -/
theorem test_hyp_InvalidContextsAreUnobservable :
    loose.Inv ∧ loose.admits (.set 6 7) ∧ meetsPrecondition loose (.set 6 7) ∧
    loose.sameVisible { loose with it := { valid := false, front := 5, back := 9 } } ∧
    (∃ t, exec (.set 6 7) loose = .next t) ∧
    loose ≠ { loose with it := { valid := false, front := 5, back := 9 } } := by
  refine ⟨loose_inv, ⟨by decide, by decide, show ¬ loose.pv.valid = false by decide⟩,
    fun _ => .inr (.inr (by decide)), ?_, ⟨_, rfl⟩, by decide⟩
  unfold State.sameVisible
  decide

theorem test_hyp_TheHeaderSelectsTheCommand :
    ∃ i, decode 0xffffffffffffffff_ffffffffffffffff_00000042#160 = .ok i := ⟨_, rfl⟩

/-- A format that reads neither operand, one that reads A, one that reads both; the second packet differs where
the format does not read. -/
theorem test_hyp_UnreadOperandsAreIgnored :
    (decode (requestPacket 0x11 0 0) = .ok .len ∧
      hdrField (requestPacket 0x11 5 6) = hdrField (requestPacket 0x11 0 0)) ∧
    (decode (requestPacket 0x13 3 0) = .ok (.get 3) ∧
      hdrField (requestPacket 0x13 3 6) = hdrField (requestPacket 0x13 3 0) ∧
      aField (requestPacket 0x13 3 6) = aField (requestPacket 0x13 3 0)) ∧
    (decode (requestPacket 0x14 4 5) = .ok (.set 4 5) ∧ bField (requestPacket 0x14 4 5) = 5) := by
  refine ⟨⟨rfl, by decide⟩, ⟨rfl, by decide, by decide⟩, rfl, by decide⟩

/-- Codes of both kinds, those that halt and one that does not. -/
theorem test_hyp_AnswerChangesTheOutputAlone :
    (StatusCode.halted ≠ .indexOutOfRange ∧ StatusCode.halted ≠ .valueOverflow) ∧
    StatusCode.valueOverflow = .valueOverflow := by decide

/-- With a value and without one. -/
theorem test_hyp_EveryResponseIsWellFormed :
    (∃ t, exec .itnext small = .next t ∧ newestResult t = some 0) ∧
    ∃ t, exec .itnext (after [.itskip 7] small) = .next t ∧ newestResult t = none :=
  ⟨⟨_, rfl, by decide⟩, _, rfl, by decide⟩

/-- 0x14 with a reserved bit, an unlisted opcode, and an encoding of the select component. -/
theorem test_hyp_IllegalPacketsAreAnswered : small.cs.halt = false ∧
    ∀ h ∈ [0x114, 0x43, 0x40, 0x17, 0], (hdrField (requestPacket (BitVec.ofNat 32 h) 0 0)).toNat ∉
      [0x10, 0x11, 0x12, 0x13, 0x14, 0x15, 0x16, 0x20, 0x21, 0x22, 0x23, 0x30, 0x31] := by decide

theorem test_hyp_SelectEncodingsAreIllegal : small.cs.halt = false := by decide

theorem test_hyp_HaltedBlockRefusesEveryRequest :
    (withRequest stopped 0).input = .request 0 :: [] ∧ (withRequest stopped 0).cs.halt = true := ⟨rfl, by decide⟩

/-- Each clause at the first refused value. -/
theorem test_hyp_OperandRangeIsExact :
    State.reset.cs.halt = false ∧ 1 < (2 : U64).toNat ∧
    (∃ t, exec (.setbit 0 2) State.reset = .next t ∧ t.newestCode = some 0x22) ∧
    ∃ t, exec (.build 2) State.reset = .next t ∧ t.newestCode = some 0x22 :=
  ⟨by decide, by decide, ⟨_, rfl, by decide⟩, _, rfl, by decide⟩

/-- Both sides: the vector alone exists in `loose`, and every context in `small`. -/
theorem test_hyp_NotConstructedIsExact :
    loose.cs.halt = false ∧ (Instr.setbit 0 1).wellFormed = true ∧ (Instr.build 1).wellFormed = true ∧
    contextMissing loose .itnext ∧ contextMissing loose (.rank 0) ∧ ¬ contextMissing loose (.build 1) ∧
    contextMissing State.reset (.build 1) ∧ ¬ contextMissing small .itnext := by
  unfold contextMissing
  decide

/-- An indexing fault, an interface error, and a BUILD that fails once it has begun. -/
theorem test_hyp_FailingCommandsChangeNothingElse :
    (∃ t p, exec (.set 6 8) small = .next t ∧ t.out = p :: small.out ∧ p.extractLsb' 0 8 = 0x11) ∧
    (∃ t p, exec (.rank 0) loose = .next t ∧ t.out = p :: loose.out ∧ p.extractLsb' 0 8 = 0x21) ∧
    ∃ t p, exec (.build 0) full = .next t ∧ t.out = p :: full.out ∧ p.extractLsb' 0 8 = 0x11 :=
  ⟨⟨_, _, rfl, rfl, by decide⟩, ⟨_, _, rfl, rfl, by decide⟩, _, _, rfl, rfl, by decide⟩

/-- A command that writes each context. -/
theorem test_hyp_EveryContextHasItsWriters :
    (∃ t, exec (.new 3 8) small = .next t ∧ t.pv.vec.n ≠ small.pv.vec.n ∧ t.ri.valid ≠ small.ri.valid) ∧
    (∃ t, exec (.setbit 20 1) small = .next t ∧ t.pv ≠ small.pv) ∧
    (∃ t, exec .itnext small = .next t ∧ t.it.front ≠ small.it.front) ∧
    (∃ t, exec .itprev small = .next t ∧ t.it.back ≠ small.it.back) ∧
    ∃ t, exec (.build 0) small = .next t ∧ t.ri.src ≠ small.ri.src :=
  ⟨⟨_, rfl, by decide, by decide⟩, ⟨_, rfl, by decide⟩, ⟨_, rfl, by decide⟩, ⟨_, rfl, by decide⟩, _, rfl,
    by decide⟩

/-- Each branch at its boundary, every earlier check passed: `k` at 8 and 9, the product at 2^64, the word count
at 2^32, and over a capacity of 4. -/
theorem test_hyp_NewConstructsOrReports : State.reset.cs.halt = false ∧ State.reset.cfg.W < (9 : U64).toNat ∧
    ¬ State.reset.cfg.W < (8 : U64).toNat ∧ 2 ^ 64 ≤ (0x2000000000000000 : U64).toNat * (8 : U64).toNat ∧
    2 ^ State.reset.cfg.aw - 1 < cdiv ((0x100000000 : U64).toNat * (8 : U64).toNat) State.reset.cfg.W ∧
    4 < cdiv ((33 : U64).toNat * (1 : U64).toNat) State.reset.cfg.W ∧
    ¬ 4 < cdiv ((32 : U64).toNat * (1 : U64).toNat) State.reset.cfg.W := by decide

theorem test_hyp_ElementsOfANewVectorReadZero :
    small.cs.halt = false ∧ constructible small.cfg (3 : U64).toNat (7 : U64).toNat ∧
      (6 : U64).toNat < (7 : U64).toNat := by decide

/-- Without a vector, with one, and with one of no elements. -/
theorem test_hyp_LenAndIsemptyAnswerTheCount :
    State.reset.cs.halt = false ∧ State.reset.pv.valid = false ∧ small.cs.halt = false ∧ small.pv.valid = true ∧
    (after [.new 3 0] small).cs.halt = false ∧ (after [.new 3 0] small).pv.vec.n = 0 := by decide

/-- The last element and the first index past it. -/
theorem test_hyp_GetAnswersTheElement :
    small.Inv ∧ small.cs.halt = false ∧ small.pv.valid = true ∧ ¬ small.pv.vec.n ≤ (6 : U64).toNat ∧
      small.pv.vec.n ≤ (7 : U64).toNat := ⟨small_inv, by decide⟩

/-- The last element and the greatest value of three bits. -/
theorem test_hyp_SetReplacesOneElement :
    small.Inv ∧ small.cs.halt = false ∧ small.pv.valid = true ∧ (6 : U64).toNat < small.pv.vec.n ∧
      (7 : U64).toNat < 2 ^ small.pv.vec.k := ⟨small_inv, by decide⟩

/-- The first index past the elements, and the first value of four bits. -/
theorem test_hyp_SetChecksTheIndexThenTheValue :
    small.cs.halt = false ∧ small.pv.valid = true ∧ small.pv.vec.n ≤ (7 : U64).toNat ∧
    (6 : U64).toNat < small.pv.vec.n ∧ 2 ^ small.pv.vec.k ≤ (8 : U64).toNat ∧ small.cfg.dbg = true := by decide

theorem test_hyp_OverwideSetKeepsTheOtherBits :
    loose.Inv ∧ loose.cs.halt = false ∧ loose.pv.valid = true ∧ (6 : U64).toNat < loose.pv.vec.n ∧
      2 ^ loose.pv.vec.k ≤ (8 : U64).toNat ∧ loose.cfg.dbg = false := ⟨loose_inv, by decide⟩

/-- An element set, an index past the elements, and a list of sets with an element set twice. -/
theorem test_hyp_GetAfterSet :
    (∀ o ∈ ([(6, 7), (0, 1), (6, 2)] : List (U64 × U64)),
      o.1.toNat < small.pv.vec.n ∧ o.2.toNat < 2 ^ small.pv.vec.k) ∧
    small.Inv ∧ small.cs.halt = false ∧ small.pv.valid = true ∧ (6 : U64).toNat < small.pv.vec.n ∧
      (7 : U64).toNat < 2 ^ small.pv.vec.k ∧ small.pv.vec.n ≤ (7 : U64).toNat := by
  refine ⟨?_, small_inv, by decide⟩
  rw [show small.pv.vec.n = 7 by decide, show small.pv.vec.k = 3 by decide]
  simp

/-- The last bit of the last element. -/
theorem test_hyp_GetbitAnswersTheFlatBit :
    small.Inv ∧ small.cs.halt = false ∧ small.pv.valid = true ∧
      (20 : U64).toNat < small.pv.vec.n * small.pv.vec.k := ⟨small_inv, by decide⟩

/-- The first padding bit. -/
theorem test_hyp_GetbitBeyondTheElementsAnswersSomeBit :
    small.cs.halt = false ∧ small.pv.valid = true ∧ small.pv.vec.n * small.pv.vec.k ≤ (21 : U64).toNat := by decide

theorem test_hyp_SetbitReplacesOneBit :
    small.Inv ∧ small.cs.halt = false ∧ small.pv.valid = true ∧ (1 : U64).toNat ≤ 1 ∧
      (20 : U64).toNat < small.pv.vec.n * small.pv.vec.k := ⟨small_inv, by decide⟩

/-- The last padding bit, and the first position past the last word. -/
theorem test_hyp_SetbitBeyondTheElementsCompletes :
    small.Inv ∧ small.cs.halt = false ∧ small.pv.valid = true ∧ (1 : U64).toNat ≤ 1 ∧
      small.pv.vec.n * small.pv.vec.k ≤ (23 : U64).toNat ∧
      (23 : U64).toNat < small.pv.vec.mem.count * small.cfg.W ∧
      ¬ (24 : U64).toNat < small.pv.vec.mem.count * small.cfg.W := ⟨small_inv, by decide⟩

theorem test_hyp_PaddingStaysZero :
    small.Inv ∧ small.paddingZero ∧ small.admits (.setbit 20 1) ∧ meetsPrecondition small (.setbit 20 1) ∧
      ∃ t, exec (.setbit 20 1) small = .next t := by
  refine ⟨small_inv, fun _ pos h1 h2 => ?_,
    ⟨by decide, by decide, show ¬ small.pv.valid = false by decide⟩,
    fun _ => show (20 : U64).toNat < small.pv.vec.bitLength by decide, _, rfl⟩
  have h1 : 21 ≤ pos := h1
  have h2 : pos < 24 := h2
  obtain rfl | rfl | rfl : pos = 21 ∨ pos = 22 ∨ pos = 23 := by omega
  all_goals decide

/-- The greatest numeral, a list with it, and a valid vector. -/
theorem test_hyp_RenderingListsTheElements :
    2 ^ 64 - 1 < 2 ^ 64 ∧ (∀ x ∈ [0, 10, 2 ^ 64 - 1], x < 2 ^ 64) ∧ small.pv.vec.wf small.cfg := by decide

/-- Each branch. -/
theorem test_hyp_IterStartsOver : State.reset.cs.halt = false ∧ State.reset.pv.valid = false ∧
    small.cs.halt = false ∧ small.pv.valid = true := by decide

/-- An iterator that is exhausted, with no element consumed and with all of them. -/
def exhausted : State := after [.itskip 7] small

theorem exhausted_inv : exhausted.Inv :=
  inv_of (by decide) (by decide) (by decide) (by decide) (by decide) (by decide) rfl

/-- No iterator, elements left, none left. -/
theorem test_hyp_ItnextConsumesTheFront :
    loose.Inv ∧ loose.cs.halt = false ∧ loose.it.valid = false ∧ small.Inv ∧ small.cs.halt = false ∧
      small.it.valid = true ∧ small.it.front ≠ small.it.back ∧ exhausted.Inv ∧ exhausted.cs.halt = false ∧
      exhausted.it.valid = true ∧ exhausted.it.front = exhausted.it.back :=
  ⟨loose_inv, by decide, by decide, small_inv, by decide, by decide, by decide, exhausted_inv, by decide⟩

/-- No iterator, elements left, none left. -/
theorem test_hyp_ItprevConsumesTheBack :
    loose.Inv ∧ loose.cs.halt = false ∧ loose.it.valid = false ∧ small.Inv ∧ small.cs.halt = false ∧
      small.it.valid = true ∧ small.it.front ≠ small.it.back ∧ exhausted.Inv ∧ exhausted.cs.halt = false ∧
      exhausted.it.valid = true ∧ exhausted.it.front = exhausted.it.back :=
  ⟨loose_inv, by decide, by decide, small_inv, by decide, by decide, by decide, exhausted_inv, by decide⟩

/-- A skip that reaches the end exactly, one more, and the greatest. -/
theorem test_hyp_ItskipSaturates :
    loose.cs.halt = false ∧ loose.it.valid = false ∧ small.cs.halt = false ∧ small.it.valid = true ∧
      small.it.front + (7 : U64).toNat ≤ small.it.back ∧ ¬ small.it.front + (8 : U64).toNat ≤ small.it.back ∧
      ¬ small.it.front + (0xFFFFFFFFFFFFFFFF : U64).toNat ≤ small.it.back := by decide

/-- Three from the front and four from the back: all seven. -/
theorem test_hyp_IterationProducesTheElements :
    small.Inv ∧ small.cs.halt = false ∧ small.pv.valid = true ∧ 3 + 4 ≤ small.pv.vec.n ∧ 3 + 4 = small.pv.vec.n :=
  ⟨small_inv, by decide⟩

/-- ITER sets the valid bit, NEW and reset clear it. -/
theorem test_hyp_IteratorValidity :
    (∃ t, exec .iter loose = .next t ∧ loose.it.valid = false ∧ t.it.valid = true ∧ t.completed) ∧
    (∃ t, exec (.new 3 7) small = .next t ∧ small.it.valid = true ∧ t.it.valid = false ∧ t.completed) ∧
    ∃ t, step { small with input := [.reset] } = .next t ∧ small.it.valid = true ∧ t.it.valid = false :=
  ⟨⟨_, rfl, by decide⟩, ⟨_, rfl, by decide⟩, _, rfl, by decide⟩

/-- A source that is not well formed (20 bits announced, four words shown), every entry of which fits. -/
def illFormed : State := State.afterReset resetConfig { bitLen := 20, mem := { count := 4, cells := [(0, 0x80)] } }

theorem illFormed_inv : illFormed.Inv :=
  inv_of (by decide) (by decide) (by decide) (by decide) (by decide) (by decide) rfl

/-- One word for 17 bits, and an address width that a table of two words exceeds. -/
def narrow : State :=
  State.afterReset { resetConfig with aw := 1, cap := 1 } { bitLen := 17, mem := { count := 1, cells := [] } }

theorem narrow_inv : narrow.Inv :=
  inv_of (by decide) (by decide) (by decide) (by decide) (by decide) (by decide) rfl

/-- 95 V9f: a capacity of three words, where SR needs four. -/
def tight : State :=
  State.afterReset { resetConfig with cap := 3 } { bitLen := 32, mem := { count := 4, cells := [] } }

theorem tight_inv : tight.Inv :=
  inv_of (by decide) (by decide) (by decide) (by decide) (by decide) (by decide) rfl

/-- 95 V9f. -/
theorem test_build_capacity : (after [.build 0] tight).newestCode = some 0x04 ∧
    (after [.build 0] narrow).newestCode = some 0x03 := by decide

/-- Each outcome: either table cannot be made, an entry does not fit with DBG = 1, all fit. -/
theorem test_hyp_BuildAnswersTheFirstFailure :
    narrow.Inv ∧ tableFailure narrow.cfg (narrow.source .ext) = some .addressOverflow ∧
    tight.Inv ∧ tableFailure tight.cfg (tight.source .ext) = some .capacityExceeded ∧
    full.Inv ∧ tableFailure full.cfg (full.source .ext) = none ∧
      (full.cfg.dbg = true ∧ ¬ entriesFit full.cfg.W (full.source .ext)) ∧
    illFormed.Inv ∧ tableFailure illFormed.cfg (illFormed.source .ext) = none ∧
      entriesFit illFormed.cfg.W (illFormed.source .ext) ∧
    operandSource 0 = some .ext ∧
    ∀ s ∈ [narrow, tight, full, illFormed], s.cs.halt = false ∧ s.sourceExists .ext = true :=
  ⟨narrow_inv, by decide, tight_inv, by decide, full_inv, by decide, by decide, illFormed_inv, by decide⟩

/-- Either source, a source that is not well formed, and a block that does not check values. -/
theorem test_hyp_BuildMakesTheIndex :
    (illFormed.Inv ∧ illFormed.cs.halt = false ∧ (0 : U64).toNat = 0 ∧
      ¬ (illFormed.source .ext).wellFormed illFormed.cfg.W ∧
      tablesConstructible illFormed.cfg (illFormed.source .ext) ∧
      entriesFit illFormed.cfg.W (illFormed.source .ext)) ∧
    (loose.Inv ∧ loose.cs.halt = false ∧ (1 : U64).toNat = 1 ∧ loose.pv.valid = true ∧
      tablesConstructible loose.cfg (loose.source .pv) ∧ loose.cfg.dbg = false) ∧
    (small.Inv ∧ small.cs.halt = false ∧ (1 : U64).toNat = 1 ∧ small.pv.valid = true ∧
      (small.source .pv).wellFormed small.cfg.W ∧ tablesConstructible small.cfg (small.source .pv) ∧
      ¬ sentinelOverflows small.cfg.W (small.source .pv)) ∧
    (ext.Inv ∧ ext.cs.halt = false ∧ (0 : U64).toNat = 0 ∧ (ext.source .ext).wellFormed ext.cfg.W ∧
      tablesConstructible ext.cfg (ext.source .ext) ∧ ¬ sentinelOverflows ext.cfg.W (ext.source .ext)) :=
  ⟨⟨illFormed_inv, by decide⟩, ⟨loose_inv, by decide⟩, ⟨small_inv, by decide⟩, ext_inv, by decide⟩

/-- Every entry of `ext`'s tables fits, the sentinels among them; word 2 is the last. -/
theorem test_hyp_TablesInClosedForm :
    ext.Inv ∧ ext.cs.halt = false ∧ operandSource 0 = some .ext ∧
    ∃ t, exec (.build 0) ext = .next t ∧ t.completed ∧
      (∀ j, j < 1 → ext.xs.mem.onesBeforeWord 8 (j * 4) < 2 ^ t.ri.lr.k) ∧
      ext.xs.mem.onesBeforeWord 8 3 < 2 ^ t.ri.lr.k ∧
      (∀ w, w < 3 → ext.xs.mem.onesBeforeWord 8 w - ext.xs.mem.onesBeforeWord 8 (w / 4 * 4) < 2 ^ t.ri.sr.k) ∧
      smallPerLarge 8 20 = 4 ∧ cdiv 3 4 = 1 ∧ t.ri.lr.n = 2 ∧ t.ri.sr.n = 4 :=
  ⟨ext_inv, by decide, by decide, _, rfl, by decide, by decide, by decide, by decide, by decide⟩

/-- The last position of `ext`, whose index `extBuilt` holds. -/
theorem test_hyp_RankIsTheInclusiveCount :
    ext.Inv ∧ ext.cs.halt = false ∧ operandSource 0 = some .ext ∧ (ext.source .ext).wellFormed ext.cfg.W ∧
    (∃ t, exec (.build 0) ext = .next t ∧ t.completed ∧ extBuilt.ri = t.ri) ∧ extBuilt.cfg = ext.cfg ∧
    extBuilt.source .ext = ext.source .ext ∧ extBuilt.cs.halt = false ∧
    (19 : U64).toNat < (ext.source .ext).bitLen ∧ (3 : Nat) < 4 :=
  ⟨ext_inv, by decide, by decide, by decide, ⟨_, rfl, by decide, by decide⟩, by decide⟩

/-- The last position within the precondition. -/
theorem test_hyp_RankAddsThreeTerms :
    small.Inv ∧ small.cs.halt = false ∧ small.ri.valid = true ∧
      rankDefined small.cfg.W small.ri (small.source small.ri.src) (20 : U64).toNat := ⟨small_inv, by decide⟩

/-- The first position beyond it. -/
theorem test_hyp_RankBeyondTheSourceRaisesNothing :
    small.cs.halt = false ∧ small.ri.valid = true ∧ small.ri.builtLen ≤ (21 : U64).toNat := by decide

/-- The last bit of a word. -/
theorem test_hyp_InWordTermIsInclusive : 0x8001 < 2 ^ (straps .w16 true).W ∧ 15 < (straps .w16 true).W := by decide

/-- The longest source a block of 8-bit words takes, and one bit more. -/
theorem test_hyp_BuildRefusesALongSource :
    (after [.new 1 256] small).cs.halt = false ∧ operandSource 1 = some .pv ∧
    (after [.new 1 256] small).sourceExists .pv = true ∧
    ¬ 2 ^ small.cfg.W < ((after [.new 1 256] small).source .pv).bitLen ∧
    2 ^ small.cfg.W < ((after [.new 1 257] small).source .pv).bitLen ∧
    (after [.new 1 257] small).cs.halt = false ∧ (after [.new 1 257] small).sourceExists .pv = true ∧
    State.Inv (after [.new 1 257] small) ∧ State.Inv (after [.new 1 256] small) :=
  ⟨by decide, by decide, by decide, by decide, by decide, by decide, by decide,
    inv_of (by decide) (by decide) (by decide) (by decide) (by decide) (by decide) rfl,
    inv_of (by decide) (by decide) (by decide) (by decide) (by decide) (by decide) rfl⟩

theorem test_hyp_SentinelOverflowHaltsBuild :
    full.Inv ∧ full.cs.halt = false ∧ full.cfg.dbg = true ∧ operandSource 0 = some .ext ∧
    full.sourceExists .ext = true ∧ tablesConstructible full.cfg (full.source .ext) ∧
    sentinelOverflows full.cfg.W (full.source .ext) := ⟨full_inv, by decide⟩

/-- 95 V9e: three all-ones words of 64 bits; the small sentinel is one whose slot is too small. -/
theorem test_hyp_EntriesThatFit :
    let src : Source := { bitLen := 192, mem := { count := 3, cells :=
      [(0, 0xFFFFFFFFFFFFFFFF), (1, 0xFFFFFFFFFFFFFFFF), (2, 0xFFFFFFFFFFFFFFFF)] } }
    src.wf (straps .w64 true) ∧ src.wellFormed 64 ∧
      2 ^ smallWidth 64 src.bitLen ≤ smallTotal 64 src.mem (smallPerLarge 64 src.bitLen) := by decide

/-- The second set bit of `ext` is at position 16 and its second clear bit at 2; it has five set bits and 15 clear
ones. The elements of `small` are 0, 0, 5, 0, 0, 0, 0: the only 5 is element 2, the third 0 element 3. -/
theorem test_hyp_SelectContractIsAFunction :
    selectsOne 8 ext.xs 1 16 ∧ selectsZero 8 ext.xs 1 2 ∧ selectOneNotFound 8 ext.xs 5 ∧
      ¬ selectOneNotFound 8 ext.xs 4 ∧ selectZeroNotFound 8 ext.xs 15 ∧ ¬ selectZeroNotFound 8 ext.xs 14 ∧
      selectsValue (small.pv.vec.element 8) small.pv.vec.n 5 0 2 ∧
      selectsValue (small.pv.vec.element 8) small.pv.vec.n 0 2 3 ∧
      selectValueNotFound (small.pv.vec.element 8) small.pv.vec.n 5 1 := by
  unfold selectsOne selectsZero selectOneNotFound selectZeroNotFound selectsValue selectValueNotFound
  decide

theorem test_hyp_NoFreeValueWithinTheContract :
    small.Inv ∧ small.admits (.rank 20) ∧ meetsPrecondition small (.rank 20) ∧
      ∃ t, exec (.rank 20) small = .next t :=
  ⟨small_inv, ⟨by decide, by decide, show ¬ small.ri.valid = false by decide⟩, fun _ => show rankDefined small.cfg.W small.ri (small.source small.ri.src) (20 : U64).toNat by decide, _, rfl⟩

/-- A SET, and a BUILD with DBG = 1 over a source whose entries fit. -/
theorem test_hyp_CarefulHostsNeverHalt :
    (ext.admits (.build 0) ∧ staysRunning ext (.build 0) ∧ ext.cfg.dbg = true) ∧
    small.Inv ∧ small.cs.halt = false ∧ small.admits (.set 6 7) ∧ staysRunning small (.set 6 7) ∧
      ∃ t, exec (.set 6 7) small = .next t :=
  ⟨⟨⟨by decide, by decide, show ¬ ((0 : U64).toNat = 1 ∧ ext.pv.valid = false) by decide⟩,
      fun _ => .inr fun src h _ => by cases h; decide, by decide⟩,
    small_inv, by decide, ⟨by decide, by decide, show ¬ small.pv.valid = false by decide⟩, fun _ => show (6 : U64).toNat < small.pv.vec.n ∧ (small.cfg.dbg = true →
    (7 : U64).toNat < 2 ^ small.pv.vec.k) by decide, _, rfl⟩

/-- A field with a position before it, and the last position, which is after it. -/
theorem test_hyp_FieldLaws : 0xB4 < 2 ^ resetConfig.W ∧ 5 + 2 ≤ resetConfig.W ∧ 7 < resetConfig.W ∧
    4 < 5 ∧ 5 + 2 ≤ 7 := by decide

theorem test_hyp_CountsOfAWord : 0x34 < 2 ^ resetConfig.W ∧ 0 < 0x34 ∧ 1 < leadingZeros resetConfig.W 0x34 ∧
    2 ≤ 2 ^ 64 := by decide

end Sys2Proof.Tests
end

section
/-! PROOFS. The state and what every step keeps: the straps and the source, the halt, the writers of each
context, the invariant, the padding, and what stands behind a cleared valid bit. -/

namespace Sys2Proof.Machine

variable {s s' t u : State} {i : Instr}

/-! ## What a command does besides its response -/

/-- What a command does before it responds (10 R36, "written by"): each constructor is one way a command can
change the contexts, with the facts of the command's own checks that decide it. -/
inductive Effect (s : State) : Instr → State → Prop
  /-- Nothing: the command only answers, or one of its checks refused it. -/
  | keep (i : Instr) : Effect s i s
  /-- GETBIT and RANK outside their preconditions use up a free value. -/
  | draw (i : Instr) : Effect s i { s with draws := s.draws + 1 }
  | construct {k n : U64} (hc : constructible s.cfg k.toNat n.toNat) :
      Effect s (.new k n) (s.installVector (Vec.zeros s.cfg.W k.toNat n.toNat))
  | setElement {idx value : U64} {v : Vec} {d : Nat} (hv : s.pv.valid = true)
      (hw : vset s.cfg s.pv.vec idx.toNat value.toNat s.draws = .ok (v, d)) :
      Effect s (.set idx value) { s.setVec v with draws := d }
  | setBit {pos b : U64} {v : Vec} (hv : s.pv.valid = true) (hp : pos.toNat < s.pv.vec.bitLength)
      (hw : vsetbit s.cfg.W s.pv.vec pos.toNat (decide (b.toNat = 1)) = .ok v) :
      Effect s (.setbit pos b) (s.setVec v)
  /-- SETBIT outside its precondition (93 U2). -/
  | strayBit {pos b : U64} {u : State} (ha : s.admits (.setbit pos b)) (hv : s.pv.valid = true)
      (hp : s.pv.vec.bitLength ≤ pos.toNat) (hw : s.strayBitWrite pos.toNat = .ok u) :
      Effect s (.setbit pos b) u
  | restart (hv : s.pv.valid = true) :
      Effect s .iter { s with it := { valid := true, front := 0, back := s.pv.vec.n } }
  | stepFront (hv : s.it.valid = true) (hne : s.it.front ≠ s.it.back) :
      Effect s .itnext { s with it := { s.it with front := s.it.front + 1 } }
  | stepBack (hv : s.it.valid = true) (hne : s.it.front ≠ s.it.back) :
      Effect s .itprev { s with it := { s.it with back := s.it.back - 1 } }
  | skip {m : U64} (hv : s.it.valid = true) :
      Effect s (.itskip m) { s with it := { s.it with front := min (s.it.front + m.toNat) s.it.back } }
  | build {sel : U64} {src : SourceSel} {ri : RankIndex} {d : Nat} (hx : s.sourceExists src = true)
      (hb : buildIndex s.cfg src (s.source src) s.draws = .ok (ri, d)) :
      Effect s (.build sel) { s with ri := ri, draws := d }
  /-- A BUILD that fails once begun leaves no index (60 R192). -/
  | dropIndex (sel : U64) : Effect s (.build sel) s.withoutIndex

/-- The commands that an indexing fault can end, with what is known of the state when it does (60 R193). -/
inductive Faults (s : State) : Instr → Prop
  | get (idx : U64) : Faults s (.get idx)
  | set (idx value : U64) : Faults s (.set idx value)
  | front (hv : s.it.valid = true) (hne : s.it.front ≠ s.it.back) (hn : s.pv.vec.n ≤ s.it.front) :
      Faults s .itnext
  | back (hv : s.it.valid = true) (hne : s.it.front ≠ s.it.back) (hn : s.pv.vec.n ≤ s.it.back - 1) :
      Faults s .itprev
  | build (sel : U64) : Faults s (.build sel)
  | rank {position : U64} (hv : s.ri.valid = true)
      (hd : rankDefined s.cfg.W s.ri (s.source s.ri.src) position.toNat)
      (hx : exec (.rank position) s = .next (s.raise .indexOutOfRange)) : Faults s (.rank position)

/-- A command that began in the first state ends, from the second, with one response more: OK, or a raised code
with the halt that an indexing fault takes. -/
inductive Answered (s : State) (i : Instr) (u : State) : State → Prop
  | ok (r : Option Nat) : Answered s i u (u.answer .ok r)
  | raised (e : StatusCode) (hf : e.cls = .indexingFault → Faults s i) : Answered s i u (u.raise e)

/-- A response changes none of the contexts PV, IT and RI. -/
theorem Answered.frame (h : Answered s i u t) : t.pv = u.pv ∧ t.it = u.it ∧ t.ri = u.ri := by
  cases h with
  | ok r => exact ⟨rfl, rfl, rfl⟩
  | raised e => exact ⟨State.raise_pv u e, State.raise_it u e, State.raise_ri u e⟩

/-- Every command is one effect and then one response. -/
theorem exec_effect (h : exec i s = .next t) : ∃ u, Effect s i u ∧ Answered s i u t := by
  cases i
  case new k n =>
    rcases execNew_next h with ⟨-, rfl⟩ | ⟨-, ⟨e, he, -, rfl⟩ | ⟨hc, rfl⟩⟩
    · exact ⟨s, .keep _, .raised _ nofun⟩
    · exact ⟨s, .keep _, .raised _ fun hf => by rw [he] at hf; cases hf⟩
    · exact ⟨_, .construct hc, .ok _⟩
  case len =>
    rcases execLen_next h with ⟨-, rfl⟩ | ⟨-, ⟨-, rfl⟩ | ⟨-, rfl⟩⟩
    · exact ⟨s, .keep _, .raised _ nofun⟩
    · exact ⟨s, .keep _, .raised _ nofun⟩
    · exact ⟨s, .keep _, .ok _⟩
  case isempty =>
    rcases execIsempty_next h with ⟨-, rfl⟩ | ⟨-, ⟨-, rfl⟩ | ⟨-, rfl⟩⟩
    · exact ⟨s, .keep _, .raised _ nofun⟩
    · exact ⟨s, .keep _, .raised _ nofun⟩
    · exact ⟨s, .keep _, .ok _⟩
  case get idx =>
    rcases execGet_next h with ⟨-, rfl⟩ | ⟨-, ⟨-, rfl⟩ | ⟨-, -, rfl⟩ | ⟨-, x, -, rfl⟩⟩
    · exact ⟨s, .keep _, .raised _ nofun⟩
    · exact ⟨s, .keep _, .raised _ nofun⟩
    · exact ⟨s, .keep _, .raised _ fun _ => .get idx⟩
    · exact ⟨s, .keep _, .ok _⟩
  case set idx value =>
    rcases execSet_next h with
      ⟨-, rfl⟩ | ⟨-, ⟨-, rfl⟩ | ⟨-, -, rfl⟩ | ⟨-, -, -, rfl⟩ | ⟨hv, v, d, hw, rfl⟩⟩
    · exact ⟨s, .keep _, .raised _ nofun⟩
    · exact ⟨s, .keep _, .raised _ nofun⟩
    · exact ⟨s, .keep _, .raised _ fun _ => .set idx value⟩
    · exact ⟨s, .keep _, .raised _ fun _ => .set idx value⟩
    · exact ⟨_, .setElement hv hw, .ok _⟩
  case getbit pos =>
    rcases execGetbit_next h with ⟨-, rfl⟩ | ⟨-, ⟨-, rfl⟩ | ⟨-, -, b, -, rfl⟩ | ⟨-, -, rfl⟩⟩
    · exact ⟨s, .keep _, .raised _ nofun⟩
    · exact ⟨s, .keep _, .raised _ nofun⟩
    · exact ⟨s, .keep _, .ok _⟩
    · exact ⟨_, .draw _, .ok _⟩
  case setbit pos b =>
    rcases execSetbit_next h with ⟨-, rfl⟩ |
      ⟨hr, ⟨-, rfl⟩ | ⟨-, -, rfl⟩ | ⟨-, hv, hp, v, hw, rfl⟩ | ⟨hb, hv, hp, u, hw, rfl⟩⟩
    · exact ⟨s, .keep _, .raised _ nofun⟩
    · exact ⟨s, .keep _, .raised _ nofun⟩
    · exact ⟨s, .keep _, .raised _ nofun⟩
    · exact ⟨_, .setBit hv hp hw, .ok _⟩
    · have ha : s.admits (.setbit pos b) :=
        ⟨hr, decide_eq_true hb, fun hm : s.pv.valid = false => by simp [hv] at hm⟩
      exact ⟨u, .strayBit ha hv hp hw, .ok _⟩
  case iter =>
    rcases execIter_next h with ⟨-, rfl⟩ | ⟨-, ⟨-, rfl⟩ | ⟨hv, rfl⟩⟩
    · exact ⟨s, .keep _, .raised _ nofun⟩
    · exact ⟨s, .keep _, .raised _ nofun⟩
    · exact ⟨_, .restart hv, .ok _⟩
  case itnext =>
    rcases execItnext_next h with
      ⟨-, rfl⟩ | ⟨-, ⟨-, rfl⟩ | ⟨-, -, rfl⟩ | ⟨hv, hne, hn, rfl⟩ | ⟨hv, hne, x, -, rfl⟩⟩
    · exact ⟨s, .keep _, .raised _ nofun⟩
    · exact ⟨s, .keep _, .raised _ nofun⟩
    · exact ⟨s, .keep _, .ok _⟩
    · exact ⟨s, .keep _, .raised _ fun _ => .front hv hne hn⟩
    · exact ⟨_, .stepFront hv hne, .ok _⟩
  case itprev =>
    rcases execItprev_next h with
      ⟨-, rfl⟩ | ⟨-, ⟨-, rfl⟩ | ⟨-, -, rfl⟩ | ⟨hv, hne, hn, rfl⟩ | ⟨hv, hne, x, -, rfl⟩⟩
    · exact ⟨s, .keep _, .raised _ nofun⟩
    · exact ⟨s, .keep _, .raised _ nofun⟩
    · exact ⟨s, .keep _, .ok _⟩
    · exact ⟨s, .keep _, .raised _ fun _ => .back hv hne hn⟩
    · exact ⟨_, .stepBack hv hne, .ok _⟩
  case itskip m =>
    rcases execItskip_next h with ⟨-, rfl⟩ | ⟨-, ⟨-, rfl⟩ | ⟨hv, rfl⟩⟩
    · exact ⟨s, .keep _, .raised _ nofun⟩
    · exact ⟨s, .keep _, .raised _ nofun⟩
    · exact ⟨_, .skip hv, .ok _⟩
  case build sel =>
    rcases execBuild_next h with
      ⟨-, rfl⟩ | ⟨-, ⟨-, rfl⟩ | ⟨src, -, ⟨-, rfl⟩ | ⟨-, e, -, rfl⟩ | ⟨hx, ri, d, hb, rfl⟩⟩⟩
    · exact ⟨s, .keep _, .raised _ nofun⟩
    · exact ⟨s, .keep _, .raised _ nofun⟩
    · exact ⟨s, .keep _, .raised _ nofun⟩
    · exact ⟨_, .dropIndex sel, .raised _ fun _ => .build sel⟩
    · exact ⟨_, .build hx hb, .ok _⟩
  case rank position =>
    rcases execRank_next h with ⟨-, rfl⟩ | ⟨-, ⟨-, rfl⟩ | ⟨hv, hd, rfl | ⟨r, -, rfl⟩⟩ | ⟨-, -, rfl⟩⟩
    · exact ⟨s, .keep _, .raised _ nofun⟩
    · exact ⟨s, .keep _, .raised _ nofun⟩
    · exact ⟨s, .keep _, .raised _ fun _ => .rank hv hd h⟩
    · exact ⟨s, .keep _, .ok _⟩
    · exact ⟨_, .draw _, .ok _⟩
  all_goals
    rcases State.answerIllegal_next h with ⟨-, rfl⟩ | ⟨-, rfl⟩
    · exact ⟨s, .keep _, .raised _ nofun⟩
    · exact ⟨s, .keep _, .raised _ nofun⟩

/-! ## Rewritings of a valid vector -/

/-- A SET that has a result rewrites the flat bits of one element. -/
theorem vset_rewritten {c : Config} {v v' : Vec} {idx value d d' : Nat} (h : v.wf c)
    (hw : vset c v idx value d = .ok (v', d')) :
    idx < v.n ∧ ∃ x, Rewritten c v v' (fieldBits c.W v (idx * v.k) v.k x) := by
  rcases vset_cases h idx value d with ⟨-, e⟩ | ⟨-, -, -, e⟩ | ⟨hn, -, w, e, r⟩ | ⟨hn, -, -, w, e, r⟩ <;>
    rw [e] at hw <;> cases hw
  · exact ⟨hn, _, r⟩
  · exact ⟨hn, _, r⟩

/-- A SETBIT inside the elements rewrites one flat bit. -/
theorem vsetbit_rewritten {c : Config} {v v' : Vec} {pos : Nat} {b : Bool} (h : v.wf c)
    (hp : pos < v.bitLength) (hw : vsetbit c.W v pos b = .ok v') :
    Rewritten c v v' (fieldBits c.W v pos 1 b.toNat) := by
  have hin : pos < v.mem.count * c.W := lt_of_lt_of_le hp (Vec.bits_le h)
  obtain ⟨-, -, -, -, -, -, hm⟩ := h
  obtain ⟨w, e, r⟩ := vsetbit_eq hm hin b
  rw [e] at hw
  cases hw
  exact r

/-- A field that ends within the elements leaves the padding as it was. -/
theorem Rewritten.flatBit_padding {c : Config} {v v' : Vec} {start len x pos : Nat}
    (r : Rewritten c v v' (fieldBits c.W v start len x)) (hend : start + len ≤ v.bitLength)
    (hp : v.bitLength ≤ pos) : v'.mem.flatBit c.W pos = v.mem.flatBit c.W pos := by
  rw [r.bits, fieldBits, if_neg (by omega)]

/-- An element ends within the elements. -/
theorem Vec.element_end_le {v : Vec} {idx : Nat} (h : idx < v.n) : idx * v.k + v.k ≤ v.bitLength := by
  have := Nat.mul_le_mul_right v.k h
  rwa [Nat.succ_mul] at this

/-- A SETBIT inside the store keeps the shape of the vector. -/
theorem vsetbit_frame {W : Nat} {v v' : Vec} {pos : Nat} {b : Bool} (h : vsetbit W v pos b = .ok v') :
    v'.k = v.k ∧ v'.n = v.n ∧ v'.mem.count = v.mem.count := by
  unfold vsetbit at h
  obtain ⟨w, -, h⟩ := Run.bind_ok h
  obtain ⟨m, hm, h⟩ := Run.bind_ok h
  cases h
  unfold Memory.write at hm
  split at hm <;> cases hm
  exact ⟨rfl, rfl, rfl⟩

/-- A build that has a result leaves an index built from its source. -/
theorem buildIndex_builtFrom {c : Config} {sel : SourceSel} {src : Source} {d d' : Nat} {ri : RankIndex}
    (hlen : src.bitLen < 2 ^ 64) (h : buildIndex c sel src d = .ok (ri, d')) : BuiltFrom c sel src ri := by
  rcases buildIndex_cases sel d hlen with ⟨_, -, -, e⟩ | ⟨-, -, -, e⟩ | ⟨ri', d'', e, hb, -⟩ <;>
    rw [e] at h <;> cases h
  exact hb

/-! ## What no step changes -/

/-- Settles O8, over the five things a step can do. -/
theorem strapsAndSourceAreReadOnly : Obligations.StrapsAndSourceAreReadOnly := by
  intro s t h
  rcases step_next h with ⟨-, rfl⟩ | ⟨e, rest, hin,
    ⟨p, i, -, -, hx⟩ | ⟨p, d, -, -, hx⟩ | ⟨-, rfl⟩ | ⟨xs, rfl, rfl⟩⟩
  · exact ⟨rfl, .inl rfl⟩
  · obtain ⟨hcfg, hxs, -⟩ := exec_frame hx
    exact ⟨hcfg, .inl hxs⟩
  · rcases State.answerIllegal_next hx with ⟨-, rfl⟩ | ⟨-, rfl⟩ <;> exact ⟨by simp, .inl (by simp)⟩
  · exact ⟨rfl, .inl rfl⟩
  · exact ⟨rfl, .inr ⟨xs, rest, hin, rfl⟩⟩

/-! ## The writers of each context (10 R36) -/

/-- What a stray bit write keeps: every context but the words of PV. -/
theorem State.strayBitWrite_contexts {pos : Nat} (h : s.strayBitWrite pos = .ok u) :
    u.pv.valid = s.pv.valid ∧ u.pv.vec.k = s.pv.vec.k ∧ u.pv.vec.n = s.pv.vec.n ∧
      u.pv.vec.mem.count = s.pv.vec.mem.count ∧ u.it = s.it ∧ u.ri = s.ri := by
  obtain ⟨v, hk, hn, hc, rfl⟩ := State.strayBitWrite_frame h
  exact ⟨rfl, hk, hn, hc, rfl, rfl⟩

/-- Which effects write which context. -/
theorem Effect.writers (h : Effect s i u) :
    ((u.pv.valid ≠ s.pv.valid ∨ u.pv.vec.k ≠ s.pv.vec.k ∨ u.pv.vec.n ≠ s.pv.vec.n ∨
      u.pv.vec.mem.count ≠ s.pv.vec.mem.count) → ∃ k n, i = .new k n) ∧
    (u.pv ≠ s.pv → (∃ k n, i = .new k n) ∨ (∃ k v, i = .set k v) ∨ ∃ p v, i = .setbit p v) ∧
    (u.it.front ≠ s.it.front → i = .iter ∨ i = .itnext ∨ ∃ m, i = .itskip m) ∧
    (u.it.back ≠ s.it.back → i = .iter ∨ i = .itprev) ∧
    (u.ri.valid ≠ s.ri.valid → (∃ k n, i = .new k n) ∨ ∃ sel, i = .build sel) ∧
    ((u.ri.src ≠ s.ri.src ∨ u.ri.lbs ≠ s.ri.lbs ∨ u.ri.lr ≠ s.ri.lr ∨ u.ri.sr ≠ s.ri.sr) →
      ∃ sel, i = .build sel) := by
  cases h with
  | keep => simp
  | draw => simp
  | construct => simp
  | setElement hv hw =>
    obtain ⟨hk, hn, hc, -⟩ := vset_frame hw
    simp [hk, hn, hc]
  | setBit hv hp hw =>
    obtain ⟨hk, hn, hc⟩ := vsetbit_frame hw
    simp [hk, hn, hc]
  | strayBit ha hv hp hw =>
    obtain ⟨hv', hk, hn, hc, hit, hri⟩ := State.strayBitWrite_contexts hw
    simp [hv', hk, hn, hc, hit, hri]
  | restart => simp
  | stepFront => simp
  | stepBack => simp
  | skip => simp
  | build => simp
  | dropIndex => simp

/-- Settles O24: the effect decides which contexts change, and the response changes none of them. -/
theorem everyContextHasItsWriters : Obligations.EveryContextHasItsWriters := by
  intro i s t h
  obtain ⟨hcfg, hxs, hin⟩ := exec_frame h
  obtain ⟨u, he, ha⟩ := exec_effect h
  obtain ⟨hpv, hit, hri⟩ := ha.frame
  rw [hpv, hit, hri]
  exact ⟨hcfg, hxs, hin, he.writers⟩

/-! ## The invariant -/

/-- A response is no part of the invariant. -/
@[simp] theorem State.answer_inv_iff (c : StatusCode) (r : Option Nat) : (s.answer c r).Inv ↔ s.Inv := Iff.rfl

/-- A count of free values is no part of the invariant. -/
theorem State.Inv.withDraws (h : s.Inv) (d : Nat) : ({ s with draws := d } : State).Inv := h

/-- The codes of an indexing fault are the two that HCAUSE can hold (10 R25, 60 R190). -/
theorem StatusCode.number_of_indexingFault {e : StatusCode} (h : e.cls = .indexingFault) :
    e.number = StatusCode.indexOutOfRange.number ∨ e.number = StatusCode.valueOverflow.number := by
  cases e with
  | indexOutOfRange => exact .inl rfl
  | valueOverflow => exact .inr rfl
  | _ => cases h

/-- The halt of an indexing fault carries the code of one (10 R25). -/
theorem State.Inv.raise (h : s.Inv) (e : StatusCode) : (s.raise e).Inv := by
  by_cases hc : e.cls = .indexingFault
  · obtain ⟨hcfg, -, hrest⟩ := h
    rw [State.raise_eq_halt hc, State.answer_inv_iff]
    exact ⟨hcfg, StatusCode.number_of_indexingFault hc, hrest⟩
  · rw [State.raise_eq_answer hc, State.answer_inv_iff]
    exact h

theorem Answered.inv (ha : Answered s i u t) (h : u.Inv) : t.Inv := by
  cases ha with
  | ok r => exact (State.answer_inv_iff .ok r).2 h
  | raised e => exact h.raise e

/-- Another content of the same shape keeps what IT and RI say of PV (10 R30, R35). -/
theorem State.Inv.setVec (h : s.Inv) {v : Vec} (hwf : v.wf s.cfg) (hk : v.k = s.pv.vec.k)
    (hn : v.n = s.pv.vec.n) (hc : v.mem.count = s.pv.vec.mem.count) : (s.setVec v).Inv := by
  obtain ⟨hcfg, hcs, -, hit, hri, hxs, hin⟩ := h
  refine ⟨hcfg, hcs, fun _ => hwf, fun hv => ?_, fun hv => ⟨(hri hv).1, fun hsrc => ?_⟩, hxs, hin⟩
  · rw [State.setVec_pv, hn]
    exact hit hv
  · rw [State.setVec_pv, hk, hn, hc]
    exact (hri hv).2 hsrc

/-- A new vector has no iterator and no index over its predecessor (41 R111, 10 R35). -/
theorem State.Inv.installVector (h : s.Inv) {v : Vec} (hwf : v.wf s.cfg) : (s.installVector v).Inv := by
  obtain ⟨hcfg, hcs, -, -, hri, hxs, hin⟩ := h
  refine ⟨hcfg, hcs, fun _ => hwf, nofun, fun hv => ?_, hxs, hin⟩
  obtain ⟨hvalid, hsrc⟩ : s.ri.valid = true ∧ s.ri.src ≠ .pv := by simpa using hv
  exact ⟨(hri hvalid).1, fun e => absurd e hsrc⟩

/-- Cursors of a vector that stay ordered and within it keep the invariant (10 R30). -/
theorem State.Inv.withCursors (h : s.Inv) {it : IteratorContext} (hv : s.pv.valid = true)
    (hfb : it.front ≤ it.back) (hbn : it.back ≤ s.pv.vec.n) : ({ s with it := it } : State).Inv := by
  obtain ⟨hcfg, hcs, hpv, -, hri, hxs, hin⟩ := h
  exact ⟨hcfg, hcs, hpv, fun _ => ⟨hv, hfb, hbn⟩, hri, hxs, hin⟩

theorem State.Inv.withoutIndex (h : s.Inv) : s.withoutIndex.Inv := by
  obtain ⟨hcfg, hcs, hpv, hit, -, hxs, hin⟩ := h
  exact ⟨hcfg, hcs, hpv, hit, nofun, hxs, hin⟩

/-- An index built over a source that exists meets the invariant (10 R32, R35). -/
theorem State.Inv.withIndex (h : s.Inv) {sel : SourceSel} {ri : RankIndex} (hx : s.sourceExists sel = true)
    (hb : BuiltFrom s.cfg sel (s.source sel) ri) : ({ s with ri := ri } : State).Inv := by
  obtain ⟨hcfg, hcs, hpv, hit, -, hxs, hin⟩ := h
  refine ⟨hcfg, hcs, hpv, hit, fun _ => ⟨hb.wf, fun hsrc => ?_⟩, hxs, hin⟩
  obtain rfl : sel = .pv := hb.sel.symm.trans hsrc
  exact ⟨hx, hb.len, hb.srN⟩

/-- The bit length of a source that exists is a u64 (10 R33). -/
theorem State.Inv.source_bitLen_lt (h : s.Inv) {sel : SourceSel} (hx : s.sourceExists sel = true) :
    (s.source sel).bitLen < 2 ^ 64 := by
  obtain ⟨-, -, hpv, -, -, ⟨hlen, -⟩, -⟩ := h
  cases sel with
  | ext => exact hlen
  | pv =>
    obtain ⟨-, -, hbits, -⟩ := hpv hx
    exact hbits

/-- A stray bit write leaves a valid vector (93 U2, logs 8 and 9). -/
theorem State.strayBitWrite_wf {pos : Nat} (h : s.pv.vec.wf s.cfg) (hp : s.pv.vec.bitLength ≤ pos)
    (hw : s.strayBitWrite pos = .ok u) : u.pv.vec.wf s.cfg := by
  unfold State.strayBitWrite at hw
  split at hw
  · obtain ⟨v, e, r⟩ := scramblePadding_eq h (lt_of_le_of_lt hp ‹_›) s.draws
    rw [e] at hw
    cases hw
    exact r.vec_wf h
  · cases hw
    exact scrambleWords_wf h s.draws

/-- Every effect keeps the invariant. -/
theorem Effect.inv (he : Effect s i u) (h : s.Inv) : u.Inv := by
  obtain ⟨-, -, hpv, hit, -, -, -⟩ := id h
  cases he with
  | keep => exact h
  | draw => exact h.withDraws _
  | @construct k n hc => exact h.installVector (vnew_wf n.isLt (vnew_eq_ok hc))
  | setElement hv hw =>
    obtain ⟨-, x, r⟩ := vset_rewritten (hpv hv) hw
    exact (h.setVec (r.vec_wf (hpv hv)) r.k r.n r.count).withDraws _
  | setBit hv hp hw =>
    have r := vsetbit_rewritten (hpv hv) hp hw
    exact h.setVec (r.vec_wf (hpv hv)) r.k r.n r.count
  | strayBit ha hv hp hw =>
    have hwf := State.strayBitWrite_wf (hpv hv) hp hw
    obtain ⟨v, hk, hn, hc, rfl⟩ := State.strayBitWrite_frame hw
    exact (h.setVec hwf hk hn hc).withDraws _
  | restart hv => exact h.withCursors hv (Nat.zero_le _) le_rfl
  | stepFront hv hne =>
    obtain ⟨hpvv, hfb, hbn⟩ := hit hv
    exact h.withCursors hpvv (Nat.lt_of_le_of_ne hfb hne) hbn
  | stepBack hv hne =>
    obtain ⟨hpvv, hfb, hbn⟩ := hit hv
    exact h.withCursors hpvv (Nat.le_pred_of_lt (Nat.lt_of_le_of_ne hfb hne)) ((Nat.pred_le _).trans hbn)
  | skip hv =>
    obtain ⟨hpvv, -, hbn⟩ := hit hv
    exact h.withCursors hpvv (min_le_right _ _) hbn
  | @build sel src ri d hx hb =>
    have hbuilt : BuiltFrom s.cfg src (s.source src) ri := buildIndex_builtFrom (h.source_bitLen_lt hx) hb
    exact (h.withIndex hx hbuilt).withDraws _
  | dropIndex => exact h.withoutIndex

/-- Every command keeps the invariant. -/
theorem exec_inv (h : s.Inv) (hx : exec i s = .next t) : t.Inv := by
  obtain ⟨u, he, ha⟩ := exec_effect hx
  exact ha.inv (he.inv h)

/-- Taking an event leaves the others waiting. -/
theorem State.Inv.takeEvent (h : s.Inv) {e : HostEvent} {rest : List HostEvent} (hin : s.input = e :: rest) :
    ({ s with input := rest } : State).Inv ∧ e.wf s.cfg := by
  obtain ⟨hcfg, hcs, hpv, hit, hri, hxs, hio⟩ := h
  have hmem : ∀ a ∈ e :: rest, a.wf s.cfg := fun a ha => hio a (by rwa [hin])
  exact ⟨⟨hcfg, hcs, hpv, hit, hri, hxs, fun a ha => hmem a (List.mem_cons_of_mem _ ha)⟩,
    hmem e List.mem_cons_self⟩

theorem State.Inv.resetInput (h : s.Inv) : s.resetInput.Inv := by
  obtain ⟨hcfg, -, -, -, -, hxs, hin⟩ := h
  exact ⟨hcfg, rfl, nofun, nofun, nofun, hxs, hin⟩

theorem State.Inv.sourceChange (h : s.Inv) {xs : Source} (hxs : xs.wf s.cfg) :
    ({ s with xs := xs } : State).Inv := by
  obtain ⟨hcfg, hcs, hpv, hit, hri, -, hin⟩ := h
  exact ⟨hcfg, hcs, hpv, hit, hri, hxs, hin⟩

/-- Settles O2, over the five things a step can do; a command keeps the invariant because each of its effects
does. -/
theorem everyStepKeepsTheInvariant : Obligations.EveryStepKeepsTheInvariant := by
  intro s t h hs
  rcases step_next hs with ⟨-, rfl⟩ | ⟨e, rest, hin, hcase⟩
  · exact h
  obtain ⟨hrest, hwf⟩ := h.takeEvent hin
  rcases hcase with ⟨p, i, -, -, hx⟩ | ⟨p, d, -, -, hx⟩ | ⟨-, rfl⟩ | ⟨xs, rfl, rfl⟩
  · exact exec_inv hrest hx
  · rcases State.answerIllegal_next hx with ⟨-, rfl⟩ | ⟨-, rfl⟩ <;> exact hrest.raise _
  · exact hrest.resetInput
  · exact hrest.sourceChange hwf

/-! ## The halt (10 R24, R25) -/

theorem Effect.cs_eq (h : Effect s i u) : u.cs = s.cs := by
  cases h with
  | strayBit ha hv hp hw =>
    obtain ⟨v, -, -, -, rfl⟩ := State.strayBitWrite_frame hw
    rfl
  | _ => rfl

/-- RANK where its answer is defined completes: the index has the two entries it reads. -/
theorem State.Inv.rank_completes (h : s.Inv) {position : U64} (hr : s.cs.halt = false)
    (hv : s.ri.valid = true) (hd : rankDefined s.cfg.W s.ri (s.source s.ri.src) position.toNat) :
    ∃ r, exec (.rank position) s = .next (s.respond r) := by
  obtain ⟨-, -, -, -, hri, -, -⟩ := h
  obtain ⟨hwf, -⟩ := hri hv
  obtain ⟨r, hsum⟩ : ∃ r, rankSum s.cfg s.ri (s.source s.ri.src) position.toNat = .ok r :=
    ⟨_, rankSum_eq hwf hd⟩
  refine ⟨r, ?_⟩
  calc exec (.rank position) s
      = execRank position s := rfl
    _ = s.finish (rankSum s.cfg s.ri (s.source s.ri.src) position.toNat >>= fun r => .ok (s.respond r)) := by
        unfold execRank
        rw [State.unlessHalted_running hr, hv, State.ifConstructed_true, if_pos hd]
        rfl
    _ = .next (s.respond r) := by rw [hsum]; rfl

/-- In a state that meets the invariant the cursors and the index stay within what they read, so GET, SET and
BUILD alone can fault (60 R193). -/
theorem Faults.of_inv (hf : Faults s i) (h : s.Inv) (hr : s.cs.halt = false) :
    (∃ k, i = .get k) ∨ (∃ k v, i = .set k v) ∨ ∃ sel, i = .build sel := by
  obtain ⟨-, -, -, hit, -, -, -⟩ := id h
  cases hf with
  | get idx => exact .inl ⟨idx, rfl⟩
  | set idx value => exact .inr (.inl ⟨idx, value, rfl⟩)
  | build sel => exact .inr (.inr ⟨sel, rfl⟩)
  | front hv hne hn =>
    obtain ⟨-, hfb, hbn⟩ := hit hv
    omega
  | back hv hne hn =>
    obtain ⟨-, hfb, hbn⟩ := hit hv
    omega
  | rank hv hd hx =>
    obtain ⟨r, hok⟩ := h.rank_completes hr hv hd
    have hcs : ({ halt := true, hcause := StatusCode.indexOutOfRange.number } : Control) = s.cs :=
      congrArg State.cs (Host.Outcome.next.inj (hx.symm.trans hok))
    rw [← hcs] at hr
    cases hr

/-- How a command changes HALT and HCAUSE (10 R25, 60 R193). -/
theorem exec_cs (h : s.Inv) (hx : exec i s = .next t) (hne : t.cs ≠ s.cs) :
    s.cs = { halt := false, hcause := 0x00 } ∧ t.cs.halt = true ∧
      (t.cs.hcause = 0x10 ∨ t.cs.hcause = 0x11) ∧
      ((∃ k, i = .get k) ∨ (∃ k v, i = .set k v) ∨ ∃ sel, i = .build sel) := by
  have hr : s.cs.halt = false := by
    by_contra hh
    rw [exec_halted (by simpa using hh)] at hx
    injection hx with hx
    rw [← hx, State.raise_cs] at hne
    exact hne rfl
  have hcs : s.cs = { halt := false, hcause := 0x00 } := by
    obtain ⟨-, hwf, -⟩ := h
    rw [Control.wf, if_neg (by simp [hr])] at hwf
    rw [← hr, ← hwf]
  obtain ⟨u, he, ha⟩ := exec_effect hx
  cases ha with
  | ok r => exact absurd he.cs_eq hne
  | raised e hf =>
    rw [State.raise_cs, he.cs_eq] at hne ⊢
    by_cases hc : e.cls = .indexingFault
    · rw [if_pos hc]
      exact ⟨hcs, rfl, StatusCode.number_of_indexingFault hc, (hf hc).of_inv h hr⟩
    · exact absurd (if_neg hc) hne

/-- Settles O9, over the five things a step can do. -/
theorem haltChangesOnlyByFaultAndReset : Obligations.HaltChangesOnlyByFaultAndReset := by
  intro s t h hs hne
  rcases step_next hs with ⟨-, rfl⟩ | ⟨e, rest, hin, hcase⟩
  · exact absurd rfl hne
  obtain ⟨hrest, -⟩ := h.takeEvent hin
  rcases hcase with ⟨p, i, rfl, hd, hx⟩ | ⟨p, d, -, -, hx⟩ | ⟨rfl | ⟨p, rfl⟩, -⟩ | ⟨xs, -, rfl⟩
  · obtain ⟨hcs, hhalt, hcause, hi⟩ := exec_cs hrest hx hne
    exact .inr ⟨hcs, hhalt, hcause, p, rest, i, hin, hd, hi⟩
  · rcases State.answerIllegal_next hx with ⟨-, rfl⟩ | ⟨-, rfl⟩ <;> exact absurd rfl hne
  · exact .inl ⟨rest, .inl hin⟩
  · exact .inl ⟨rest, .inr ⟨p, hin⟩⟩
  · exact absurd rfl hne

/-! ## The padding (10 R28) -/

/-- Rewriting a field that ends within the elements keeps the padding zero. -/
theorem State.paddingZero.rewritten (h : s.paddingZero) {v : Vec} {start len x : Nat} (hv : s.pv.valid = true)
    (r : Rewritten s.cfg s.pv.vec v (fieldBits s.cfg.W s.pv.vec start len x))
    (hend : start + len ≤ s.pv.vec.bitLength) : (s.setVec v).paddingZero := by
  intro _ pos hlow hhigh
  have hbits : v.bitLength = s.pv.vec.bitLength := by rw [Vec.bitLength, r.n, r.k, Vec.bitLength]
  rw [State.setVec_pv, hbits] at hlow
  rw [State.setVec_pv, State.setVec_cfg, r.count] at hhigh
  exact (r.flatBit_padding hend hlow).trans (h hv pos hlow hhigh)

/-- Every effect of a command within its unchecked precondition keeps the padding zero. -/
theorem Effect.paddingZero (he : Effect s i u) (h : s.Inv) (hz : s.paddingZero) (hm : meetsPrecondition s i) :
    u.paddingZero := by
  obtain ⟨-, -, hpv, -, -, -, -⟩ := h
  cases he with
  | construct hc => exact fun _ pos _ _ => Memory.zeros_flatBit _ _ pos
  | setElement hv hw =>
    obtain ⟨hn, x, r⟩ := vset_rewritten (hpv hv) hw
    exact hz.rewritten hv r (Vec.element_end_le hn)
  | setBit hv hp hw => exact hz.rewritten hv (vsetbit_rewritten (hpv hv) hp hw) hp
  | strayBit ha hv hp hw => exact absurd (hm ha) (not_lt.2 hp)
  | _ => exact hz

/-- Settles O37: the response changes no word, and the effect keeps the padding zero. -/
theorem paddingStaysZero : Obligations.PaddingStaysZero := by
  intro i s t h hz hm hx
  obtain ⟨u, he, ha⟩ := exec_effect hx
  cases ha with
  | ok r => exact he.paddingZero h hz hm
  | raised e =>
    have := he.paddingZero h hz hm
    rwa [State.paddingZero, State.raise_pv, State.raise_cfg]

/-! ## What stands behind a cleared valid bit (10 R29, R30, R32)

Two states that are the same but for that are kept so by every operation a command is put together from. -/

namespace State.sameVisible

variable (h : s.sameVisible s')
include h

theorem cfg_eq : s.cfg = s'.cfg := by obtain ⟨e, -⟩ := h; exact e

theorem cs_eq : s.cs = s'.cs := by obtain ⟨-, e, -⟩ := h; exact e

theorem xs_eq : s.xs = s'.xs := by obtain ⟨-, -, e, -⟩ := h; exact e

theorem draws_eq : s.draws = s'.draws := by obtain ⟨-, -, -, -, -, e, -⟩ := h; exact e

theorem pv_valid_eq : s.pv.valid = s'.pv.valid := by obtain ⟨-, -, -, -, -, -, e, -⟩ := h; exact e

theorem pv_eq (hv : s.pv.valid = true) : s.pv = s'.pv := by obtain ⟨-, -, -, -, -, -, -, e, -⟩ := h; exact e hv

theorem it_valid_eq : s.it.valid = s'.it.valid := by obtain ⟨-, -, -, -, -, -, -, -, e, -⟩ := h; exact e

theorem it_eq (hv : s.it.valid = true) : s.it = s'.it := by
  obtain ⟨-, -, -, -, -, -, -, -, -, e, -⟩ := h; exact e hv

theorem ri_valid_eq : s.ri.valid = s'.ri.valid := by obtain ⟨-, -, -, -, -, -, -, -, -, -, e, -⟩ := h; exact e

theorem ri_eq (hv : s.ri.valid = true) : s.ri = s'.ri := by
  obtain ⟨-, -, -, -, -, -, -, -, -, -, -, e⟩ := h; exact e hv

/-- A source that exists is visible. -/
theorem source_eq {sel : SourceSel} (hx : s.sourceExists sel = true) : s.source sel = s'.source sel := by
  cases sel with
  | ext => exact h.xs_eq
  | pv => exact congrArg (fun pv : VectorContext => pv.vec.asSource) (h.pv_eq hx)

theorem sourceExists_eq (sel : SourceSel) : s.sourceExists sel = s'.sourceExists sel := by
  cases sel with
  | ext => rfl
  | pv => exact h.pv_valid_eq

/-- Responses carry the code, the result and CS, which are visible (30 R73). -/
theorem answer (c : StatusCode) (r : Option Nat) : (s.answer c r).sameVisible (s'.answer c r) := by
  obtain ⟨hcfg, hcs, hxs, hin, hout, hrest⟩ := h
  exact ⟨hcfg, hcs, hxs, hin, by rw [State.answer_out, State.answer_out, hcs, hout], hrest⟩

theorem respond (x : Nat) : (s.respond x).sameVisible (s'.respond x) := h.answer .ok (some x)

theorem respondNone : s.respondNone.sameVisible s'.respondNone := h.answer .ok none

theorem haltWith (c : StatusCode) : (s.haltWith c).sameVisible (s'.haltWith c) := by
  obtain ⟨hcfg, -, hrest⟩ := h
  exact ⟨hcfg, rfl, hrest⟩

theorem raise (c : StatusCode) : (s.raise c).sameVisible (s'.raise c) := by
  by_cases hc : c.cls = .indexingFault
  · rw [State.raise_eq_halt hc, State.raise_eq_halt hc]
    exact (h.haltWith c).answer c none
  · rw [State.raise_eq_answer hc, State.raise_eq_answer hc]
    exact h.answer c none

theorem withDraws (d : Nat) : ({ s with draws := d } : State).sameVisible { s' with draws := d } := by
  obtain ⟨hcfg, hcs, hxs, hin, hout, -, hrest⟩ := h
  exact ⟨hcfg, hcs, hxs, hin, hout, rfl, hrest⟩

theorem withCursors (it : IteratorContext) :
    ({ s with it := it } : State).sameVisible { s' with it := it } := by
  obtain ⟨hcfg, hcs, hxs, hin, hout, hd, hpvv, hpv, -, -, hrest⟩ := h
  exact ⟨hcfg, hcs, hxs, hin, hout, hd, hpvv, hpv, rfl, fun _ => rfl, hrest⟩

theorem withIndex (ri : RankIndex) : ({ s with ri := ri } : State).sameVisible { s' with ri := ri } := by
  obtain ⟨hcfg, hcs, hxs, hin, hout, hd, hpvv, hpv, hitv, hit, -, -⟩ := h
  exact ⟨hcfg, hcs, hxs, hin, hout, hd, hpvv, hpv, hitv, hit, rfl, fun _ => rfl⟩

/-- The free index of a failed BUILD stands behind a cleared valid bit. -/
theorem withoutIndex : s.withoutIndex.sameVisible s'.withoutIndex := by
  obtain ⟨hcfg, hcs, hxs, hin, hout, hd, hpvv, hpv, hitv, hit, -, -⟩ := h
  exact ⟨hcfg, hcs, hxs, hin, hout, congrArg (· + 1) hd, hpvv, hpv, hitv, hit, rfl, nofun⟩

theorem setVec (v : Vec) : (s.setVec v).sameVisible (s'.setVec v) := by
  obtain ⟨hcfg, hcs, hxs, hin, hout, hd, hpvv, -, hrest⟩ := h
  have hpv : (s.setVec v).pv = (s'.setVec v).pv :=
    congrArg (fun valid => ({ valid := valid, vec := v } : VectorContext)) hpvv
  exact ⟨hcfg, hcs, hxs, hin, hout, hd, hpvv, fun _ => hpv, hrest⟩

/-- The index that survives a new vector is the one over EXT, which was visible before. -/
theorem installVector (v : Vec) : (s.installVector v).sameVisible (s'.installVector v) := by
  obtain ⟨hcfg, hcs, hxs, hin, hout, hd, -, -, -, -, hriv, hri⟩ := h
  refine ⟨hcfg, hcs, hxs, hin, hout, hd, rfl, fun _ => rfl, rfl, nofun, ?_, fun hv => ?_⟩
  · rw [State.installVector_ri, State.installVector_ri]
    cases hv : s.ri.valid
    · rw [hriv] at hv
      simp [hv]
    · rw [hri hv]
      simp [← hri hv, hv]
  · have hvalid : s.ri.valid = true := by
      rw [State.installVector_ri] at hv
      exact (Bool.and_eq_true_iff.1 hv).1
    rw [State.installVector_ri, State.installVector_ri, hri hvalid]

end State.sameVisible

/-- Two computations of a command end alike: with states that are the same but for what is not visible, or with
the same stop. -/
def SameRun (r r' : Run State) : Prop :=
  (∃ a a', r = .ok a ∧ r' = .ok a' ∧ a.sameVisible a') ∨ ∃ e, r = .error e ∧ r' = .error e

theorem SameRun.ok {a a' : State} (h : a.sameVisible a') : SameRun (.ok a) (.ok a') := .inl ⟨a, a', rfl, rfl, h⟩

/-- The first part of two computations is the same. -/
theorem SameRun.bind {α : Type} {m m' : Run α} {f f' : α → Run State} (hm : m = m')
    (hf : ∀ x, SameRun (f x) (f' x)) : SameRun (m >>= f) (m' >>= f') := by
  subst hm
  cases m with
  | error e => exact .inr ⟨e, rfl, rfl⟩
  | ok x => exact hf x

/-- Two computations that end alike go on alike. -/
theorem SameRun.andThen {r r' : Run State} {f f' : State → Run State} (h : SameRun r r')
    (hf : ∀ a a' : State, a.sameVisible a' → SameRun (f a) (f' a')) : SameRun (r >>= f) (r' >>= f') := by
  obtain ⟨a, a', rfl, rfl, ha⟩ | ⟨e, rfl, rfl⟩ := h
  · exact hf a a' ha
  · exact .inr ⟨e, rfl, rfl⟩

/-- When the first command has a next state, so has the second, and the two are the same but for what is not
visible. -/
def SameOutcome (o o' : Host.Outcome State Fault Refusal) : Prop :=
  ∀ t, o = .next t → ∃ t', o' = .next t' ∧ t.sameVisible t'

section Shapes

variable {b b' : Host.Outcome State Fault Refusal}

theorem SameOutcome.next (h : t.sameVisible u) : SameOutcome (.next t) (.next u) := by
  rintro _ ⟨⟩
  exact ⟨u, rfl, h⟩

theorem SameOutcome.ite {p p' : Prop} [Decidable p] [Decidable p']
    {a a' : Host.Outcome State Fault Refusal} (hp : p ↔ p') (ha : SameOutcome a a') (hb : SameOutcome b b') :
    SameOutcome (if p then a else b) (if p' then a' else b') := by
  by_cases h : p
  · rw [if_pos h, if_pos (hp.1 h)]; exact ha
  · rw [if_neg h, if_neg fun h' => h (hp.2 h')]; exact hb

theorem SameOutcome.unlessHalted (h : s.sameVisible s') (hb : SameOutcome b b') :
    SameOutcome (s.unlessHalted b) (s'.unlessHalted b') :=
  .ite (by rw [h.cs_eq]) (.next (h.raise _)) hb

theorem SameOutcome.ifConstructed {valid valid' : Bool} (h : s.sameVisible s') (hv : valid = valid')
    (hb : valid = true → SameOutcome b b') :
    SameOutcome (s.ifConstructed valid b) (s'.ifConstructed valid' b') := by
  subst hv
  cases valid with
  | false => exact .next (h.raise _)
  | true => exact hb rfl

theorem SameOutcome.finish {r r' : Run State} (h : s.sameVisible s') (hr : SameRun r r') :
    SameOutcome (s.finish r) (s'.finish r') := by
  obtain ⟨a, a', rfl, rfl, ha⟩ | ⟨e, rfl, rfl⟩ := hr
  · exact .next ha
  · cases e with
    | raised c => exact .next (h.raise c)
    | absent wi => nofun

theorem SameOutcome.answerIllegal (h : s.sameVisible s') : SameOutcome s.answerIllegal s'.answerIllegal :=
  .unlessHalted h (.next (h.raise _))

end Shapes

/-- A stray bit write over a visible vector. -/
theorem State.sameVisible.strayBitWrite (h : s.sameVisible s') (hv : s.pv.valid = true) (pos : Nat) :
    SameRun (s.strayBitWrite pos) (s'.strayBitWrite pos) := by
  unfold State.strayBitWrite
  rw [← h.pv_eq hv, ← h.cfg_eq, ← h.draws_eq]
  split
  · exact .bind rfl fun v => .ok ((h.setVec v).withDraws _)
  · exact .ok ((h.setVec _).withDraws _)

/-- The source of a valid index exists (10 R35). -/
theorem State.Inv.index_source (h : s.Inv) (hv : s.ri.valid = true) : s.sourceExists s.ri.src = true := by
  obtain ⟨-, -, -, -, hri, -, -⟩ := h
  obtain ⟨-, hpv⟩ := hri hv
  cases hsrc : s.ri.src with
  | ext => rfl
  | pv => exact (hpv hsrc).1

/-- Every command answers alike in two states that are the same but for what is not visible. The invariant makes
the vector of a valid iterator, and the source of a valid index, visible. -/
theorem exec_same (hinv : s.Inv) (h : s.sameVisible s') (i : Instr) : SameOutcome (exec i s) (exec i s') := by
  obtain ⟨-, -, -, hit, -, -, -⟩ := id hinv
  cases i with
  | new k n =>
    exact .unlessHalted h (.finish h (.bind (by rw [h.cfg_eq]) fun v => .ok (h.installVector v).respondNone))
  | len =>
    refine .unlessHalted h (.ifConstructed h h.pv_valid_eq fun hv => .next ?_)
    rw [h.pv_eq hv]
    exact h.respond _
  | isempty =>
    refine .unlessHalted h (.ifConstructed h h.pv_valid_eq fun hv => .next ?_)
    rw [h.pv_eq hv]
    exact h.respond _
  | get idx =>
    exact .unlessHalted h (.ifConstructed h h.pv_valid_eq fun hv =>
      .finish h (.bind (by rw [h.pv_eq hv, h.cfg_eq]) fun x => .ok (h.respond x)))
  | set idx value =>
    exact .unlessHalted h (.ifConstructed h h.pv_valid_eq fun hv =>
      .finish h (.bind (by rw [h.pv_eq hv, h.cfg_eq, h.draws_eq]) fun (v, d) =>
        .ok ((h.setVec v).withDraws d).respondNone))
  | getbit pos =>
    refine .unlessHalted h (.ifConstructed h h.pv_valid_eq fun hv => .ite (by rw [h.pv_eq hv]) ?_ (.next ?_))
    · exact .finish h (.bind (by rw [h.pv_eq hv, h.cfg_eq]) fun x => .ok (h.respond x))
    · rw [h.draws_eq]
      exact (h.withDraws _).respond _
  | setbit pos v =>
    refine .unlessHalted h ?_
    cases operandBit v with
    | none => exact .next (h.raise _)
    | some b =>
      refine .ifConstructed h h.pv_valid_eq fun hv => .ite (by rw [h.pv_eq hv]) ?_ ?_
      · exact .finish h (.bind (by rw [h.pv_eq hv, h.cfg_eq]) fun v => .ok (h.setVec v).respondNone)
      · exact .finish h ((h.strayBitWrite hv _).andThen fun a a' ha => .ok ha.respondNone)
  | iter =>
    refine .unlessHalted h (.ifConstructed h h.pv_valid_eq fun hv => .next ?_)
    have hn : s.pv.vec.n = s'.pv.vec.n := by rw [h.pv_eq hv]
    rw [hn]
    exact (h.withCursors _).respondNone
  | itnext =>
    refine .unlessHalted h (.ifConstructed h h.it_valid_eq fun hv => .ite (by rw [h.it_eq hv]) ?_ ?_)
    · exact .next h.respondNone
    · obtain ⟨hpv, -, -⟩ := hit hv
      refine .finish h (.bind (by rw [h.it_eq hv, h.pv_eq hpv, h.cfg_eq]) fun x => .ok ?_)
      rw [h.it_eq hv]
      exact (h.withCursors _).respond x
  | itprev =>
    refine .unlessHalted h (.ifConstructed h h.it_valid_eq fun hv => .ite (by rw [h.it_eq hv]) ?_ ?_)
    · exact .next h.respondNone
    · obtain ⟨hpv, -, -⟩ := hit hv
      refine .finish h (.bind (by rw [h.it_eq hv, h.pv_eq hpv, h.cfg_eq]) fun x => .ok ?_)
      rw [h.it_eq hv]
      exact (h.withCursors _).respond x
  | itskip m =>
    refine .unlessHalted h (.ifConstructed h h.it_valid_eq fun hv => .next ?_)
    rw [h.it_eq hv]
    exact (h.withCursors _).respondNone
  | build sel =>
    refine .unlessHalted h ?_
    cases operandSource sel with
    | none => exact .next (h.raise _)
    | some src =>
      exact .ifConstructed h (h.sourceExists_eq src) fun hx =>
        .finish h.withoutIndex (.bind (by rw [h.source_eq hx, h.cfg_eq, h.draws_eq]) fun (ri, d) =>
          .ok ((h.withIndex ri).withDraws d).respondNone)
  | rank position =>
    refine .unlessHalted h (.ifConstructed h h.ri_valid_eq fun hv => ?_)
    have hsrc : s.source s.ri.src = s'.source s'.ri.src := by
      rw [h.source_eq (hinv.index_source hv), h.ri_eq hv]
    refine .ite (by rw [hsrc, h.ri_eq hv, h.cfg_eq]) ?_ (.next ?_)
    · exact .finish h (.bind (by rw [hsrc, h.ri_eq hv, h.cfg_eq]) fun r => .ok (h.respond r))
    · rw [h.draws_eq]
      exact (h.withDraws _).respond _
  | select1 k => exact .answerIllegal h
  | select0 k => exact .answerIllegal h
  | select k value => exact .answerIllegal h

/-- Settles O10. The unchecked preconditions are not needed: a free value of the model depends on the count of
those used alone, which is visible (log 28). -/
theorem invalidContextsAreUnobservable : Obligations.InvalidContextsAreUnobservable := by
  intro i s s' t hinv _ h hx
  exact exec_same hinv h i t hx

end Sys2Proof.Machine
end

section
/-! PROOFS. Completion (20 R62, 00 R14): from a state that meets the invariant no command reads or writes a word
outside its store, so every step has a next state, and every request gets exactly one response. -/

namespace Sys2Proof.Machine

variable {s t : State} {i : Instr} {c : Config} {v : Vec}

/-! ## Computations that stay inside their stores -/

/-- The computation does not end at a word outside a store: it has a result, or raises a code (00 R14). -/
def StaysInside {α : Type} (r : Run α) : Prop := ∀ wi, r ≠ .error (.absent wi)

theorem StaysInside.ok {α : Type} (a : α) : StaysInside (.ok a : Run α) := nofun

theorem StaysInside.raised {α : Type} (e : StatusCode) : StaysInside (.error (.raised e) : Run α) := nofun

theorem vnew_staysInside (c : Config) (k n : Nat) : StaysInside (vnew c k n) := by
  rcases vnew_cases c k n with ⟨-, -, e⟩ | ⟨code, -, -, e⟩
  · rw [e]; exact .ok _
  · rw [e]; exact .raised code

/-- An element of a valid vector lies in its words, whichever path reads it (41 R117). -/
theorem vget_staysInside (h : v.wf c) (idx : Nat) : StaysInside (vget c v idx) := by
  rcases Nat.lt_or_ge idx v.n with hn | hn
  · rw [vget_eq h hn]; exact .ok _
  · rw [vget_out_of_range hn]; exact .raised _

/-- An element of a valid vector is written within its words, whichever path writes it (41 R119). -/
theorem vset_staysInside (h : v.wf c) (idx value d : Nat) : StaysInside (vset c v idx value d) := by
  rcases vset_cases h idx value d with ⟨-, e⟩ | ⟨-, -, -, e⟩ | ⟨-, -, w, e, -⟩ | ⟨-, -, -, w, e, -⟩
  · rw [e]; exact .raised _
  · rw [e]; exact .raised _
  · rw [e]; exact .ok _
  · rw [e]; exact .ok _

/-- A flat bit of the elements of a valid vector lies in its words (41 R120). -/
theorem vgetbit_staysInside (h : v.wf c) {pos : Nat} (hp : pos < v.bitLength) :
    StaysInside (vgetbit c.W v pos) := by
  rw [vgetbit_eq (lt_of_lt_of_le hp (Vec.bits_le h))]
  exact .ok _

theorem vsetbit_staysInside (h : v.wf c) {pos : Nat} (hp : pos < v.bitLength) (b : Bool) :
    StaysInside (vsetbit c.W v pos b) := by
  obtain ⟨-, -, -, -, -, -, hm⟩ := id h
  obtain ⟨w, e, -⟩ := vsetbit_eq hm (lt_of_lt_of_le hp (Vec.bits_le h)) b
  rw [e]
  exact .ok w

/-- A stray bit write at a padding position has a last word to rewrite; one past the store makes no word access
that could fail (93 U2, logs 8 and 9). -/
theorem State.strayBitWrite_staysInside {pos : Nat} (h : s.pv.vec.wf s.cfg) (hp : s.pv.vec.bitLength ≤ pos) :
    StaysInside (s.strayBitWrite pos) := by
  unfold State.strayBitWrite
  split
  next hin =>
    obtain ⟨v, e, -⟩ := scramblePadding_eq h (lt_of_le_of_lt hp hin) s.draws
    rw [e]
    exact .ok _
  next => exact .ok _

/-- The build stays inside its tables and its source, well formed or not (43 R162). -/
theorem buildIndex_staysInside {src : Source} (sel : SourceSel) (d : Nat) (hlen : src.bitLen < 2 ^ 64) :
    StaysInside (buildIndex c sel src d) := by
  rcases buildIndex_cases sel d hlen with ⟨code, -, -, e⟩ | ⟨-, -, -, e⟩ | ⟨ri, d', e, -⟩
  · rw [e]; exact .raised code
  · rw [e]; exact .raised _
  · rw [e]; exact .ok _

/-- The sum of RANK, where it is defined, reads entries that the tables have and a word that the source has
(43 R165). -/
theorem rankSum_staysInside {ri : RankIndex} {src : Source} {position : Nat} (h : ri.wf c)
    (hd : rankDefined c.W ri src position) : StaysInside (rankSum c ri src position) := by
  rw [rankSum_eq h hd]
  exact .ok _

/-! ## Commands that complete -/

/-- The command completes: it neither faults nor is refused (20 R62). -/
def Completes (o : Host.Outcome State Fault Refusal) : Prop := ∃ t, o = .next t

section Shapes

variable {b : Host.Outcome State Fault Refusal}

theorem Completes.next (t : State) : Completes (.next t) := ⟨t, rfl⟩

theorem Completes.unlessHalted (hb : Completes b) : Completes (s.unlessHalted b) := by
  cases hh : s.cs.halt with
  | true => rw [State.unlessHalted_halted hh]; exact .next _
  | false => rwa [State.unlessHalted_running hh]

theorem Completes.ifConstructed {valid : Bool} (hb : valid = true → Completes b) :
    Completes (s.ifConstructed valid b) := by
  cases valid with
  | true => exact hb rfl
  | false => exact .next _

/-- A command of one computation that stays inside its stores ends with a response: what it does with the result,
or the raised code. -/
theorem Completes.finish {α : Type} {r : Run α} (hr : StaysInside r) (f : α → State) :
    Completes (s.finish (r >>= fun a => .ok (f a))) := by
  cases r with
  | ok a => exact .next (f a)
  | error e =>
    cases e with
    | raised code => exact .next (s.raise code)
    | absent wi => exact absurd rfl (hr wi)

theorem Completes.answerIllegal (s : State) : Completes s.answerIllegal := .unlessHalted (.next _)

end Shapes

/-- Every command completes in a state that meets the invariant: the context it has checked for is valid, so what
it reads and writes is there. -/
theorem exec_completes (h : s.Inv) (i : Instr) : Completes (exec i s) := by
  obtain ⟨-, -, hpv, hit, hri, -, -⟩ := id h
  cases i with
  | new k n => exact .unlessHalted (.finish (vnew_staysInside _ _ _) _)
  | len => exact .unlessHalted (.ifConstructed fun _ => .next _)
  | isempty => exact .unlessHalted (.ifConstructed fun _ => .next _)
  | get idx => exact .unlessHalted (.ifConstructed fun hv => .finish (vget_staysInside (hpv hv) _) _)
  | set idx value => exact .unlessHalted (.ifConstructed fun hv => .finish (vset_staysInside (hpv hv) _ _ _) _)
  | getbit pos =>
    refine .unlessHalted (.ifConstructed fun hv => ?_)
    split
    next hp => exact .finish (vgetbit_staysInside (hpv hv) hp) _
    next => exact .next _
  | setbit pos b =>
    refine .unlessHalted ?_
    cases operandBit b with
    | none => exact .next _
    | some b =>
      refine .ifConstructed fun hv => ?_
      split
      next hp => exact .finish (vsetbit_staysInside (hpv hv) hp b) _
      next hp => exact .finish (State.strayBitWrite_staysInside (hpv hv) (not_lt.1 hp)) _
  | iter => exact .unlessHalted (.ifConstructed fun _ => .next _)
  | itnext =>
    refine .unlessHalted (.ifConstructed fun hv => ?_)
    obtain ⟨hvec, -, -⟩ := hit hv
    split
    next => exact .next _
    next => exact .finish (vget_staysInside (hpv hvec) _) _
  | itprev =>
    refine .unlessHalted (.ifConstructed fun hv => ?_)
    obtain ⟨hvec, -, -⟩ := hit hv
    split
    next => exact .next _
    next => exact .finish (vget_staysInside (hpv hvec) _) _
  | itskip m => exact .unlessHalted (.ifConstructed fun _ => .next _)
  | build sel =>
    refine .unlessHalted ?_
    cases operandSource sel with
    | none => exact .next _
    | some src =>
      exact .ifConstructed fun hx => .finish (buildIndex_staysInside src _ (h.source_bitLen_lt hx)) _
  | rank position =>
    refine .unlessHalted (.ifConstructed fun hv => ?_)
    obtain ⟨hwf, -⟩ := hri hv
    split
    next hd => exact .finish (rankSum_staysInside hwf hd) _
    next => exact .next _
  | select1 k => exact .answerIllegal s
  | select0 k => exact .answerIllegal s
  | select k value => exact .answerIllegal s

/-! ## Requests and steps -/

/-- A packet runs as the command it encodes, or is answered as illegal (30 R75, R76). -/
theorem acceptRequest_cases (p : RequestPacket) (s : State) :
    (∃ i, acceptRequest p s = exec i s) ∨ acceptRequest p s = s.answerIllegal := by
  unfold acceptRequest
  cases decode p with
  | ok i => exact .inl ⟨i, rfl⟩
  | error d => exact .inr rfl

/-- A step takes the oldest event and has its effect (20 R62). -/
theorem step_of_cons {e : HostEvent} {rest : List HostEvent} (hin : s.input = e :: rest) :
    step s = applyEvent e { s with input := rest } := by
  unfold step
  rw [hin]

theorem acceptRequest_completes (h : s.Inv) (p : RequestPacket) : Completes (acceptRequest p s) := by
  rcases acceptRequest_cases p s with ⟨i, hx⟩ | hx
  · rw [hx]; exact exec_completes h i
  · rw [hx]; exact .answerIllegal s

theorem applyEvent_completes (h : s.Inv) (e : HostEvent) : Completes (applyEvent e s) := by
  cases e with
  | request p => exact acceptRequest_completes h p
  | reset => exact .next _
  | requestCutByReset p => exact .next _
  | sourceChange xs => exact .next _

/-- Settles O3: an event completes from the state without it, which meets the invariant too. -/
theorem everyStepCompletes : Obligations.EveryStepCompletes := by
  intro s h
  cases hin : s.input with
  | nil => exact ⟨s, by unfold step; rw [hin]⟩
  | cons e rest =>
    obtain ⟨hrest, -⟩ := h.takeEvent hin
    rw [step_of_cons hin]
    exact applyEvent_completes hrest e

/-! ## One response for each request -/

/-- The second state has one response more than the first, and the same events waiting. -/
def AnsweredOnce (s t : State) : Prop := t.input = s.input ∧ ∃ r, t.out = r :: s.out

theorem State.raise_answeredOnce (s : State) (e : StatusCode) : AnsweredOnce s (s.raise e) :=
  ⟨State.raise_input s e, _, State.raise_out s e⟩

/-- Every command gives exactly one response, whichever way it ends. -/
theorem exec_answeredOnce (h : exec i s = .next t) : AnsweredOnce s t := by
  obtain ⟨-, -, hin⟩ := exec_frame h
  refine ⟨hin, ?_⟩
  rcases exec_next h with ⟨e, -, rfl, -⟩ | ⟨sel, e, -, -, -, rfl⟩ |
    ⟨u, -, hout, -, -, -, -, ⟨rfl, -⟩ | ⟨x, rfl, -⟩⟩
  · exact ⟨_, State.raise_out s e⟩
  · exact ⟨_, State.raise_out s.withoutIndex e⟩
  · exact ⟨_, by rw [State.respondNone_out, hout]⟩
  · exact ⟨_, by rw [State.respond_out, hout]⟩

theorem acceptRequest_answeredOnce {p : RequestPacket} (h : acceptRequest p s = .next t) : AnsweredOnce s t := by
  rcases acceptRequest_cases p s with ⟨i, hx⟩ | hx
  · exact exec_answeredOnce (hx.symm.trans h)
  · rcases State.answerIllegal_next (hx.symm.trans h) with ⟨-, rfl⟩ | ⟨-, rfl⟩
    · exact State.raise_answeredOnce s _
    · exact State.raise_answeredOnce s _

/-- Settles O7: taking the event gives no response, and what answers the packet gives one. -/
theorem oneResponsePerRequest : Obligations.OneResponsePerRequest := by
  intro s t p rest hin h
  rw [step_of_cons hin] at h
  exact acceptRequest_answeredOnce h

end Sys2Proof.Machine
end

section
/-! PROOFS. The packets: what the decoder answers to every header word and every operand, where the fields of a
response lie, and what a request is answered with (30 R71 to R77). -/

namespace Sys2Proof

variable {p q : RequestPacket} {i : Instr} {a b : U64} {op : Nat}

/-! ## The opcode map (30 R74) -/

/-- The map, read both ways: the row of an opcode gives exactly the command of that opcode whose operands are the
ones its format reads. -/
theorem decodeOp_eq_some_iff : decodeOp op a b = some i ↔
    op = (opcode i).toNat ∧ operandA i = (if i.format = .f0 then 0 else a) ∧
      operandB i = (if i.format = .fab then b else 0) := by
  refine ⟨decodeOp_some, ?_⟩
  rintro ⟨rfl, ha, hb⟩
  cases i <;> simp_all [operandA, operandB, Instr.format, opcode, decodeOp]

/-- The opcodes of the map, whatever the operands (30 R74). -/
theorem exists_decodeOp_iff : (∃ i, decodeOp op a b = some i) ↔ op ∈
    [0x10, 0x11, 0x12, 0x13, 0x14, 0x15, 0x16, 0x20, 0x21, 0x22, 0x23, 0x30, 0x31, 0x40, 0x41, 0x42] := by
  constructor
  · rintro ⟨i, h⟩
    obtain ⟨rfl, -, -⟩ := decodeOp_some h
    cases i <;> simp [opcode]
  · revert op
    simp [decodeOp]

/-- An opcode is one byte, with all reserved bits zero (30 R71, R74). -/
theorem opcode_toNat_lt (i : Instr) : (opcode i).toNat < 2 ^ 8 := by
  cases i <;> simp [opcode]

/-! ## The decoder (30 R74 to R76) -/

/-- The header word as a number: the opcode is its lowest byte (30 R71). -/
theorem hdrField_toNat (p : RequestPacket) :
    (hdrField p).toNat = 2 ^ 8 * (rsvField p).toNat + (opField p).toNat := by
  rw [hdrField_append, BitVec.toNat_append, Nat.two_pow_add_eq_or_of_lt (opField p).isLt, Nat.shiftLeft_eq,
    Nat.mul_comm]

/-- "A command is selected by HDR alone" (30 R74): the check of the reserved bits and the look-up of the opcode are
one look-up of the whole header word. -/
theorem decode_eq_ok_iff_decodeOp :
    decode p = .ok i ↔ decodeOp (hdrField p).toNat (aField p) (bField p) = some i := by
  have hhdr := hdrField_toNat p
  constructor
  · intro h
    obtain ⟨hrsv, hop⟩ := decode_ok h
    rwa [hhdr, show (rsvField p).toNat = 0 by rw [hrsv]; rfl, Nat.mul_zero, Nat.zero_add]
  · intro h
    obtain ⟨hop, -, -⟩ := decodeOp_some h
    have hlt := opcode_toNat_lt i
    have hrsv : (rsvField p).toNat = 0 := by omega
    rw [hhdr, hrsv, Nat.mul_zero, Nat.zero_add] at h
    unfold decode
    rw [if_neg (not_not.2 (BitVec.eq_of_toNat_eq hrsv)), h]

/-- Everything that decoding says of a packet: its header word is the command's opcode, and the command's operands
are the fields that its format reads (30 R71, R74). -/
theorem decode_eq_ok_iff : decode p = .ok i ↔
    hdrField p = opcode i ∧ operandA i = (if i.format = .f0 then 0 else aField p) ∧
      operandB i = (if i.format = .fab then bField p else 0) := by
  rw [decode_eq_ok_iff_decodeOp, decodeOp_eq_some_iff, BitVec.toNat_inj]

/-- An operand that the format does not read is written 0 (30 R77). -/
theorem operandA_eq_ite (i : Instr) : operandA i = if i.format = .f0 then 0 else operandA i := by
  cases i <;> rfl

theorem operandB_eq_ite (i : Instr) : operandB i = if i.format = .fab then operandB i else 0 := by
  cases i <;> rfl

/-- Settles O11: the fields of the packet written are the opcode and the operands, and those that the format does
not read are 0. -/
theorem decodeOfEncode : Obligations.DecodeOfEncode := by
  intro i
  rw [decode_eq_ok_iff, encode, hdrField_requestPacket, aField_requestPacket, bField_requestPacket]
  exact ⟨rfl, operandA_eq_ite i, operandB_eq_ite i⟩

/-- Settles O12: the header words that select a command are the opcodes of the map. -/
theorem theHeaderSelectsTheCommand : Obligations.TheHeaderSelectsTheCommand := by
  refine fun p => ⟨fun i h => (decode_eq_ok_iff.1 h).1, ?_⟩
  simp_rw [decode_eq_ok_iff_decodeOp]
  exact exists_decodeOp_iff

/-- Settles O13: the packet meets what decoding says of the command with the operands its format reads, and with no
other. -/
theorem unreadOperandsAreIgnored : Obligations.UnreadOperandsAreIgnored := by
  refine ⟨fun p q i h hhdr hA hB => ?_, fun p i h => (decode_eq_ok_iff.1 h).2⟩
  obtain ⟨hop, ha, hb⟩ := decode_eq_ok_iff.1 h
  refine decode_eq_ok_iff.2 ⟨hhdr.trans hop, ?_, ?_⟩
  · rw [ha]
    split
    next => rfl
    next hf => rw [hA hf]
  · rw [hb]
    split
    next hf => rw [hB hf]
    next => rfl

/-- Settles O14, by evaluating the decoder on each packet. -/
theorem writtenPacketsDecode : Obligations.WrittenPacketsDecode :=
  ⟨rfl, rfl, rfl, rfl, rfl, rfl, rfl, rfl⟩

namespace Machine

variable {s t : State}

/-! ## Responses (30 R73) -/

/-- Bits 15:10 and 31:24 of a response packet hold nothing of the response. -/
theorem Response.pack_bit_reserved (r : Response) {j : Nat} (h : 10 ≤ j ∧ j < 16 ∨ 24 ≤ j ∧ j < 32) :
    r.pack.getLsbD j = false := by
  rw [Response.pack_bit]
  grind

theorem Response.pack_reserved_field (r : Response) {lo len : Nat}
    (h : 10 ≤ lo ∧ lo + len ≤ 16 ∨ 24 ≤ lo ∧ lo + len ≤ 32) : r.pack.extractLsb' lo len = 0 := by
  apply BitVec.eq_of_getLsbD_eq
  intro j hj
  rw [BitVec.getLsbD_extractLsb', r.pack_bit_reserved (by omega), Bool.and_false]
  exact BitVec.getLsbD_zero.symm

/-- Settles O15: reading the fields back gives the response, and the two fields between them hold no bit of it. -/
theorem responsePacketLayout : Obligations.ResponsePacketLayout := by
  intro r
  obtain ⟨hcode, hsome, hhalt, hcause, hres⟩ := Response.mk.inj (Response.unpack_pack r)
  exact ⟨hcode, hsome, hhalt, r.pack_reserved_field (by decide), hcause, r.pack_reserved_field (by decide), hres⟩

/-- An answer adds one packet to the output, whose fields are the response. -/
theorem State.answer_output (s : State) (c : StatusCode) (r : Option Nat) :
    ∃ q, s.answer c r = { s with out := q :: s.out } ∧ Response.unpack q = s.cs.response c r :=
  ⟨_, rfl, Response.unpack_pack _⟩

theorem StatusCode.cls_eq_indexingFault_iff {c : StatusCode} :
    c.cls = .indexingFault ↔ c = .indexOutOfRange ∨ c = .valueOverflow := by
  cases c <;> decide

/-- Settles O16: each of the three is an answer, and raising an indexing fault is one of the halted block. -/
theorem answerChangesTheOutputAlone : Obligations.AnswerChangesTheOutputAlone := by
  refine fun s v c => ⟨s.answer_output .ok (some v), s.answer_output .ok none, fun hi hv => ?_, fun hc => ?_⟩
  · rw [State.raise_eq_answer (fun hc => (StatusCode.cls_eq_indexingFault_iff.1 hc).elim hi hv)]
    exact s.answer_output c none
  · rw [State.raise_eq_halt (StatusCode.cls_eq_indexingFault_iff.2 hc)]
    exact State.answer_output _ c none

theorem StatusCode.number_eq_zero_iff {c : StatusCode} : c.number = 0x00 ↔ c = .ok := by
  cases c <;> decide

/-- The eleven codes of the status table (60 R190). -/
theorem StatusCode.number_mem (c : StatusCode) : c.number.toNat ∈
    [0x00, 0x01, 0x02, 0x03, 0x04, 0x10, 0x11, 0x20, 0x21, 0x22, 0x23] := by
  cases c <;> decide

/-- Every command ends with one response, of the control flags as it leaves them, with a result exactly when it
completes and returns one (30 R73). -/
theorem exec_response {i : Instr} (h : exec i s = .next t) : ∃ (c : StatusCode) (r : Option Nat),
    t.out = (t.cs.response c r).pack :: s.out ∧ (r.isSome ↔ c = .ok ∧ returnsValue s i) := by
  rcases exec_next h with ⟨c, hc, rfl, -⟩ | ⟨sel, e, -, he, -, rfl⟩ |
    ⟨u, -, hout, -, -, -, -, ⟨rfl, hr⟩ | ⟨v, rfl, hr⟩⟩
  · exact ⟨c, none, State.raise_out s c, by simp [hc]⟩
  · exact ⟨e, none, State.raise_out s.withoutIndex e, by simp [he]⟩
  · exact ⟨.ok, none, by rw [← hout]; rfl, by simp [hr]⟩
  · exact ⟨.ok, some v, by rw [← hout]; rfl, by simp [hr]⟩

/-- Settles O17: the fields of the one response are where the layout puts them. -/
theorem everyResponseIsWellFormed : Obligations.EveryResponseIsWellFormed := by
  intro i s t h
  obtain ⟨c, r, hout, hr⟩ := exec_response h
  obtain ⟨hcode, hsome, hhalt, hlow, hcause, hhigh, hres⟩ := responsePacketLayout (t.cs.response c r)
  refine ⟨_, hout, ?_, hhalt, hlow, hcause, hhigh, ?_, fun hnone => ?_⟩
  · rw [hcode]
    exact c.number_mem
  · rw [hcode, hsome]
    exact hr.trans (and_congr_left' StatusCode.number_eq_zero_iff.symm)
  · rw [hsome] at hnone
    rw [hres]
    cases r with
    | none => rfl
    | some v => cases hnone

/-! ## Requests (30 R70, R75) -/

theorem acceptRequest_of_decode {p : RequestPacket} {i : Instr} (h : decode p = .ok i) :
    acceptRequest p s = exec i s := by
  unfold acceptRequest
  rw [h]

/-- Settles O6: taking the event and decoding its packet leaves the command. -/
theorem stepRunsTheDecodedCommand : Obligations.StepRunsTheDecodedCommand := by
  intro s p rest i hin h
  rw [step_of_cons hin]
  exact acceptRequest_of_decode h

/-- A packet whose header is none of the thirteen commands is answered as illegal: it decodes to no command, or to
one of the three held for the select component (30 R75, 44 R185). -/
theorem acceptRequest_illegal {p : RequestPacket} (h : (hdrField p).toNat ∉
    [0x10, 0x11, 0x12, 0x13, 0x14, 0x15, 0x16, 0x20, 0x21, 0x22, 0x23, 0x30, 0x31]) :
    acceptRequest p s = s.answerIllegal := by
  cases hd : decode p with
  | error d => unfold acceptRequest; rw [hd]
  | ok i =>
    rw [acceptRequest_of_decode hd]
    rw [(decode_eq_ok_iff.1 hd).1] at h
    cases i with
    | select1 k => rfl
    | select0 k => rfl
    | select k value => rfl
    | _ => simp [opcode] at h

/-- Settles O18: a block that is not halted raises IllegalCommand, which is no indexing fault. -/
theorem illegalPacketsAreAnswered : Obligations.IllegalPacketsAreAnswered := by
  intro s p rest hin hrun hhdr
  have hstep : step s = .next (({ s with input := rest } : State).answer .illegalCommand none) := by
    rw [step_of_cons hin]
    exact (acceptRequest_illegal hhdr).trans (State.unlessHalted_running hrun)
  obtain ⟨q, hq, hresp⟩ := State.answer_output { s with input := rest } .illegalCommand none
  refine ⟨q, hstep.trans (congrArg _ hq), hresp.trans ?_⟩
  simp [Control.response, hrun, StatusCode.number]

end Machine

end Sys2Proof
end

section
/-! PROOFS. The text of commands (30 R77): a line is a mnemonic and numerals put together with spaces and commas,
and reading it takes it apart at the same places. -/

namespace Sys2Proof.Machine

variable {t u m : List Char} {n : Nat}

/-! ## Words of a line -/

/-- A word of a line: some characters, none of which separates (30 R77). -/
abbrev IsWord (t : List Char) : Prop := t ≠ [] ∧ ∀ ch ∈ t, ch ≠ ' ' ∧ ch ≠ ',' ∧ ch ≠ ';'

theorem IsWord.no_space (h : IsWord t) : ∀ ch ∈ t, ch ≠ ' ' := fun ch hch => (h.2 ch hch).1

theorem IsWord.no_comma (h : IsWord t) : ∀ ch ∈ t, ch ≠ ',' := fun ch hch => (h.2 ch hch).2.1

theorem IsWord.no_semicolon (h : IsWord t) : ∀ ch ∈ t, ch ≠ ';' := fun ch hch => (h.2 ch hch).2.2

/-- A text that has characters, and no space at either end. -/
def Trimmed (t : List Char) : Prop := t ≠ [] ∧ t.head? ≠ some ' ' ∧ t.getLast? ≠ some ' '

theorem IsWord.trimmed (h : IsWord t) : Trimmed t :=
  ⟨h.1, fun hhead => h.no_space _ (List.mem_of_mem_head? hhead) rfl,
    fun hlast => h.no_space _ (List.mem_of_mem_getLast? hlast) rfl⟩

theorem Trimmed.append (ht : Trimmed t) (m : List Char) (hu : Trimmed u) : Trimmed (t ++ m ++ u) := by
  obtain ⟨hne, hhead, -⟩ := ht
  obtain ⟨hne', -, hlast⟩ := hu
  refine ⟨by simp [hne], ?_, ?_⟩
  · rwa [List.append_assoc, List.head?_append_of_ne_nil _ hne]
  · rwa [List.getLast?_append_of_ne_nil _ hne']

theorem dropSpaces_of_head? (h : t.head? ≠ some ' ') : t.dropWhile (fun ch => ch = ' ') = t := by
  cases t with
  | nil => rfl
  | cons ch t => exact List.dropWhile_cons_of_neg (by simpa using h)

theorem trimSpaces_of_trimmed (h : Trimmed t) : trimSpaces t = t := by
  obtain ⟨-, hhead, hlast⟩ := h
  rw [← List.head?_reverse] at hlast
  rw [trimSpaces, dropSpaces_of_head? hhead, dropSpaces_of_head? hlast, List.reverse_reverse]

theorem trimSpaces_space (t : List Char) : trimSpaces (' ' :: t) = trimSpaces t := by
  simp [trimSpaces]

/-- A line without a `;` has no comment. -/
theorem dropComment_of_no_semicolon (h : ∀ ch ∈ t, ch ≠ ';') : dropComment t = t :=
  List.takeWhile_eq_self_iff.2 fun ch hch => decide_eq_true (h ch hch)

/-! ## The texts between the commas -/

/-- Even the empty text is one text between commas. -/
theorem splitCommas_ne_nil (t : List Char) : splitCommas t ≠ [] := by
  fun_cases splitCommas t <;> simp

theorem splitCommas_comma (u : List Char) : splitCommas (',' :: u) = [] :: splitCommas u := by
  cases hu : splitCommas u with
  | nil => exact absurd hu (splitCommas_ne_nil u)
  | cons w ws => simp [splitCommas, hu]

/-- Characters that are no commas stand at the front of the first text. -/
theorem splitCommas_append {w : List Char} {ws : List (List Char)} (ht : ∀ ch ∈ t, ch ≠ ',')
    (hu : splitCommas u = w :: ws) : splitCommas (t ++ u) = (t ++ w) :: ws := by
  induction t with
  | nil => exact hu
  | cons ch t ih =>
    obtain ⟨hch, ht⟩ := List.forall_mem_cons.1 ht
    simp [splitCommas, ih ht, hch]

theorem splitCommas_of_no_comma (ht : ∀ ch ∈ t, ch ≠ ',') : splitCommas t = [t] := by
  simpa using splitCommas_append (u := []) ht rfl

theorem splitCommas_append_comma (ht : ∀ ch ∈ t, ch ≠ ',') (u : List Char) :
    splitCommas (t ++ ',' :: u) = t :: splitCommas u := by
  simpa using splitCommas_append ht (splitCommas_comma u)

/-! ## Decimal numerals -/

/-- The characters of a decimal numeral. -/
def IsDecimal (t : List Char) : Prop := ∀ ch ∈ t, ∃ d < 10, ch = digitChar d

theorem digitValue_digitChar : ∀ d < 10, digitValue 10 (digitChar d) = some d := by decide

theorem digitChar_plain : ∀ d < 10, digitChar d ≠ ' ' ∧ digitChar d ≠ ',' ∧ digitChar d ≠ ';' := by decide

theorem digitChar_no_letter : ∀ d < 10, digitChar d ≠ 'x' ∧ digitChar d ≠ 'E' ∧ digitChar d ≠ 'P' := by decide

theorem digitsValue_append {base acc : Nat} (h : digitsValue base acc t = some n) (u : List Char) :
    digitsValue base acc (t ++ u) = digitsValue base n u := by
  induction t generalizing acc with
  | nil => cases h; rfl
  | cons ch t ih =>
    cases hd : digitValue base ch with
    | none => simp [digitsValue, hd] at h
    | some d =>
      simp only [List.cons_append, digitsValue, hd] at h ⊢
      exact ih h

theorem decimalDigits_isDecimal (f n : Nat) : IsDecimal (decimalDigits f n) := by
  induction f generalizing n with
  | zero => exact fun ch hch => absurd hch List.not_mem_nil
  | succ f ih =>
    unfold decimalDigits
    split
    next hn => exact fun ch hch => ⟨n, hn, List.mem_singleton.1 hch⟩
    next hn =>
      intro ch hch
      rcases List.mem_append.1 hch with hch | hch
      · exact ih _ ch hch
      · exact ⟨n % 10, Nat.mod_lt _ (by decide), List.mem_singleton.1 hch⟩

/-- Enough digits spell the number: the last digit is the remainder by 10, the others spell the quotient. -/
theorem digitsValue_decimalDigits {f : Nat} (hn : n < 10 ^ f) :
    digitsValue 10 0 (decimalDigits f n) = some n := by
  induction f generalizing n with
  | zero =>
    obtain rfl : n = 0 := by omega
    rfl
  | succ f ih =>
    unfold decimalDigits
    split
    next hn => simp [digitsValue, digitValue_digitChar n hn]
    next hn10 =>
      have hq : n / 10 < 10 ^ f := by rw [Nat.pow_succ] at hn; omega
      have hlast := digitValue_digitChar (n % 10) (Nat.mod_lt _ (by decide))
      rw [digitsValue_append (ih hq)]
      simp only [digitsValue, hlast, Nat.div_add_mod']

theorem decimalNumeral_isWord (n : Nat) : IsWord (decimalNumeral n) := by
  refine ⟨?_, fun ch hch => ?_⟩
  · unfold decimalNumeral decimalDigits
    split <;> simp
  · obtain ⟨d, hd, rfl⟩ := decimalDigits_isDecimal 20 n ch hch
    exact digitChar_plain d hd

/-- A decimal numeral has no letter, so it is neither hexadecimal nor the name of a source. -/
theorem decimalNumeral_no_letter (n : Nat) :
    'x' ∉ decimalNumeral n ∧ 'E' ∉ decimalNumeral n ∧ 'P' ∉ decimalNumeral n := by
  have hlet : ∀ ch ∈ decimalNumeral n, ch ≠ 'x' ∧ ch ≠ 'E' ∧ ch ≠ 'P' := by
    intro ch hch
    obtain ⟨d, hd, rfl⟩ := decimalDigits_isDecimal 20 n ch hch
    exact digitChar_no_letter d hd
  exact ⟨fun h => (hlet _ h).1 rfl, fun h => (hlet _ h).2.1 rfl, fun h => (hlet _ h).2.2 rfl⟩

theorem numeralValue_of_no_x (hne : t ≠ []) (hx : 'x' ∉ t) : numeralValue t = digitsValue 10 0 t := by
  unfold numeralValue
  split
  · exact absurd rfl hne
  · simp at hx
  · simp at hx
  · rfl

theorem operandValue_decimalNumeral (a : U64) : operandValue (decimalNumeral a.toNat) = some a := by
  have hval : numeralValue (decimalNumeral a.toNat) = some a.toNat := by
    rw [numeralValue_of_no_x (decimalNumeral_isWord _).1 (decimalNumeral_no_letter _).1]
    exact digitsValue_decimalDigits (lt_trans a.isLt (by decide))
  rw [operandValue, hval]
  simp [a.isLt]

theorem selectorValue_decimalNumeral (a : U64) : selectorValue (decimalNumeral a.toNat) = some a := by
  obtain ⟨-, hE, hP⟩ := decimalNumeral_no_letter a.toNat
  rw [selectorValue, if_neg (by rintro h; simp [h] at hE), if_neg (by rintro h; simp [h] at hP)]
  exact operandValue_decimalNumeral a

/-! ## Lines -/

theorem parseLine_word (hm : IsWord m) : parseLine m = commandF0 m := by
  have hcom : dropComment m = m := dropComment_of_no_semicolon hm.no_semicolon
  have hm' : ∀ ch ∈ m, decide (ch ≠ ' ') = true := fun ch hch => decide_eq_true (hm.no_space ch hch)
  unfold parseLine
  simp only [hcom, trimSpaces_of_trimmed hm.trimmed, List.takeWhile_eq_self_iff.2 hm',
    List.dropWhile_eq_nil_iff.2 hm']
  rfl

/-- A line is taken apart at its first space: the mnemonic before it, the operands after it. -/
theorem line_parts (hm : IsWord m) (ht : Trimmed t) (hc : ∀ ch ∈ t, ch ≠ ';') :
    (trimSpaces (dropComment (m ++ ' ' :: t))).takeWhile (fun ch => ch ≠ ' ') = m ∧
      trimSpaces ((trimSpaces (dropComment (m ++ ' ' :: t))).dropWhile (fun ch => ch ≠ ' ')) = t := by
  have hcom : dropComment (m ++ ' ' :: t) = m ++ ' ' :: t := by
    apply dropComment_of_no_semicolon
    rw [List.forall_mem_append, List.forall_mem_cons]
    exact ⟨hm.no_semicolon, by decide, hc⟩
  have htrim : trimSpaces (m ++ ' ' :: t) = m ++ ' ' :: t := by
    rw [List.append_cons]
    exact trimSpaces_of_trimmed (hm.trimmed.append [' '] ht)
  have hm' : ∀ ch ∈ m, decide (ch ≠ ' ') = true := fun ch hch => decide_eq_true (hm.no_space ch hch)
  rw [hcom, htrim, List.takeWhile_append_of_pos hm', List.dropWhile_append_of_pos hm']
  simp [trimSpaces_space, trimSpaces_of_trimmed ht]

theorem parseLine_line1 (hm : IsWord m) (a : U64) : parseLine (line1 m a) = commandFA m a := by
  have ha := decimalNumeral_isWord a.toNat
  obtain ⟨hmnem, hrest⟩ := line_parts hm ha.trimmed ha.no_semicolon
  have hsplit := splitCommas_of_no_comma ha.no_comma
  have hline : line1 m a = m ++ ' ' :: decimalNumeral a.toNat := by simp [line1]
  unfold parseLine
  simp only [hline, hmnem, hrest, hsplit, List.map_cons, List.map_nil, trimSpaces_of_trimmed ha.trimmed,
    operandValue_decimalNumeral, selectorValue_decimalNumeral, ite_self, if_neg ha.1]

theorem parseLine_line2 (hm : IsWord m) (a b : U64) : parseLine (line2 m a b) = commandFAB m a b := by
  have ha := decimalNumeral_isWord a.toNat
  have hb := decimalNumeral_isWord b.toNat
  have htrim : Trimmed (decimalNumeral a.toNat ++ [',', ' '] ++ decimalNumeral b.toNat) :=
    ha.trimmed.append _ hb.trimmed
  obtain ⟨hmnem, hrest⟩ := line_parts hm htrim (by
    simp only [List.forall_mem_append]
    exact ⟨⟨ha.no_semicolon, by simp⟩, hb.no_semicolon⟩)
  have hsplit : splitCommas (decimalNumeral a.toNat ++ [',', ' '] ++ decimalNumeral b.toNat) =
      [decimalNumeral a.toNat, ' ' :: decimalNumeral b.toNat] := by
    rw [List.append_assoc]
    refine (splitCommas_append_comma ha.no_comma _).trans (congrArg _ ?_)
    apply splitCommas_of_no_comma
    exact List.forall_mem_cons.2 ⟨by decide, hb.no_comma⟩
  have hline : line2 m a b =
      m ++ ' ' :: (decimalNumeral a.toNat ++ [',', ' '] ++ decimalNumeral b.toNat) := by
    simp [line2, line1]
  unfold parseLine
  simp only [hline, hmnem, hrest, hsplit, List.map_cons, List.map_nil, trimSpaces_space,
    trimSpaces_of_trimmed ha.trimmed, trimSpaces_of_trimmed hb.trimmed, operandValue_decimalNumeral,
    if_neg htrim.1]

/-- Settles O39: each line is a mnemonic and the numerals of its operands. -/
theorem writtenLinesReadBack : Obligations.WrittenLinesReadBack := by
  intro i
  cases i with
  | new k n => exact parseLine_line2 (by simp [IsWord]) k n
  | len => exact parseLine_word (by simp [IsWord, commandLine])
  | isempty => exact parseLine_word (by simp [IsWord, commandLine])
  | get idx => exact parseLine_line1 (by simp [IsWord]) idx
  | set idx value => exact parseLine_line2 (by simp [IsWord]) idx value
  | getbit pos => exact parseLine_line1 (by simp [IsWord]) pos
  | setbit pos v => exact parseLine_line2 (by simp [IsWord]) pos v
  | iter => exact parseLine_word (by simp [IsWord, commandLine])
  | itnext => exact parseLine_word (by simp [IsWord, commandLine])
  | itprev => exact parseLine_word (by simp [IsWord, commandLine])
  | itskip m => exact parseLine_line1 (by simp [IsWord]) m
  | build sel => exact parseLine_line1 (by simp [IsWord]) sel
  | rank position => exact parseLine_line1 (by simp [IsWord]) position
  | select1 k => exact parseLine_line1 (by simp [IsWord]) k
  | select0 k => exact parseLine_line1 (by simp [IsWord]) k
  | select k value => exact parseLine_line2 (by simp [IsWord]) k value

end Sys2Proof.Machine
end

section
/-! PROOFS. The word layer: the laws of the field operations and the counts of a word (40 R94 to R99). -/

namespace Sys2Proof.Machine

variable {W w off len v i p : Nat}

/-! ## Fields -/

/-- The bits of `get_bits`, least significant first (40 R95). -/
theorem testBit_getBits (W w off len j : Nat) :
    (getBits W w off len).testBit j = (decide (j < len) && w.testBit (W - off - len + j)) := by
  rw [getBits, Nat.testBit_mod_two_pow, Nat.testBit_div_two_pow, Nat.add_comm j]

/-- The bits of a field by position, the bit at position `off` its most significant (40 R95). -/
theorem bit_getBits {j : Nat} (hf : off + len ≤ W) (hj : j < len) :
    getBits W w off len / 2 ^ (len - 1 - j) % 2 = getBit W w (off + j) := by
  have hpos : W - off - len + (len - 1 - j) = W - 1 - (off + j) := by omega
  rw [div_mod_eq_testBit, testBit_getBits, hpos, decide_eq_true (by omega), Bool.true_and, getBit_eq_testBit]

/-- A field of one bit is that bit. -/
theorem getBits_one (hi : i < W) : getBits W w i 1 = getBit W w i := by
  rw [getBits_succ (by omega), getBits_len_zero, Nat.mul_zero, Nat.zero_add, Nat.add_zero]

/-- What a field reads after it was set: the low bits of the value (40 R96). -/
theorem getBits_setBits_same (W w off len v : Nat) :
    getBits W (setBits W w off len v) off len = v % 2 ^ len := by
  apply Nat.eq_of_testBit_eq
  intro j
  rw [testBit_getBits, Nat.testBit_mod_two_pow]
  by_cases hj : j < len
  · have hin : (setBits W w off len v).testBit (W - off - len + j) = v.testBit j := by
      rw [testBit_setBits, if_neg (by omega), if_pos (by omega), Nat.add_sub_cancel_left]
    rw [hin]
  · simp [hj]

/-- A field set to what it reads leaves the word as it was (40 R96). -/
theorem setBits_getBits (W w off len : Nat) : setBits W w off len (getBits W w off len) = w := by
  apply Nat.eq_of_testBit_eq
  intro j
  rw [testBit_setBits]
  split_ifs with hlow hmid
  · rfl
  · rw [testBit_getBits, decide_eq_true (by omega), Bool.true_and, Nat.add_sub_cancel' (by omega)]
  · rfl

theorem getBit_setBits_of_outside (hf : off + len ≤ W) (hp : p < W) (ho : p < off ∨ off + len ≤ p) :
    getBit W (setBits W w off len v) p = getBit W w p := by
  rw [getBit_setBits hf hp, if_neg (by omega)]

/-- `set_bit` sets its own bit (40 R94). -/
theorem getBit_setBit_same (hi : i < W) (b : Bool) : getBit W (setBit W w i b) i = b.toNat := by
  rw [setBit_eq_setBits, ← getBits_one hi, getBits_setBits_same]
  cases b <;> rfl

/-- `set_bit` leaves every other bit (40 R94). -/
theorem getBit_setBit_of_ne (hi : i < W) (hp : p < W) (hne : p ≠ i) (b : Bool) :
    getBit W (setBit W w i b) p = getBit W w p := by
  rw [setBit_eq_setBits, getBit_setBits_of_outside hi hp (by omega)]

/-- A bit set to what it reads leaves the word as it was (40 R94). -/
theorem setBit_getBit (hi : i < W) : setBit W w i (decide (getBit W w i = 1)) = w := by
  have hbit : (decide (getBit W w i = 1)).toNat = getBits W w i 1 := by
    rw [getBits_one hi]
    rcases Nat.mod_two_eq_zero_or_one (w / 2 ^ (W - 1 - i)) with h | h <;> simp [getBit, h]
  rw [setBit_eq_setBits, hbit, setBits_getBits]

/-- Settles O58: each law is that of the field operations bit by bit. -/
theorem fieldLaws : Obligations.FieldLaws := by
  intro c w o l v i b hw hf hi
  exact ⟨getBits_lt _ _ _ _, fun _ hj => bit_getBits hf hj, getBits_setBits_same _ _ _ _ _,
    fun _ hp ho => getBit_setBits_of_outside hf hp ho, setBits_getBits _ _ _ _, setBits_lt hw hf,
    setBit_eq_setBits b, getBit_setBit_same hi b, fun _ hj hne => getBit_setBit_of_ne hi hj hne b,
    setBit_getBit hi⟩

/-! ## Counts -/

/-- `count_ones` is the sum of the bits (40 R98). -/
theorem countOnes_eq_sum (W w : Nat) :
    countOnes W w = ((List.range W).map (fun j => w / 2 ^ j % 2)).sum := by
  induction W with
  | zero => rfl
  | succ W ih => rw [countOnes, ih, List.sum_range_succ]

/-- The leading zeros of a word that is not 0 are the positions before its most significant set bit. -/
theorem leadingZeros_add_log2 (hw : w < 2 ^ W) (h0 : w ≠ 0) : leadingZeros W w + Nat.log2 w + 1 = W := by
  have hlog : Nat.log2 w < W := (Nat.log2_lt h0).2 hw
  rw [leadingZeros, if_neg h0]
  omega

theorem getBit_leadingZeros (hw : w < 2 ^ W) (h0 : w ≠ 0) : getBit W w (leadingZeros W w) = 1 := by
  have hlz := leadingZeros_add_log2 hw h0
  have hpos : W - 1 - leadingZeros W w = Nat.log2 w := by omega
  rw [getBit_eq_testBit, hpos, Nat.testBit_log2 h0, Bool.toNat_true]

theorem getBit_of_lt_leadingZeros (hw : w < 2 ^ W) (h0 : w ≠ 0) (hp : p < leadingZeros W w) :
    getBit W w p = 0 := by
  have hlz := leadingZeros_add_log2 hw h0
  have habove : w < 2 ^ (W - 1 - p) := (Nat.log2_lt h0).1 (by omega)
  rw [getBit_eq_testBit, Nat.testBit_lt_two_pow habove, Bool.toNat_false]

/-- `clog2` by a leading-zero count in any width that holds n - 1 (00 R11). -/
theorem clog2_eq_sub_leadingZeros {n : Nat} (h2 : 2 ≤ n) (hn : n ≤ 2 ^ W) :
    clog2 n = W - leadingZeros W (n - 1) := by
  have hlz := leadingZeros_add_log2 (W := W) (w := n - 1) (by omega) (by omega)
  rw [clog2, if_neg (by omega)]
  omega

/-- Settles O59: the population count by induction on the width, the other two by the place of the most
significant set bit. -/
theorem countsOfAWord : Obligations.CountsOfAWord := by
  intro c w hw
  refine ⟨countOnes_eq_sum _ _, countOnes_le _ _, fun h0 => if_pos h0, fun hpos => ?_,
    fun _ _ => clog2_le_iff, fun _ h2 hn => clog2_eq_sub_leadingZeros h2 hn⟩
  have h0 : w ≠ 0 := by omega
  have hlz := leadingZeros_add_log2 hw h0
  exact ⟨by omega, getBit_leadingZeros hw h0, fun _ hp => getBit_of_lt_leadingZeros hw h0 hp⟩

end Sys2Proof.Machine
end

section
/-! PROOFS. The packed vector: what NEW, LEN, ISEMPTY, GET, SET, GETBIT and SETBIT answer and leave (41 R111 to R124),
and the code that BUILD, which makes its tables by the same functions, answers (43 R156, R169). -/

namespace Sys2Proof.Machine

variable {s t : State} {i pos value : U64}

/-! ## The checks before a command (60 R195) -/

section Checks

variable {b : Host.Outcome State Fault Refusal} {valid : Bool}

theorem State.checks_pass (hr : s.cs.halt = false) (hv : valid = true) :
    s.unlessHalted (s.ifConstructed valid b) = b := by
  rw [State.unlessHalted_running hr, hv, State.ifConstructed_true]

theorem State.checks_notConstructed (hr : s.cs.halt = false) (hv : valid = false) :
    s.unlessHalted (s.ifConstructed valid b) = .next (s.raise .notConstructed) := by
  rw [State.unlessHalted_running hr, hv, State.ifConstructed_false]

end Checks

/-! ## NEW, LEN and ISEMPTY -/

theorem exec_new_of_ok {k n : U64} {v : Vec} (hr : s.cs.halt = false)
    (hw : vnew s.cfg k.toNat n.toNat = .ok v) : exec (.new k n) s = .next (s.installVector v).respondNone := by
  refine (State.unlessHalted_running hr).trans ?_
  rw [hw]
  rfl

/-- A construction error changes the response alone (60 R192). -/
theorem exec_new_of_failure {k n : U64} {code : StatusCode} (hr : s.cs.halt = false)
    (hf : constructionFailure s.cfg k.toNat n.toNat = some code) :
    exec (.new k n) s = .next (s.answer code none) := by
  rcases vnew_cases s.cfg k.toNat n.toNat with ⟨-, hnone, -⟩ | ⟨code', hcls, hsome, hw⟩
  · rw [hf] at hnone; cases hnone
  · rw [hf] at hsome
    cases hsome
    refine (State.unlessHalted_running hr).trans ?_
    rw [hw, ← State.raise_eq_answer (by rw [hcls]; decide)]
    rfl

/-- An index outlives the construction of a vector unless it was built over the old one (10 R35). -/
theorem State.installVector_ri_eq_ite (s : State) (v : Vec) : (s.installVector v).ri =
    if s.ri.valid = true ∧ s.ri.src = SourceSel.pv then { s.ri with valid := false } else s.ri := by
  rw [State.installVector_ri]
  split_ifs with h
  · obtain ⟨-, hsrc⟩ := h
    simp [hsrc]
  · have hkeep : (s.ri.valid && decide (s.ri.src ≠ .pv)) = s.ri.valid := by
      cases hv : s.ri.valid with
      | false => rfl
      | true => simpa [hv] using h
    rw [hkeep]

/-- Settles O25: each check that fails after those before it have passed is the first failure, and with none the
vector is installed. -/
theorem newConstructsOrReports : Obligations.NewConstructsOrReports := by
  intro s k n hr nw
  rw [← State.installVector_ri_eq_ite s (Vec.zeros s.cfg.W k.toNat n.toNat)]
  split_ifs with hwidth hsize haddress hcap
  · exact exec_new_of_failure hr (if_pos hwidth)
  · exact exec_new_of_failure hr (by rw [constructionFailure, if_neg hwidth, if_pos hsize])
  · exact exec_new_of_failure hr (by rw [constructionFailure, if_neg hwidth, if_neg hsize, if_pos haddress])
  · exact exec_new_of_failure hr
      (by rw [constructionFailure, if_neg hwidth, if_neg hsize, if_neg haddress, if_pos hcap])
  · have hc : constructible s.cfg k.toNat n.toNat :=
      ⟨not_lt.1 hwidth, not_le.1 hsize, not_lt.1 haddress, not_lt.1 hcap⟩
    exact exec_new_of_ok hr (vnew_eq_ok hc)

/-- Settles O27, by whether a vector exists. -/
theorem lenAndIsemptyAnswerTheCount : Obligations.LenAndIsemptyAnswerTheCount := by
  intro s hr
  cases hv : s.pv.valid with
  | false => exact ⟨State.checks_notConstructed hr hv, State.checks_notConstructed hr hv⟩
  | true => exact ⟨State.checks_pass hr hv, State.checks_pass hr hv⟩

/-! ## States with a vector -/

/-- What a command on a valid vector finds: the invariant, a block that is not halted, and a vector. -/
structure VectorReady (s : State) : Prop where
  inv : s.Inv
  running : s.cs.halt = false
  valid : s.pv.valid = true

theorem VectorReady.wf (h : VectorReady s) : s.pv.vec.wf s.cfg := by
  obtain ⟨-, -, hpv, -⟩ := h.inv
  exact hpv h.valid

theorem VectorReady.respond (h : VectorReady s) (x : Nat) : VectorReady (s.respond x) :=
  ⟨(State.answer_inv_iff .ok (some x)).2 h.inv, h.running, h.valid⟩

/-! ## GET -/

theorem exec_get_outOfRange (hr : s.cs.halt = false) (hv : s.pv.valid = true) (hi : s.pv.vec.n ≤ i.toNat) :
    exec (.get i) s = .next (s.raise .indexOutOfRange) := by
  refine (State.checks_pass hr hv).trans ?_
  rw [vget_out_of_range hi]
  rfl

theorem VectorReady.exec_get (h : VectorReady s) (hi : i.toNat < s.pv.vec.n) :
    exec (.get i) s = .next (s.respond (s.pv.vec.element s.cfg.W i.toNat)) := by
  refine (State.checks_pass h.running h.valid).trans ?_
  rw [vget_eq h.wf hi]
  rfl

/-- Settles O28: the checks in their order, then the element, whichever of its three paths reads it. -/
theorem getAnswersTheElement : Obligations.GetAnswersTheElement := by
  intro s i h hr
  refine ⟨?_, Vec.element_lt _ _ _⟩
  split_ifs with hmissing hi
  · exact State.checks_notConstructed hr hmissing
  · exact exec_get_outOfRange hr (eq_true_of_ne_false hmissing) hi
  · exact VectorReady.exec_get ⟨h, hr, eq_true_of_ne_false hmissing⟩ (not_le.1 hi)

/-! ## What a rewriting of the words leaves -/

section Rewritings

variable {c : Config} {v v' : Vec} {bit : Nat → Nat}

theorem Rewritten.eq_withWords (r : Rewritten c v v' bit) : v' = { v with mem := v'.mem } := by
  rw [← r.k, ← r.n]

/-- A word that holds no bit of the field is as it was (20 R58). -/
theorem Rewritten.word_of_outside {start len x wi : Nat} (r : Rewritten c v v' (fieldBits c.W v start len x))
    (hm : v.mem.wf c.W) (hout : ∀ q, start ≤ q → q < start + len → wordIndex c.W q ≠ wi) :
    v'.mem.word wi = v.mem.word wi := by
  refine Memory.word_eq_of_flatBit r.wf hm fun q hq => ?_
  rw [r.bits, fieldBits, if_neg fun ⟨hge, hlt⟩ => hout q hge hlt hq]

/-- A field of one bit is written at its position alone. -/
theorem fieldBits_one (W : Nat) (v : Vec) (p q : Nat) (b : Bool) :
    fieldBits W v p 1 b.toNat q = if q = p then b.toNat else v.mem.flatBit W q := by
  unfold fieldBits
  by_cases hq : q = p
  · subst hq
    cases b <;> simp
  · rw [if_neg (by omega), if_neg hq]

end Rewritings

/-! ## SET -/

theorem exec_set_of_ok {v : Vec} {d : Nat} (hr : s.cs.halt = false) (hv : s.pv.valid = true)
    (hw : vset s.cfg s.pv.vec i.toNat value.toNat s.draws = .ok (v, d)) :
    exec (.set i value) s = .next ({ s.setVec v with draws := d }).respondNone := by
  refine (State.checks_pass hr hv).trans ?_
  rw [hw]
  rfl

theorem exec_set_of_raised {e : StatusCode} (hr : s.cs.halt = false) (hv : s.pv.valid = true)
    (hw : vset s.cfg s.pv.vec i.toNat value.toNat s.draws = .error (.raised e)) :
    exec (.set i value) s = .next (s.raise e) := by
  refine (State.checks_pass hr hv).trans ?_
  rw [hw]
  rfl

theorem exec_set_outOfRange (hr : s.cs.halt = false) (hv : s.pv.valid = true) (hi : s.pv.vec.n ≤ i.toNat) :
    exec (.set i value) s = .next (s.raise .indexOutOfRange) :=
  exec_set_of_raised hr hv (if_pos hi)

/-- Settles O30: the bounds check comes first in `vset`, then the value check. -/
theorem setChecksTheIndexThenTheValue : Obligations.SetChecksTheIndexThenTheValue := by
  refine fun s i value hr hv => ⟨exec_set_outOfRange hr hv, fun hi hx hd => exec_set_of_raised hr hv ?_⟩
  rw [vset, if_neg (not_le.2 hi), if_neg (not_lt.2 hx), if_pos hd]

/-- A SET of a value that fits rewrites the bits of its element with it, in each of the three regimes. -/
theorem VectorReady.exec_set (h : VectorReady s) (hi : i.toNat < s.pv.vec.n)
    (hx : value.toNat < 2 ^ s.pv.vec.k) :
    ∃ v, exec (.set i value) s = .next (s.setVec v).respondNone ∧
      Rewritten s.cfg s.pv.vec v
        (fieldBits s.cfg.W s.pv.vec (i.toNat * s.pv.vec.k) s.pv.vec.k value.toNat) := by
  rcases vset_cases h.wf i.toNat value.toNat s.draws with
    ⟨hn, -⟩ | ⟨-, hk, -⟩ | ⟨-, -, v, hw, r⟩ | ⟨-, hk, -⟩
  · exact absurd hi (not_lt.2 hn)
  · exact absurd hx (not_lt.2 hk)
  · exact ⟨v, exec_set_of_ok h.running h.valid hw, r⟩
  · exact absurd hx (not_lt.2 hk)

/-- With DBG = 0 a SET of a value that does not fit rewrites the bits of its element with a free value (93 U3). -/
theorem VectorReady.exec_set_overwide (h : VectorReady s) (hi : i.toNat < s.pv.vec.n)
    (hx : 2 ^ s.pv.vec.k ≤ value.toNat) (hd : s.cfg.dbg = false) :
    ∃ v, exec (.set i value) s = .next ({ s.setVec v with draws := s.draws + 1 }).respondNone ∧
      Rewritten s.cfg s.pv.vec v
        (fieldBits s.cfg.W s.pv.vec (i.toNat * s.pv.vec.k) s.pv.vec.k (freeBits s.draws s.pv.vec.k)) := by
  rcases vset_cases h.wf i.toNat value.toNat s.draws with
    ⟨hn, -⟩ | ⟨-, -, hdbg, -⟩ | ⟨-, hk, -⟩ | ⟨-, -, -, v, hw, r⟩
  · exact absurd hi (not_lt.2 hn)
  · rw [hd] at hdbg; cases hdbg
  · exact absurd hx (not_le.2 hk)
  · exact ⟨v, exec_set_of_ok h.running h.valid hw, r⟩

/-- Settles O29: the rewriting of the element's field says what every bit and every word becomes. -/
theorem setReplacesOneElement : Obligations.SetReplacesOneElement := by
  intro s i value h hr hv hi hx
  have hs : VectorReady s := ⟨h, hr, hv⟩
  obtain ⟨-, -, -, -, -, -, hm⟩ := hs.wf
  obtain ⟨v, hexec, r⟩ := hs.exec_set hi hx
  refine ⟨v.mem, ?_, r.count, r.bits, fun wi hout => r.word_of_outside hm hout⟩
  rw [hexec, r.eq_withWords]
  rfl

/-- Settles O31: whatever bits the element takes, those outside it stay. -/
theorem overwideSetKeepsTheOtherBits : Obligations.OverwideSetKeepsTheOtherBits := by
  intro s i value h hr hv hi hx hd
  obtain ⟨v, hexec, r⟩ := VectorReady.exec_set_overwide ⟨h, hr, hv⟩ hi hx hd
  refine ⟨v.mem, ?_, r.count, fun q hq => ?_⟩
  · rw [hexec, r.eq_withWords]
    rfl
  · rw [r.bits, fieldBits, if_neg (by omega)]

/-! ## GET after SET (41 R124) -/

/-- One legal SET leaves a state with a vector of the same shape in which that element alone reads anew. -/
theorem VectorReady.set (h : VectorReady s) (hi : i.toNat < s.pv.vec.n) (hx : value.toNat < 2 ^ s.pv.vec.k) :
    ∃ t, exec (.set i value) s = .next t ∧ VectorReady t ∧
      t.pv.vec.k = s.pv.vec.k ∧ t.pv.vec.n = s.pv.vec.n ∧
      ∀ j : U64, t.pv.vec.element t.cfg.W j.toNat =
        if j = i then value.toNat else s.pv.vec.element s.cfg.W j.toNat := by
  obtain ⟨v, hexec, r⟩ := h.exec_set hi hx
  refine ⟨_, hexec, ⟨exec_inv h.inv hexec, h.running, h.valid⟩, r.k, r.n, fun j => ?_⟩
  split_ifs with hj
  · rw [hj]
    exact r.element_same.trans (Nat.mod_eq_of_lt hx)
  · exact r.element_other fun he => hj (BitVec.eq_of_toNat_eq he)

/-- The value last set at an index by a list of SETs, or what it held before. -/
def lastSet (sets : List (U64 × U64)) (j : U64) (before : Nat) : Nat :=
  (sets.reverse.find? (fun o => o.1 = j)).elim before (fun o => o.2.toNat)

/-- The first SET of a list gives what the others find before them. -/
theorem lastSet_cons (o : U64 × U64) (sets : List (U64 × U64)) (j : U64) (before : Nat) :
    lastSet (o :: sets) j before = lastSet sets j (if j = o.1 then o.2.toNat else before) := by
  unfold lastSet
  rw [List.reverse_cons, List.find?_append]
  cases sets.reverse.find? (fun o => o.1 = j) with
  | some p => rfl
  | none =>
    by_cases hj : j = o.1
    · simp [hj]
    · simp [hj, Ne.symm hj]

theorem runCommands_cons {cmd : Instr} {rest : List Instr} (h : exec cmd s = .next t) :
    runCommands (cmd :: rest) s = runCommands rest t := by
  rw [runCommands, h]

/-- Any list of legal SETs runs, and leaves each element with the last value set at it. -/
theorem VectorReady.runSets {sets : List (U64 × U64)} (h : VectorReady s)
    (hsets : ∀ o ∈ sets, o.1.toNat < s.pv.vec.n ∧ o.2.toNat < 2 ^ s.pv.vec.k) :
    ∃ t, runCommands (sets.map (fun o => .set o.1 o.2)) s = some t ∧ VectorReady t ∧
      t.pv.vec.n = s.pv.vec.n ∧ ∀ j : U64, t.pv.vec.element t.cfg.W j.toNat =
        lastSet sets j (s.pv.vec.element s.cfg.W j.toNat) := by
  induction sets generalizing s with
  | nil => exact ⟨s, rfl, h, rfl, fun _ => rfl⟩
  | cons o sets ih =>
    obtain ⟨⟨hi, hx⟩, hrest⟩ := List.forall_mem_cons.1 hsets
    obtain ⟨t, hexec, ht, hk, hn, hset⟩ := h.set hi hx
    obtain ⟨u, hrun, hu, hun, hsets⟩ := ih ht (by rwa [hk, hn])
    refine ⟨u, (runCommands_cons hexec).trans hrun, hu, hun.trans hn, fun j => ?_⟩
    rw [hsets, hset, lastSet_cons]

/-- Settles O32: one SET, a SET or GET past the end, and any list of SETs by induction on the list. -/
theorem getAfterSet : Obligations.GetAfterSet := by
  intro s h hr hv
  have hs : VectorReady s := ⟨h, hr, hv⟩
  refine ⟨fun i j value hi hj hx => ?_,
    fun i value hi => ⟨exec_get_outOfRange hr hv hi, exec_set_outOfRange hr hv hi⟩, fun sets hsets => ?_⟩
  · obtain ⟨t, hexec, ht, -, hn, hset⟩ := hs.set hi hx
    have hj' : j.toNat < t.pv.vec.n := by rwa [hn]
    rw [← hset]
    exact ⟨t, hexec, ht.exec_get hj', fun x => (ht.respond x).exec_get hj'⟩
  · obtain ⟨t, hrun, ht, hn, hlast⟩ := hs.runSets hsets
    refine ⟨t, hrun, fun j hj => ?_⟩
    rw [ht.exec_get (by rwa [hn]), hlast, lastSet]
    cases sets.reverse.find? (fun o => o.1 = j) <;> rfl

/-! ## GETBIT -/

/-- A flat bit of the elements is a bit of the element it lies in (20 R56). -/
theorem Vec.flatBit_eq_element_bit (W : Nat) {v : Vec} {p : Nat} (hk : 0 < v.k) :
    v.mem.flatBit W p = v.element W (p / v.k) / 2 ^ (v.k - 1 - p % v.k) % 2 := by
  rw [Vec.element, Memory.field_bit W v.mem _ v.k _ (Nat.mod_lt p hk), Nat.div_add_mod']

/-- Settles O33: a position below n·k lies in the store, and n·k is 0 at width 0. -/
theorem getbitAnswersTheFlatBit : Obligations.GetbitAnswersTheFlatBit := by
  intro s pos h hr hv hp
  have hs : VectorReady s := ⟨h, hr, hv⟩
  refine ⟨?_, Vec.flatBit_eq_element_bit s.cfg.W (Nat.pos_of_lt_mul_left hp)⟩
  refine (State.checks_pass hr hv).trans ((if_pos hp).trans ?_)
  rw [vgetbit_eq (lt_of_lt_of_le hp (Vec.bits_le hs.wf))]
  rfl

/-- Settles O34: past the bound the answer is one free bit. -/
theorem getbitBeyondTheElementsAnswersSomeBit : Obligations.GetbitBeyondTheElementsAnswersSomeBit :=
  fun s _ hr hv hp => ⟨freeBits s.draws 1, Nat.mod_lt _ (by decide),
    (State.checks_pass hr hv).trans (if_neg (not_lt.2 hp))⟩

/-! ## SETBIT -/

/-- SETBIT of a bit makes no check but these, and its bound decides which write it makes (41 R121). -/
theorem exec_setbit_eq (hr : s.cs.halt = false) (hv : s.pv.valid = true) (hb : value.toNat ≤ 1) :
    exec (.setbit pos value) s =
      if pos.toNat < s.pv.vec.bitLength then
        s.finish (vsetbit s.cfg.W s.pv.vec pos.toNat (decide (value.toNat = 1)) >>= fun v =>
          .ok (s.setVec v).respondNone)
      else s.finish (s.strayBitWrite pos.toNat >>= fun u => .ok u.respondNone) := by
  rcases operandBit_cases value with ⟨-, hop⟩ | ⟨hlt, -⟩
  · refine (State.unlessHalted_running hr).trans ?_
    rw [hop]
    dsimp only
    rw [hv]
    rfl
  · exact absurd hb (not_le.2 hlt)

/-- Settles O35: inside the elements SETBIT rewrites a field of one bit. -/
theorem setbitReplacesOneBit : Obligations.SetbitReplacesOneBit := by
  intro s pos b h hr hv hb hp
  have hwf := (VectorReady.mk h hr hv).wf
  obtain ⟨-, -, -, -, -, -, hm⟩ := id hwf
  obtain ⟨v, hw, r⟩ := vsetbit_eq hm (lt_of_lt_of_le hp (Vec.bits_le hwf)) (decide (b.toNat = 1))
  have hbit : (decide (b.toNat = 1)).toNat = b.toNat := by
    rcases (by omega : b.toNat = 0 ∨ b.toNat = 1) with e | e <;> rw [e] <;> rfl
  refine ⟨v.mem, ?_, r.count, fun q => ?_, fun wi hwi => r.word_of_outside hm fun q hge hlt => ?_⟩
  · refine (exec_setbit_eq hr hv hb).trans ((if_pos hp).trans ?_)
    rw [hw, r.eq_withWords]
    rfl
  · rw [r.bits, fieldBits_one, hbit]
  · rw [show q = pos.toNat by omega]
    exact hwi.symm

/-- Everything a stray bit write does to a valid vector: it rewrites words alone, and in the store padding alone
(93 U2, logs 8 and 9). -/
theorem State.strayBitWrite_eq {p : Nat} (h : s.pv.vec.wf s.cfg) (hp : s.pv.vec.bitLength ≤ p) :
    ∃ m : Memory, s.strayBitWrite p =
        .ok { s.setVec { s.pv.vec with mem := m } with draws := s.draws + 1 } ∧
      m.count = s.pv.vec.mem.count ∧ m.wf s.cfg.W ∧
      (p < s.pv.vec.mem.count * s.cfg.W → ∀ q, q < s.pv.vec.bitLength →
        m.flatBit s.cfg.W q = s.pv.vec.mem.flatBit s.cfg.W q) := by
  unfold State.strayBitWrite
  split_ifs with hin
  · obtain ⟨v, hw, r⟩ := scramblePadding_eq h (lt_of_le_of_lt hp hin) s.draws
    refine ⟨v.mem, ?_, r.count, r.wf, fun _ q hq => ?_⟩
    · rw [hw, ← r.eq_withWords]
      rfl
    · rw [r.bits, fieldBits, if_neg fun ⟨hge, _⟩ => absurd hq (not_lt.2 hge)]
  · obtain ⟨-, -, -, -, -, -, hm⟩ := scrambleWords_wf h s.draws
    exact ⟨_, rfl, foldl_put_count _ _, hm, fun hin' => absurd hin' hin⟩

/-- Settles O36: past the bound the write is the stray one. -/
theorem setbitBeyondTheElementsCompletes : Obligations.SetbitBeyondTheElementsCompletes := by
  intro s pos b h hr hv hb hp
  obtain ⟨m, hw, hcount, hwf, hbits⟩ := State.strayBitWrite_eq (VectorReady.mk h hr hv).wf hp
  refine ⟨m, ?_, hcount, hwf, hbits⟩
  refine (exec_setbit_eq hr hv hb).trans ((if_neg (not_lt.2 hp)).trans ?_)
  rw [hw]
  rfl

/-! ## What BUILD answers (43 R156, R169) -/

section Build

variable {sel : U64} {src : SourceSel}

theorem exec_build_of_ok {ri : RankIndex} {d : Nat} (hr : s.cs.halt = false) (hsel : operandSource sel = some src)
    (hx : s.sourceExists src = true) (hb : buildIndex s.cfg src (s.source src) s.draws = .ok (ri, d)) :
    exec (.build sel) s = .next ({ s with ri := ri, draws := d }).respondNone := by
  refine (State.unlessHalted_running hr).trans ?_
  rw [hsel]
  dsimp only
  rw [hx, State.ifConstructed_true, hb]
  rfl

/-- A build that fails leaves no index (60 R192, R193). -/
theorem exec_build_of_raised {e : StatusCode} (hr : s.cs.halt = false) (hsel : operandSource sel = some src)
    (hx : s.sourceExists src = true) (hb : buildIndex s.cfg src (s.source src) s.draws = .error (.raised e)) :
    exec (.build sel) s = .next (s.withoutIndex.raise e) := by
  refine (State.unlessHalted_running hr).trans ?_
  rw [hsel]
  dsimp only
  rw [hx, State.ifConstructed_true, hb]
  rfl

end Build

theorem State.answer_newestCode (s : State) (c : StatusCode) (r : Option Nat) :
    (s.answer c r).newestCode = some c.number :=
  congrArg (fun q : Response => some q.code) (Response.unpack_pack (s.cs.response c r))

theorem State.raise_newestCode (s : State) (c : StatusCode) : (s.raise c).newestCode = some c.number := by
  unfold State.raise
  cases c.cls <;> exact State.answer_newestCode _ c none

/-- Settles O60: the three outcomes of a build decide the code, and its class what the failure changes. -/
theorem buildAnswersTheFirstFailure : Obligations.BuildAnswersTheFirstFailure := by
  intro s sel src h hr hsel hx
  rcases buildIndex_cases src s.draws (h.source_bitLen_lt hx) with
    ⟨code, hcls, hfail, hb⟩ | ⟨hfail, hdbg, hfit, hb⟩ | ⟨ri, d, hb, hbuilt, hfail, hfit, -⟩
  · refine ⟨_, exec_build_of_raised hr hsel hx hb, ?_⟩
    rw [hfail]
    have hcs : (s.withoutIndex.raise code).cs = s.cs := by
      rw [State.raise_cs, if_neg (by rw [hcls]; decide), State.withoutIndex_cs]
    exact ⟨State.raise_newestCode _ _, hcs, by rw [State.raise_ri, State.withoutIndex_ri_valid]⟩
  · refine ⟨_, exec_build_of_raised hr hsel hx hb, ?_⟩
    rw [hfail]
    dsimp only
    rw [if_pos ⟨hdbg, hfit⟩]
    exact ⟨State.raise_newestCode _ _, rfl, by rw [State.raise_ri, State.withoutIndex_ri_valid]⟩
  · refine ⟨_, exec_build_of_ok hr hsel hx hb, ?_⟩
    rw [hfail]
    dsimp only
    rw [if_neg fun ⟨hdbg, hbad⟩ => hbad (hfit hdbg)]
    exact ⟨State.answer_newestCode _ _ _, rfl, hbuilt.valid, hbuilt.sel⟩

end Sys2Proof.Machine
end

section
/-! PROOFS. The iterator: what ITER, ITNEXT, ITPREV and ITSKIP answer and leave, what a whole iteration produces
(42 R140 to R145), and the debug rendering (42 R146). -/

namespace Sys2Proof.Machine

variable {s t u : State} {i : Instr}

/-! ## ITER and ITSKIP -/

/-- Settles O40, by whether a vector exists. -/
theorem iterStartsOver : Obligations.IterStartsOver := by
  intro s hr
  split_ifs with hmissing
  · exact State.checks_notConstructed hr hmissing
  · exact State.checks_pass hr (eq_true_of_ne_false hmissing)

/-- Settles O43: the least of the sum and the back cursor is the one or the other. -/
theorem itskipSaturates : Obligations.ItskipSaturates := by
  intro s m hr
  rw [← min_def]
  split_ifs with hmissing
  · exact State.checks_notConstructed hr hmissing
  · exact State.checks_pass hr (eq_true_of_ne_false hmissing)

/-! ## ITNEXT and ITPREV -/

/-- What ITNEXT and ITPREV find when they are not refused: the invariant, a block that is not halted, and an
iterator. -/
structure IteratorReady (s : State) : Prop where
  inv : s.Inv
  running : s.cs.halt = false
  valid : s.it.valid = true

/-- An iterator stands over a valid vector, its cursors ordered and within it (10 R30). -/
theorem IteratorReady.over_vector (h : IteratorReady s) :
    s.pv.vec.wf s.cfg ∧ s.it.front ≤ s.it.back ∧ s.it.back ≤ s.pv.vec.n := by
  obtain ⟨-, -, hpv, hit, -⟩ := h.inv
  obtain ⟨hv, hfb, hbn⟩ := hit h.valid
  exact ⟨hpv hv, hfb, hbn⟩

/-- Once the cursors have met neither end produces an element (42 R142, R143). -/
theorem exec_exhausted (hr : s.cs.halt = false) (hv : s.it.valid = true) (he : s.it.front = s.it.back) :
    exec .itnext s = .next s.respondNone ∧ exec .itprev s = .next s.respondNone :=
  ⟨(State.checks_pass hr hv).trans (if_pos he), (State.checks_pass hr hv).trans (if_pos he)⟩

theorem IteratorReady.exec_itnext (h : IteratorReady s) (hne : s.it.front ≠ s.it.back) :
    exec .itnext s = .next ({ s with it := { s.it with front := s.it.front + 1 } }.respond
      (s.pv.vec.element s.cfg.W s.it.front)) := by
  obtain ⟨hwf, hfb, hbn⟩ := h.over_vector
  refine (State.checks_pass h.running h.valid).trans ((if_neg hne).trans ?_)
  rw [vget_eq hwf (by omega)]
  rfl

theorem IteratorReady.exec_itprev (h : IteratorReady s) (hne : s.it.front ≠ s.it.back) :
    exec .itprev s = .next ({ s with it := { s.it with back := s.it.back - 1 } }.respond
      (s.pv.vec.element s.cfg.W (s.it.back - 1))) := by
  obtain ⟨hwf, hfb, hbn⟩ := h.over_vector
  refine (State.checks_pass h.running h.valid).trans ((if_neg hne).trans ?_)
  rw [vget_eq hwf (by omega)]
  rfl

/-- Settles O41, by whether there is an iterator and whether an element is left. -/
theorem itnextConsumesTheFront : Obligations.ItnextConsumesTheFront := by
  intro s h hr
  split_ifs with hmissing he
  · exact State.checks_notConstructed hr hmissing
  · exact (exec_exhausted hr (eq_true_of_ne_false hmissing) he).1
  · exact IteratorReady.exec_itnext ⟨h, hr, eq_true_of_ne_false hmissing⟩ he

/-- Settles O42, by whether there is an iterator and whether an element is left. -/
theorem itprevConsumesTheBack : Obligations.ItprevConsumesTheBack := by
  intro s h hr
  split_ifs with hmissing he
  · exact State.checks_notConstructed hr hmissing
  · exact (exec_exhausted hr (eq_true_of_ne_false hmissing) he).2
  · exact IteratorReady.exec_itprev ⟨h, hr, eq_true_of_ne_false hmissing⟩ he

/-! ## A whole iteration (42 R140) -/

theorem runCommands_append (is js : List Instr) (s : State) :
    runCommands (is ++ js) s = (runCommands is s).bind (runCommands js) := by
  induction is generalizing s with
  | nil => rfl
  | cons i is ih =>
    rw [List.cons_append, runCommands, runCommands]
    cases exec i s with
    | next t => exact ih t
    | fault _ => rfl
    | refused _ => rfl

/-- A command given `j` times goes through a sequence of states, if it does so step by step. -/
theorem runCommands_replicate {f : Nat → State} {j : Nat} (hstep : ∀ m < j, exec i (f m) = .next (f (m + 1))) :
    runCommands (List.replicate j i) (f 0) = some (f j) := by
  induction j with
  | zero => rfl
  | succ j ih =>
    rw [List.replicate_succ', runCommands_append, ih fun m hm => hstep m (Nat.lt_succ_of_lt hm)]
    exact runCommands_cons (hstep j (Nat.lt_succ_self j))

/-- The block after ITER, `j` ITNEXT and `l` ITPREV: the cursors, and the answers in the order given. -/
def State.iterated (s : State) (j l : Nat) : State :=
  { s with
    it := { valid := true, front := j, back := s.pv.vec.n - l }
    out := ((List.range j).map (fun i => (s.cs.response .ok (some (s.pv.vec.element s.cfg.W i))).pack) ++
        (List.range l).map (fun i =>
          (s.cs.response .ok (some (s.pv.vec.element s.cfg.W (s.pv.vec.n - 1 - i)))).pack)).reverse ++
      (s.cs.response .ok none).pack :: s.out }

section Iteration

variable {j l : Nat} (h : VectorReady s)

include h

theorem VectorReady.exec_iter : exec .iter s = .next (s.iterated 0 0) :=
  State.checks_pass h.running h.valid

theorem VectorReady.iterated (hjl : j + l ≤ s.pv.vec.n) : IteratorReady (s.iterated j l) :=
  ⟨h.inv.withCursors h.valid (show j ≤ s.pv.vec.n - l by omega) (Nat.sub_le _ _), h.running, rfl⟩

theorem VectorReady.exec_itnext_iterated (hj : j < s.pv.vec.n) :
    exec .itnext (s.iterated j 0) = .next (s.iterated (j + 1) 0) := by
  rw [(h.iterated (l := 0) hj.le).exec_itnext (Nat.ne_of_lt hj)]
  simp [State.iterated, State.respond, State.answer, List.range_succ]

theorem VectorReady.exec_itprev_iterated (hjl : j + l < s.pv.vec.n) :
    exec .itprev (s.iterated j l) = .next (s.iterated j (l + 1)) := by
  have hne : j ≠ s.pv.vec.n - l := by omega
  rw [(h.iterated hjl.le).exec_itprev hne]
  simp [State.iterated, State.respond, State.answer, List.range_succ, Nat.sub_sub, Nat.add_comm 1 l]

/-- The front part of the iteration, then the back part. -/
theorem VectorReady.runIteration (hjl : j + l ≤ s.pv.vec.n) :
    runCommands (.iter :: (List.replicate j .itnext ++ List.replicate l .itprev)) s = some (s.iterated j l) := by
  have hfront : runCommands (List.replicate j .itnext) (s.iterated 0 0) = some (s.iterated j 0) :=
    runCommands_replicate (f := fun m => s.iterated m 0) fun m hm => h.exec_itnext_iterated (by omega)
  have hback : runCommands (List.replicate l .itprev) (s.iterated j 0) = some (s.iterated j l) :=
    runCommands_replicate (f := s.iterated j) fun m hm => h.exec_itprev_iterated (by omega)
  rw [runCommands_cons h.exec_iter, runCommands_append, hfront]
  exact hback

end Iteration

/-- Settles O44: the run, and the cursors it leaves, which have met when j + l = n. -/
theorem iterationProducesTheElements : Obligations.IterationProducesTheElements := by
  intro s j l h hr hv hjl
  have hs : VectorReady s := ⟨h, hr, hv⟩
  refine ⟨s.iterated j l, hs.runIteration hjl, rfl, fun hall => ?_⟩
  have hmet : j = s.pv.vec.n - l := by omega
  exact exec_exhausted hr rfl hmet

/-! ## What sets and what clears IT.valid (42 R145, 70 R227) -/

/-- The effects that write IT.valid: ITER sets it, a construction clears it. -/
theorem Effect.it_valid (h : Effect s i u) : u.it.valid = s.it.valid ∨ (i = .iter ∧ u.it.valid = true) ∨
    ((∃ k n, i = .new k n) ∧ u.it.valid = false) := by
  cases h with
  | construct => exact .inr (.inr ⟨⟨_, _, rfl⟩, rfl⟩)
  | restart => exact .inr (.inl ⟨rfl, rfl⟩)
  | strayBit ha hv hp hw =>
    obtain ⟨-, -, -, -, hit, -⟩ := State.strayBitWrite_contexts hw
    exact .inl (congrArg _ hit)
  | _ => exact .inl rfl

theorem exec_it_valid (h : exec i s = .next t) : t.it.valid = s.it.valid ∨ (i = .iter ∧ t.it.valid = true) ∨
    ((∃ k n, i = .new k n) ∧ t.it.valid = false) := by
  obtain ⟨u, he, ha⟩ := exec_effect h
  obtain ⟨-, hit, -⟩ := ha.frame
  rw [hit]
  exact he.it_valid

/-- A command that ends with another code than OK has not completed. -/
theorem State.raise_not_completed {c : StatusCode} (hc : c ≠ .ok) : ¬ (s.raise c).completed := by
  intro h
  rw [State.completed, State.raise_newestCode, Option.some_inj] at h
  exact hc (StatusCode.number_eq_zero_iff.1 h)

/-- NEW completes and clears IT.valid, or it does neither. -/
theorem exec_new_it {k n : U64} (h : exec (.new k n) s = .next t) :
    (¬ t.completed ∧ t.it = s.it) ∨ (t.completed ∧ t.it.valid = false) := by
  rcases execNew_next h with ⟨-, rfl⟩ | ⟨-, ⟨e, he, -, rfl⟩ | ⟨-, rfl⟩⟩
  · exact .inl ⟨State.raise_not_completed nofun, State.raise_it _ _⟩
  · exact .inl ⟨State.raise_not_completed (fun hok => by rw [hok] at he; cases he), State.raise_it _ _⟩
  · exact .inr ⟨State.answer_newestCode _ _ _, rfl⟩

/-- ITER completes and sets IT.valid, or it does not complete. -/
theorem exec_iter_it (h : exec .iter s = .next t) : ¬ t.completed ∨ t.it.valid = true := by
  rcases execIter_next h with ⟨-, rfl⟩ | ⟨-, ⟨-, rfl⟩ | ⟨-, rfl⟩⟩
  · exact .inl (State.raise_not_completed nofun)
  · exact .inl (State.raise_not_completed nofun)
  · exact .inr rfl

/-- SET and SETBIT leave IT as it is, whatever they write (42 R145). -/
theorem exec_set_it (h : exec i s = .next t) (hi : (∃ k v, i = .set k v) ∨ ∃ p v, i = .setbit p v) :
    t.it = s.it := by
  obtain ⟨u, he, ha⟩ := exec_effect h
  obtain ⟨-, hit, -⟩ := ha.frame
  rw [hit]
  rcases hi with ⟨k, v, rfl⟩ | ⟨p, v, rfl⟩
  · cases he <;> rfl
  · cases he with
    | strayBit ha hv hp hw =>
      obtain ⟨-, -, -, -, hit', -⟩ := State.strayBitWrite_contexts hw
      exact hit'
    | _ => rfl

/-- A command that clears IT.valid is a NEW. -/
theorem exec_clears_it (h : exec i s = .next t) (hs : s.it.valid = true) (ht : t.it.valid = false) :
    ∃ k n, i = .new k n := by
  rcases exec_it_valid h with hkeep | ⟨-, hset⟩ | ⟨hnew, -⟩
  · rw [hs, ht] at hkeep; cases hkeep
  · rw [ht] at hset; cases hset
  · exact hnew

/-- A step that clears IT.valid is a reset or the request of a NEW (70 R227). -/
theorem step_clears_it (h : step s = .next t) (hs : s.it.valid = true) (ht : t.it.valid = false) :
    (∃ rest, s.input = .reset :: rest ∨ ∃ p, s.input = .requestCutByReset p :: rest) ∨
    ∃ p rest k n, s.input = .request p :: rest ∧ decode p = .ok (.new k n) := by
  rcases step_next h with ⟨-, rfl⟩ |
    ⟨e, rest, hin, ⟨p, i, rfl, hd, hx⟩ | ⟨p, d, -, -, hx⟩ | ⟨hreset, -⟩ | ⟨xs, -, rfl⟩⟩
  · exact absurd hs (by rw [ht]; decide)
  · obtain ⟨k, n, rfl⟩ := exec_clears_it hx hs ht
    exact .inr ⟨p, rest, k, n, hin, hd⟩
  · have hkeep : t.it = s.it := by
      rcases State.answerIllegal_next hx with ⟨-, rfl⟩ | ⟨-, rfl⟩ <;> exact State.raise_it _ _
    rw [hkeep, hs] at ht; cases ht
  · refine .inl ⟨rest, hreset.imp (fun he => ?_) fun ⟨p, he⟩ => ⟨p, ?_⟩⟩ <;> rw [hin, he]
  · exact absurd hs (by rw [ht]; decide)

/-- Settles O45: the writers of IT.valid, and for NEW and ITER whether they complete. -/
theorem iteratorValidity : Obligations.IteratorValidity := by
  refine ⟨fun i s t h => ⟨fun hs ht => ?_, fun hs ht => ?_, ?_, ?_, exec_set_it h⟩,
    fun s t => step_clears_it⟩
  · rcases exec_it_valid h with hkeep | ⟨hiter, -⟩ | ⟨-, hclear⟩
    · rw [hs, ht] at hkeep; cases hkeep
    · exact hiter
    · rw [ht] at hclear; cases hclear
  · obtain ⟨k, n, rfl⟩ := exec_clears_it h hs ht
    rcases exec_new_it h with ⟨-, hkeep⟩ | ⟨hok, -⟩
    · rw [hkeep, hs] at ht; cases ht
    · exact ⟨⟨k, n, rfl⟩, hok⟩
  · rintro hok rfl
    exact (exec_iter_it h).resolve_left (not_not.2 hok)
  · rintro hok ⟨k, n, rfl⟩
    rcases exec_new_it h with ⟨hnot, -⟩ | ⟨-, hclear⟩
    · exact absurd hok hnot
    · exact hclear

/-! ## The debug rendering (42 R146) -/

theorem digitChar_eq : ∀ d < 10, digitChar d = Nat.digitChar d := by decide

/-- With fuel for its digits, a numeral is the library's. -/
theorem decimalDigits_eq_toDigits {f n : Nat} (hn : n < 10 ^ (f + 1)) :
    decimalDigits (f + 1) n = Nat.toDigits 10 n := by
  induction f generalizing n with
  | zero =>
    rw [decimalDigits, if_pos (by omega), digitChar_eq n (by omega), Nat.toDigits_of_lt_base (by omega)]
  | succ f ih =>
    rw [decimalDigits, Nat.toDigits_eq_if (by decide), ih (by rw [Nat.pow_succ] at hn; omega),
      digitChar_eq (n % 10) (Nat.mod_lt _ (by decide))]
    split_ifs with hlt
    · rw [digitChar_eq n hlt]
    · rfl

/-- Twenty digits are enough for a u64. -/
theorem decimalNumeral_eq_toDigits {n : Nat} (hn : n < 2 ^ 64) : decimalNumeral n = Nat.toDigits 10 n :=
  decimalDigits_eq_toDigits (lt_trans hn (by norm_num))

/-- The text of a width and a list of values, with the library's numerals. -/
def renderedText (k : Nat) (xs : List Nat) : List Char :=
  "IntVec ".toList ++ [Char.ofNat 123] ++ " element_bits: ".toList ++ Nat.toDigits 10 k ++
    ", elements: ".toList ++ [Char.ofNat 123] ++ [' '] ++
    xs.flatMap (fun x => Nat.toDigits 10 x ++ [',', ' ']) ++ [Char.ofNat 125] ++ [' '] ++ [Char.ofNat 125]

theorem renderValues_eq {k : Nat} {xs : List Nat} (hk : k < 2 ^ 64) (hxs : ∀ x ∈ xs, x < 2 ^ 64) :
    renderValues k xs = renderedText k xs := by
  have hvalues : xs.flatMap (fun x => decimalNumeral x ++ ", ".toList) =
      xs.flatMap (fun x => Nat.toDigits 10 x ++ [',', ' ']) :=
    List.flatMap_congr fun x hx => by rw [decimalNumeral_eq_toDigits (hxs x hx)]; rfl
  have hspace : " ".toList = [' '] := rfl
  unfold renderValues renderedText
  rw [hvalues, decimalNumeral_eq_toDigits hk, hspace, openBrace, closeBrace]

/-- The elements from one index on, in order, as far as there are any. -/
theorem elementsFrom_eq {c : Config} {v : Vec} (h : v.wf c) {r idx : Nat} (hr : idx + r ≤ v.n) :
    elementsFrom c v r idx = .ok ((List.range' idx r).map (v.element c.W)) := by
  induction r generalizing idx with
  | zero => rfl
  | succ r ih =>
    rw [elementsFrom, vget_eq h (by omega), ih (by omega)]
    rfl

/-- An element is a u64: it has at most W ≤ 64 bits (00 R6). -/
theorem Vec.wf.element_lt {c : Config} {v : Vec} (h : v.wf c) (idx : Nat) : v.element c.W idx < 2 ^ 64 := by
  obtain ⟨hk, -⟩ := h
  exact lt_of_lt_of_le (v.element_lt c.W idx) (Nat.pow_le_pow_right (by decide) (hk.trans (width_le c)))

theorem renderVec_eq {c : Config} {v : Vec} (h : v.wf c) :
    renderVec c v = .ok (renderedText v.k ((List.range v.n).map (v.element c.W))) := by
  have hk : v.k < 2 ^ 64 := by
    obtain ⟨hk, -⟩ := h
    exact lt_of_le_of_lt (hk.trans (width_le c)) (by decide)
  have hxs : ∀ x ∈ (List.range v.n).map (v.element c.W), x < 2 ^ 64 :=
    List.forall_mem_map.2 fun idx _ => Vec.wf.element_lt h idx
  rw [renderVec, elementsFrom_eq h (Nat.zero_add _).le, ← List.range_eq_range', Run.ok_bind, renderValues_eq hk hxs]
  rfl

/-- Settles O38: the numerals, the elements in order, and the source's own string. -/
theorem renderingListsTheElements : Obligations.RenderingListsTheElements :=
  ⟨fun _ _ => renderValues_eq, fun _ _ => renderVec_eq, by decide⟩

end Sys2Proof.Machine
end

section
/-! PROOFS. The rank index: which table entries fit their slots, what BUILD makes or reports (43 R156 to R164, R169,
R170), and what RANK answers over the index (43 R165 to R168). -/

namespace Sys2Proof.Machine

variable {s t : State} {c : Config} {sel position : U64} {src : SourceSel} {source : Source} {ri : RankIndex}
  {W w n spl : Nat} {m : Memory}

/-! ## The word-internal term (43 R166) -/

/-- The population count of the first positions of a word is the sum of their bits. -/
theorem countOnes_getBits_eq_sum (hn : n ≤ W) :
    countOnes W (getBits W w 0 n) = ((List.range n).map (getBit W w)).sum := by
  induction n with
  | zero => rw [getBits_len_zero, countOnes_of_lt (L := 0) (by decide) (Nat.zero_le _)]; rfl
  | succ n ih =>
    rw [getBits_succ (by omega), countOnes_double_add (getBits_lt _ _ _ _) hn (getBit_lt_two _ _ _),
      ih (by omega), Nat.zero_add, List.sum_range_succ]

/-- The first positions of a word, right-aligned, are the word shifted right. -/
theorem getBits_zero_eq_shr (hw : w < 2 ^ W) (hn : n ≤ W) : getBits W w 0 n = shr w (W - n) := by
  have hlt : w / 2 ^ (W - n) < 2 ^ n := Nat.div_lt_of_lt_mul (by rwa [← pow_add, Nat.sub_add_cancel hn])
  rw [getBits, Nat.sub_zero, Nat.mod_eq_of_lt hlt, shr]

/-- Settles O51: a field at position 0 is a right shift, and its count the sum of its bits. -/
theorem inWordTermIsInclusive : Obligations.InWordTermIsInclusive := by
  refine ⟨fun c w bo hw hbo => ⟨?_, countOnes_getBits_eq_sum hbo⟩, by decide⟩
  rw [inWordCount, getBits_zero_eq_shr hw hbo, Nat.sub_sub, Nat.add_comm 1]

/-! ## Counts of set bits -/

theorem Memory.onesBelow_le (W : Nat) (m : Memory) (p : Nat) : m.onesBelow W p ≤ p := by
  induction p with
  | zero => exact le_rfl
  | succ p ih =>
    have hbit : m.flatBit W p < 2 := getBit_lt_two _ _ _
    rw [Memory.onesBelow]
    omega

theorem Memory.onesBelow_mono (W : Nat) (m : Memory) : Monotone (m.onesBelow W) :=
  monotone_nat_of_le_succ fun _ => Nat.le_add_right _ _

/-- `d` words hold as many set bits as they have bits exactly when every one of them is full. -/
theorem onesBeforeWord_sub_eq_iff (m : Memory) (a d : Nat) :
    m.onesBeforeWord W (a + d) - m.onesBeforeWord W a = d * W ↔
      ∀ w, a ≤ w → w < a + d → countOnes W (m.word w) = W := by
  induction d with
  | zero => exact ⟨fun _ w h1 h2 => absurd h1 (by omega), fun _ => by simp⟩
  | succ d ih =>
    have hmono := onesBeforeWord_mono (W := W) m (Nat.le_add_right a d)
    have hle := onesBeforeWord_sub_le (W := W) m a d
    have hlast := countOnes_le W (m.word (a + d))
    have hstep : m.onesBeforeWord W (a + (d + 1)) - m.onesBeforeWord W a = (d + 1) * W ↔
        m.onesBeforeWord W (a + d) - m.onesBeforeWord W a = d * W ∧ countOnes W (m.word (a + d)) = W := by
      rw [← Nat.add_assoc, Memory.onesBeforeWord, Nat.succ_mul]
      omega
    rw [hstep, ih]
    constructor
    · rintro ⟨hall, hd⟩ w h1 h2
      rcases Nat.lt_or_ge w (a + d) with h | h
      · exact hall w h1 h
      · rwa [show w = a + d by omega]
    · exact fun hall => ⟨fun w h1 h2 => hall w h1 (by omega), hall _ (by omega) (by omega)⟩

/-! ## The formulas (43 R157 to R161) -/

/-- `small_per_large` is raised to 1 exactly when `lg_n` is 0 (43 R158, R159). -/
theorem smallPerLarge_eq_ite (hW : 0 < W) (n : Nat) :
    smallPerLarge W n = if clog2 n = 0 then 1 else cdiv (clog2 n * clog2 n) W := by
  have hzero : cdiv (blockFactor n) W = 0 ↔ clog2 n = 0 := by
    rw [← Nat.le_zero, cdiv_le_iff hW, Nat.zero_mul, Nat.le_zero, blockFactor, lgN, mul_self_eq_zero]
  unfold smallPerLarge
  simp only [hzero]
  rfl

/-- A source of at most 2^W bits has large blocks of at most W² bits (43 R170). -/
theorem smallWidth_le {e : Nat} (hW : 0 < W) (hn : n ≤ 2 ^ W) (he : W * W ≤ 2 ^ e) : smallWidth W n ≤ e := by
  have hlg : clog2 n ≤ W := clog2_le_iff.2 hn
  have hspl : smallPerLarge W n ≤ W := by
    rw [smallPerLarge_eq_ite hW]
    split
    · exact hW
    · exact (cdiv_le_iff hW).2 (Nat.mul_le_mul hlg hlg)
  exact clog2_le_iff.2 ((Nat.mul_le_mul_left W hspl).trans he)

theorem smallWidth_le_width (hn : n ≤ 2 ^ c.W) : smallWidth c.W n ≤ c.W := by
  refine smallWidth_le (width_pos c) hn ?_
  unfold Config.W
  cases c.width <;> decide

/-- The last large block of `wc` words starts at most `spl` words before the end, and exactly `spl` when it is
complete (43 R161). -/
theorem lastBlock_length (hs : 0 < spl) (wc : Nat) :
    (wc - 1) / spl * spl ≤ wc ∧ wc - (wc - 1) / spl * spl ≤ spl ∧
      (wc - (wc - 1) / spl * spl = spl ↔ 0 < wc ∧ wc % spl = 0) := by
  have hdiv := Nat.div_add_mod (wc - 1) spl
  have hmod := Nat.mod_lt (wc - 1) hs
  rw [Nat.mul_comm] at hdiv
  refine ⟨by omega, by omega, ⟨fun hfull => ⟨by omega, ?_⟩, fun ⟨hpos, hdvd⟩ => ?_⟩⟩
  · rw [show wc = ((wc - 1) / spl + 1) * spl by rw [Nat.succ_mul]; omega, Nat.mul_mod_left]
  · by_contra hne
    have hrest : wc = (wc - 1) / spl * spl + ((wc - 1) % spl + 1) := by omega
    rw [hrest, Nat.mul_comm, Nat.mul_add_mod, Nat.mod_eq_of_lt (by omega)] at hdvd
    omega

/-! ## Which entries fit (43 R169) -/

/-- The last large block holds as many set bits as a large block has bits exactly when it is complete and every
word of it is full. -/
theorem smallTotal_eq_iff (hW : 0 < W) (hs : 0 < spl) : smallTotal W m spl = W * spl ↔
    0 < m.count ∧ m.count % spl = 0 ∧
      ∀ w, m.count - spl ≤ w → w < m.count → countOnes W (m.word w) = W := by
  obtain ⟨hstart, hlen, hfull⟩ := lastBlock_length hs m.count
  unfold smallTotal
  generalize (m.count - 1) / spl * spl = start at *
  have hcount : start + (m.count - start) = m.count := by omega
  have hle := onesBeforeWord_sub_le (W := W) m start (m.count - start)
  have hiff := onesBeforeWord_sub_eq_iff (W := W) m start (m.count - start)
  rw [hcount] at hle hiff
  rw [← and_assoc, ← hfull]
  constructor
  · intro heq
    have hblock : m.count - start = spl := by
      refine hlen.antisymm (Nat.le_of_mul_le_mul_right ?_ hW)
      rwa [heq, Nat.mul_comm] at hle
    refine ⟨hblock, fun w h1 h2 => hiff.1 ?_ w (by omega) h2⟩
    rw [heq, hblock, Nat.mul_comm]
  · rintro ⟨hblock, hall⟩
    rw [hiff.2 fun w h1 h2 => hall w (by omega) h2, hblock, Nat.mul_comm]

theorem smallTotal_le (hs : 0 < spl) : smallTotal W m spl ≤ W * spl := by
  obtain ⟨hstart, hlen, -⟩ := lastBlock_length hs m.count
  have hle := onesBeforeWord_sub_le (W := W) m ((m.count - 1) / spl * spl) (m.count - (m.count - 1) / spl * spl)
  rw [Nat.add_sub_cancel' hstart] at hle
  exact hle.trans ((Nat.mul_le_mul_right W hlen).trans_eq (Nat.mul_comm _ _))

/-- Settles O54: no entry of the scan overflows; a total that does not fit lies between the slot's capacity and
the block size that the slot was made for, so all three are equal. -/
theorem entriesThatFit : Obligations.EntriesThatFit := by
  intro c source _ hwf
  have hW := width_pos c
  have hs := smallPerLarge_pos c.W source.bitLen
  have hfits := wellFormed_fits hwf
  refine ⟨fun j hj => ?_, fun w hw => ?_, ?_⟩
  · by_contra hv
    exact hfits (.inl ⟨j, (lt_cdiv_iff hs).1 hj, not_lt.1 hv⟩)
  · by_contra hv
    exact hfits (.inr ⟨w, hw, not_lt.1 hv⟩)
  · have htotal : smallTotal c.W source.mem (smallPerLarge c.W source.bitLen) ≤ largeBlockSize c.W source.bitLen :=
      smallTotal_le hs
    have hslot : largeBlockSize c.W source.bitLen ≤ 2 ^ smallWidth c.W source.bitLen := le_two_pow_clog2 _
    rw [← smallTotal_eq_iff hW hs]
    exact ⟨fun hover => ⟨(hover.trans htotal).antisymm hslot, htotal.antisymm (hslot.trans hover)⟩,
      fun ⟨hpow, hfull⟩ => hpow.trans_le hfull.ge⟩

theorem not_entriesFit_of_sentinelOverflows (h : sentinelOverflows W source) : ¬ entriesFit W source :=
  fun ⟨_, _, hsent⟩ => hsent h

/-! ## The tables of a built index (43 R160, R161) -/

theorem BuiltFrom.lbs (h : BuiltFrom c src source ri) : ri.lbs = largeBlockSize c.W source.bitLen := by
  obtain ⟨-, -, -, hlbs, -⟩ := h.wf
  rw [hlbs, h.len]

theorem BuiltFrom.lrK (h : BuiltFrom c src source ri) : ri.lr.k = lgN source.bitLen := by
  obtain ⟨-, -, -, -, hk, -⟩ := h.wf
  rw [hk, h.len]

theorem BuiltFrom.srK (h : BuiltFrom c src source ri) : ri.sr.k = smallWidth c.W source.bitLen := by
  obtain ⟨-, -, -, -, -, hk, -⟩ := h.wf
  rw [hk, h.len]

theorem BuiltFrom.lrN (h : BuiltFrom c src source ri) :
    ri.lr.n = largeBlocks c.W source.bitLen source.mem.count + 1 := by
  obtain ⟨-, -, -, -, -, -, -, hn⟩ := h.wf
  rw [hn, h.len, h.srN, Nat.add_sub_cancel]

/-! ## BUILD (43 R156) -/

/-- Both selectors, with the source they name (43 R156, 60 R196). -/
theorem operandSource_of_selects
    (h : sel.toNat = 0 ∧ src = .ext ∨ sel.toNat = 1 ∧ src = .pv ∧ s.pv.valid = true) :
    operandSource sel = some src ∧ s.sourceExists src = true := by
  rcases h with ⟨h0, rfl⟩ | ⟨h1, rfl, hv⟩
  · exact ⟨if_pos h0, rfl⟩
  · exact ⟨by simp [operandSource, h1], hv⟩

/-- A BUILD that completed has left an index built from the source its selector names. -/
theorem State.Inv.builtFrom_of_completed (h : s.Inv) (hr : s.cs.halt = false)
    (hsel : operandSource sel = some src) (hb : exec (.build sel) s = .next t) (hc : t.completed) :
    BuiltFrom s.cfg src (s.source src) t.ri := by
  rcases execBuild_next hb with ⟨hh, -⟩ | ⟨-, ⟨-, rfl⟩ |
    ⟨src', hsel', ⟨-, rfl⟩ | ⟨-, e, he, rfl⟩ | ⟨hx, ri, d, hok, rfl⟩⟩⟩
  · rw [hr] at hh; cases hh
  · exact absurd hc (State.raise_not_completed nofun)
  · exact absurd hc (State.raise_not_completed nofun)
  · refine absurd hc (State.raise_not_completed fun hok => ?_)
    rcases buildIndex_raised he with hcls | hcode <;> subst e
    · cases hcls
    · cases hcode
  · obtain rfl : src' = src := Option.some.inj (hsel'.symm.trans hsel)
    exact buildIndex_builtFrom (h.source_bitLen_lt hx) hok

/-- Settles O46: neither failure of a build is possible, and the tables of the index have the sizes of the
formulas. -/
theorem buildMakesTheIndex : Obligations.BuildMakesTheIndex := by
  intro s sel src h hr hselects hconstr hvalues n spl
  obtain ⟨hsel, hx⟩ := operandSource_of_selects hselects
  have hspl : smallPerLarge s.cfg.W n = spl := smallPerLarge_eq_ite (width_pos s.cfg) n
  have hfits (hdbg : s.cfg.dbg = true) : entriesFit s.cfg.W (s.source src) := by
    rcases hvalues hdbg with hfit | ⟨hwf, hsent⟩
    · exact hfit
    · exact entriesFit_iff.2 ⟨wellFormed_fits hwf, hsent⟩
  rcases buildIndex_cases src s.draws (h.source_bitLen_lt hx) with
    ⟨code, -, hfail, -⟩ | ⟨-, hdbg, hbad, -⟩ | ⟨ri, d, hb, hbuilt, -, -, hdraws⟩
  · rw [tableFailure_eq_none.2 hconstr] at hfail
    cases hfail
  · exact absurd (hfits hdbg) hbad
  · obtain ⟨⟨-, -, -, hlrCount, -⟩, ⟨-, -, -, hsrCount, -⟩, -⟩ := hbuilt.wf
    refine ⟨ri, d, exec_build_of_ok hr hsel hx hb, hbuilt.valid, hbuilt.sel, ?_, hbuilt.lrK, ?_, hlrCount, ?_,
      hbuilt.srN, hsrCount, hdraws⟩
    · rw [hbuilt.lbs, largeBlockSize, hspl]
    · rw [hbuilt.lrN, largeBlocks, hspl]
    · rw [hbuilt.srK, smallWidth, largeBlockSize, hspl]

/-- Settles O47: every entry that fits its slot was written with its value, and no later write touched it. -/
theorem tablesInClosedForm : Obligations.TablesInClosedForm := by
  intro s t sel src h hr hsel hb hc m P spl nlb hlarge hlargeSentinel hsmall hsmallSentinel
  have hbuilt := h.builtFrom_of_completed hr hsel hb hc
  have hs : 0 < spl := smallPerLarge_pos _ _
  have hlrN : t.ri.lr.n = nlb + 1 := hbuilt.lrN
  have hsrN : t.ri.sr.n = m.count + 1 := hbuilt.srN
  obtain ⟨hlr, hsr, -⟩ := hbuilt.wf
  rw [hbuilt.lrK] at hlarge hlargeSentinel
  rw [hbuilt.srK] at hsmall hsmallSentinel
  refine ⟨fun j hj => ?_, ?_, fun w hw => ?_, ?_⟩
  · rw [vget_eq hlr (by omega), hbuilt.large j ((lt_cdiv_iff hs).1 hj) (hlarge j hj)]
  · rw [vget_eq hlr (by omega)]
    exact congrArg _ (hbuilt.largeSentinel hlargeSentinel)
  · rw [vget_eq hsr (by omega), hbuilt.small w hw (hsmall w hw)]
    rfl
  · have hentry : t.ri.sr.element s.cfg.W m.count = P m.count - P ((m.count - 1) / spl * spl) :=
      hbuilt.smallSentinel hsmallSentinel
    rw [vget_eq hsr (by omega), hentry]
    split_ifs with hempty
    · simp [P, hempty, Memory.onesBeforeWord]
    · rfl

/-- Settles O53: the overflowing sentinel is an entry that does not fit, so the build has no other outcome. -/
theorem sentinelOverflowHaltsBuild : Obligations.SentinelOverflowHaltsBuild := by
  intro s sel src h hr hdbg hsel hx hconstr hover
  have hbad := not_entriesFit_of_sentinelOverflows hover
  rcases buildIndex_cases src s.draws (h.source_bitLen_lt hx) with
    ⟨code, -, hfail, -⟩ | ⟨-, -, -, hb⟩ | ⟨ri, d, -, -, -, hfit, -⟩
  · rw [tableFailure_eq_none.2 hconstr] at hfail
    cases hfail
  · exact ⟨_, exec_build_of_raised hr hsel hx hb, State.raise_newestCode _ _, rfl, rfl, rfl, rfl, rfl, rfl, rfl⟩
  · exact absurd (hfit hdbg) hbad

/-! ## WidthTooLarge (43 R170) -/

theorem constructionFailure_eq_widthTooLarge_iff {k : Nat} :
    constructionFailure c k n = some .widthTooLarge ↔ c.W < k := by
  unfold constructionFailure
  split_ifs with hk <;> simp [hk]

/-- The width of a large slot decides: a small slot is never too wide when a large one is not. -/
theorem tableFailure_eq_widthTooLarge_iff :
    tableFailure c source = some .widthTooLarge ↔ 2 ^ c.W < source.bitLen := by
  have hlarge : c.W < lgN source.bitLen ↔ 2 ^ c.W < source.bitLen := by
    rw [← not_le, ← not_le, lgN, clog2_le_iff]
  unfold tableFailure
  rw [Option.or_eq_some_iff, constructionFailure_eq_widthTooLarge_iff, constructionFailure_eq_widthTooLarge_iff,
    hlarge]
  constructor
  · rintro (hlong | ⟨-, hsmall⟩)
    · exact hlong
    · by_contra hn
      exact absurd (smallWidth_le_width (not_lt.1 hn)) (not_le.2 hsmall)
  · exact .inl

theorem StatusCode.number_eq_one_iff {e : StatusCode} : e.number = 0x01 ↔ e = .widthTooLarge := by
  cases e <;> decide

/-- Settles O52: the code of a build is its first table failure, which is the width of a large slot exactly when
the source is longer than 2^W bits. -/
theorem buildRefusesALongSource : Obligations.BuildRefusesALongSource := by
  refine ⟨fun s sel src h hr hsel hx => ?_, fun n =>
    ⟨(smallWidth_le (by decide) · (by decide)), (smallWidth_le (by decide) · (by decide)),
      (smallWidth_le (by decide) · (by decide)), (smallWidth_le (by decide) · (by decide))⟩⟩
  obtain ⟨t, hexec, hans⟩ := buildAnswersTheFirstFailure s sel src h hr hsel hx
  refine ⟨t, hexec, ?_⟩
  rw [← tableFailure_eq_widthTooLarge_iff]
  generalize tableFailure s.cfg (s.source src) = failure at hans ⊢
  cases failure with
  | some code =>
    obtain ⟨hcode, hcs, hri⟩ := hans
    rw [hcode, Option.some_inj, Option.some_inj, StatusCode.number_eq_one_iff]
    exact ⟨Iff.rfl, fun _ => ⟨hri, hcs⟩⟩
  | none =>
    have hcode : t.newestCode ≠ some 0x01 := by
      dsimp only at hans
      split_ifs at hans <;> (obtain ⟨hcode, -⟩ := hans; rw [hcode]; decide)
    exact ⟨iff_of_false hcode nofun, fun hone => absurd hone hcode⟩

/-! ## RANK (43 R165) -/

theorem exec_rank_of_ok {r : Nat} (hr : s.cs.halt = false) (hv : s.ri.valid = true)
    (hd : rankDefined s.cfg.W s.ri (s.source s.ri.src) position.toNat)
    (hsum : rankSum s.cfg s.ri (s.source s.ri.src) position.toNat = .ok r) :
    exec (.rank position) s = .next (s.respond r) := by
  refine (State.checks_pass hr hv).trans ?_
  rw [if_pos hd, hsum]
  rfl

theorem exec_rank_undefined (hr : s.cs.halt = false) (hv : s.ri.valid = true)
    (hd : ¬ rankDefined s.cfg.W s.ri (s.source s.ri.src) position.toNat) :
    exec (.rank position) s = .next ({ s with draws := s.draws + 1 }.respond (freeBits s.draws 64)) := by
  refine (State.checks_pass hr hv).trans ?_
  rw [if_neg hd]

/-- Settles O50: the position is the first thing the precondition asks about. -/
theorem rankBeyondTheSourceRaisesNothing : Obligations.RankBeyondTheSourceRaisesNothing := by
  intro s position hr hv hp
  refine ⟨freeBits s.draws 64, Nat.mod_lt _ (Nat.two_pow_pos 64), exec_rank_undefined hr hv ?_⟩
  exact fun ⟨hlt, _⟩ => absurd hp (not_le.2 hlt)

/-- Settles O49: the sum of RANK over a valid index, whatever the source's words have become. -/
theorem rankAddsThreeTerms : Obligations.RankAddsThreeTerms := by
  intro s position h hr hv hd
  obtain ⟨-, -, -, -, hri, -, -⟩ := h
  obtain ⟨hwf, -⟩ := hri hv
  exact exec_rank_of_ok hr hv hd (rankSum_eq hwf hd)

/-- Settles O48: the index and the source are those of the build, over which the sum is the inclusive rank. -/
theorem rankIsTheInclusiveCount : Obligations.RankIsTheInclusiveCount := by
  refine ⟨fun s t u sel position src h hr hsel hwf hb hc hri hcfg hsource hru hp => ⟨?_, ?_⟩,
    fun W source p q hpq => source.mem.onesBelow_mono W (Nat.add_le_add_right hpq.le 1)⟩
  · have hbuilt : BuiltFrom u.cfg src (u.source src) u.ri := by
      rw [hcfg, hsource, hri]
      exact h.builtFrom_of_completed hr hsel hb hc
    rw [← hcfg, ← hsource] at hwf
    rw [← hsource] at hp ⊢
    obtain ⟨hd, hsum⟩ := rankSum_correct hbuilt hwf hp
    rw [← hbuilt.sel] at hd hsum
    rw [← hcfg, exec_rank_of_ok hru hbuilt.valid hd hsum, hbuilt.sel]
  · exact (Memory.onesBelow_le _ _ _).trans hp

end Sys2Proof.Machine
end

section
/-! PROOFS. The select component: the answer to the three encodings held for it (44 R185), and its contract, which
names at most one position, and one exactly when there are enough occurrences (44 R186). -/

namespace Sys2Proof.Machine

/-! ## The held encodings (44 R185) -/

section Held
variable {s : State}

theorem State.answerIllegal_running (h : s.cs.halt = false) :
    s.answerIllegal = .next (s.answer .illegalCommand none) :=
  State.unlessHalted_running h

theorem exec_select1 (k : U64) (s : State) : exec (.select1 k) s = s.answerIllegal := rfl

theorem exec_select0 (k : U64) (s : State) : exec (.select0 k) s = s.answerIllegal := rfl

theorem exec_select (k value : U64) (s : State) : exec (.select k value) s = s.answerIllegal := rfl

/-- Settles O19: the three commands have one meaning, an answer that adds one packet to the output. -/
theorem selectEncodingsAreIllegal : Obligations.SelectEncodingsAreIllegal := by
  intro s k v hrun
  obtain ⟨q, hq, hresp⟩ := s.answer_output .illegalCommand none
  have hanswer : s.answerIllegal = .next { s with out := q :: s.out } := by
    rw [State.answerIllegal_running hrun, hq]
  refine ⟨q, (exec_select1 k s).trans hanswer, (exec_select0 k s).trans hanswer,
    (exec_select k v s).trans hanswer, hresp.trans ?_⟩
  simp [Control.response, hrun, StatusCode.number]

end Held

/-! ## Occurrences of a value in a sequence (44 R186) -/

section Values
variable {α : Type} [DecidableEq α] {seq : Nat → α} {value : α} {len j p q : Nat}

/-- The occurrences of the contract are the library's count of a predicate, whose `nth` is then the selection. -/
theorem occurrencesBelow_eq_count (seq : Nat → α) (value : α) (p : Nat) :
    occurrencesBelow seq value p = Nat.count (seq · = value) p := by
  induction p with
  | zero => exact (Nat.count_zero _).symm
  | succ p ih => rw [occurrencesBelow, ih, Nat.count_succ]

theorem selectsValue_unique (hp : selectsValue seq len value j p) (hq : selectsValue seq len value j q) : p = q := by
  obtain ⟨-, hpv, hpj⟩ := hp
  obtain ⟨-, hqv, hqj⟩ := hq
  rw [occurrencesBelow_eq_count] at hpj hqj
  exact Nat.count_injective (p := (seq · = value)) hpv hqv (hpj.trans hqj.symm)

/-- A selected position is itself an occurrence beyond the `j` below it, so there are more than `j`. -/
theorem not_selectValueNotFound_of_selectsValue (h : selectsValue seq len value j p) :
    ¬ selectValueNotFound seq len value j := by
  obtain ⟨hp, hpv, rfl⟩ := h
  unfold selectValueNotFound
  rw [occurrencesBelow_eq_count, occurrencesBelow_eq_count, not_le]
  exact Nat.count_strict_mono (p := (seq · = value)) hpv hp

/-- With more than `j` occurrences below `len`, the `j`-th one, from 0, is selected. -/
theorem selectsValue_nth (h : ¬ selectValueNotFound seq len value j) :
    selectsValue seq len value j (Nat.nth (seq · = value) j) := by
  unfold selectValueNotFound at h
  rw [occurrencesBelow_eq_count, not_le] at h
  have hcard : ∀ hf : (Set.ofPred (seq · = value)).Finite, j < hf.toFinset.card :=
    fun hf => h.trans_le (Nat.count_le_card hf len)
  refine ⟨Nat.nth_lt_of_lt_count h, Nat.nth_mem j hcard, ?_⟩
  rw [occurrencesBelow_eq_count, Nat.count_nth hcard]

theorem exists_selectsValue_iff :
    (∃ p, selectsValue seq len value j p) ↔ ¬ selectValueNotFound seq len value j :=
  ⟨fun ⟨_, hp⟩ => not_selectValueNotFound_of_selectsValue hp, fun h => ⟨_, selectsValue_nth h⟩⟩

end Values

/-! ## The bits of a source as values (44 R186) -/

section Bits
variable {W j p : Nat} {src : Source}

/-- Every position is set or clear. -/
theorem Memory.onesBelow_add_clearBelow (W : Nat) (m : Memory) (p : Nat) :
    m.onesBelow W p + m.clearBelow W p = p := by
  induction p with
  | zero => rfl
  | succ p ih =>
    have hbit := m.flatBit_lt_two W p
    rw [Memory.onesBelow, Memory.clearBelow]
    omega

/-- At a set bit the inclusive rank is one more than the occurrences of 1 below it. -/
theorem selectsValue_one_iff : selectsValue (src.mem.flatBit W) src.bitLen 1 j p ↔ selectsOne W src j p := by
  refine and_congr_right fun _ => and_congr_right fun hbit => ?_
  obtain ⟨hones, -⟩ := occurrencesBelow_flatBit W src.mem p
  rw [hones, Source.rank, Memory.onesBelow, hbit, Nat.add_right_cancel_iff]

/-- At a clear bit the positions up to it that the inclusive rank leaves are the clear ones below it, and itself. -/
theorem selectsValue_zero_iff : selectsValue (src.mem.flatBit W) src.bitLen 0 j p ↔ selectsZero W src j p := by
  refine and_congr_right fun _ => and_congr_right fun hbit => ?_
  obtain ⟨-, hclear⟩ := occurrencesBelow_flatBit W src.mem p
  have hall := src.mem.onesBelow_add_clearBelow W p
  rw [hclear, Source.rank, Memory.onesBelow, hbit]
  omega

theorem selectValueNotFound_one_iff :
    selectValueNotFound (src.mem.flatBit W) src.bitLen 1 j ↔ selectOneNotFound W src j := by
  obtain ⟨hones, -⟩ := occurrencesBelow_flatBit W src.mem src.bitLen
  rw [selectValueNotFound, selectOneNotFound, hones]

theorem selectValueNotFound_zero_iff :
    selectValueNotFound (src.mem.flatBit W) src.bitLen 0 j ↔ selectZeroNotFound W src j := by
  obtain ⟨-, hclear⟩ := occurrencesBelow_flatBit W src.mem src.bitLen
  rw [selectValueNotFound, selectZeroNotFound, hclear]

theorem exists_selectsOne_iff : (∃ p, selectsOne W src j p) ↔ ¬ selectOneNotFound W src j := by
  simp only [← selectsValue_one_iff, ← selectValueNotFound_one_iff, exists_selectsValue_iff]

theorem exists_selectsZero_iff : (∃ p, selectsZero W src j p) ↔ ¬ selectZeroNotFound W src j := by
  simp only [← selectsValue_zero_iff, ← selectValueNotFound_zero_iff, exists_selectsValue_iff]

end Bits

/-- Settles O55: the contracts for 1-bits and 0-bits are the one for any value, over the bits of the source. -/
theorem selectContractIsAFunction : Obligations.SelectContractIsAFunction := by
  refine ⟨fun c src j => ⟨exists_selectsOne_iff, fun p q hp hq => ?_, exists_selectsZero_iff, fun p q hp hq => ?_,
    fun _ => selectsValue_one_iff, selectValueNotFound_one_iff, fun _ => selectsValue_zero_iff,
    selectValueNotFound_zero_iff⟩, fun _ _ _ _ _ _ => ⟨exists_selectsValue_iff, fun _ _ => selectsValue_unique⟩⟩
  · exact selectsValue_unique (selectsValue_one_iff.2 hp) (selectsValue_one_iff.2 hq)
  · exact selectsValue_unique (selectsValue_zero_iff.2 hp) (selectsValue_zero_iff.2 hq)

end Sys2Proof.Machine
end

section
/-! PROOFS. The exceptions: the answer of a halted block, what decides each of the codes OperandRange and
NotConstructed, what a command that fails leaves unchanged, and where free values can be used (60 R191 to R199). -/

namespace Sys2Proof.Machine

variable {s t : State} {i : Instr} {c : StatusCode}

/-! ## Idling and the change of the source (60 R209, 10 R33) -/

theorem step_of_nil (hin : s.input = []) : step s = .next s := by
  unfold step
  rw [hin]

/-- Settles O5: a step without an event, and the effect of the event taken. -/
theorem idlingAndSourceChange : Obligations.IdlingAndSourceChange :=
  ⟨fun _ => step_of_nil, fun _ _ _ => step_of_cons⟩

/-! ## The halted block (60 R193) -/

/-- Legal or not, a request to a halted block meets the check for the halt first (60 R195). -/
theorem acceptRequest_halted (hh : s.cs.halt = true) (q : RequestPacket) :
    acceptRequest q s = .next (s.raise .halted) := by
  rcases acceptRequest_cases q s with ⟨i, hx⟩ | hx
  · exact hx.trans (exec_halted hh)
  · exact hx.trans (State.unlessHalted_halted hh)

/-- Settles O20: Halted is no indexing fault, so raising it adds one packet to the output and keeps the flags. -/
theorem haltedBlockRefusesEveryRequest : Obligations.HaltedBlockRefusesEveryRequest := by
  intro s q rest hin hh
  have hstep : step s = .next (({ s with input := rest } : State).answer .halted none) := by
    rw [step_of_cons hin]
    exact acceptRequest_halted (s := { s with input := rest }) hh q
  obtain ⟨r, hr, hresp⟩ := State.answer_output { s with input := rest } .halted none
  refine ⟨r, hstep.trans (congrArg _ hr), hresp.trans ?_⟩
  simp [Control.response, hh, StatusCode.number]

/-! ## The codes and their classes (60 R190) -/

theorem StatusCode.number_injective : Function.Injective StatusCode.number := by
  intro c d
  cases c <;> cases d <;> decide

theorem StatusCode.number_lt_interface_iff : c.number.toNat < 0x20 ↔ c.cls ≠ .interface := by
  cases c <;> decide

theorem StatusCode.number_indexingFault_iff : c.cls = .indexingFault ↔ c.number = 0x10 ∨ c.number = 0x11 := by
  cases c <;> decide

/-- The class of a failure: every code but OK (60 R190). -/
theorem StatusCode.cls_of_ne_ok (h : c ≠ .ok) :
    c.cls = .construction ∨ c.cls = .indexingFault ∨ c.cls = .interface := by
  revert h
  cases c <;> decide

/-! ## OperandRange and NotConstructed (60 R196, R197) -/

/-- An interface code is raised by one of the checks before a command: the code NotConstructed by the check of
the context, the code OperandRange by that of an operand. -/
theorem exec_interface_code (h : exec i s = .next t) (hc : t.newestCode = some c.number)
    (hcls : c.cls = .interface) : (c = .notConstructed → contextMissing s i) ∧
      (c = .operandRange → (∃ pos v, i = .setbit pos v ∧ 1 < v.toNat) ∨ ∃ sel, i = .build sel ∧ 1 < sel.toNat) := by
  have same {d : StatusCode} (hd : t.newestCode = some d.number) : d = c :=
    StatusCode.number_injective (Option.some.inj (hd.symm.trans hc))
  rcases exec_next h with ⟨d, -, rfl, -, hmissing, hoperand, -⟩ | ⟨sel, e, -, -, he, rfl⟩ |
    ⟨u, -, -, -, -, -, -, ⟨rfl, -⟩ | ⟨x, rfl, -⟩⟩
  · obtain rfl := same (State.raise_newestCode s d)
    exact ⟨hmissing, hoperand⟩
  · obtain rfl := same (State.raise_newestCode _ e)
    simp [hcls] at he
  · obtain rfl := same (State.answer_newestCode u .ok none)
    cases hcls
  · obtain rfl := same (State.answer_newestCode u .ok (some x))
    cases hcls

theorem exec_setbit_operandRange {pos v : U64} (hr : s.cs.halt = false) (hv : 1 < v.toNat) :
    exec (.setbit pos v) s = .next (s.raise .operandRange) := by
  have hnone : operandBit v = none := by
    rcases operandBit_cases v with ⟨hle, -⟩ | ⟨-, hnone⟩
    · omega
    · exact hnone
  refine (State.unlessHalted_running hr).trans ?_
  rw [hnone]

theorem exec_build_operandRange {sel : U64} (hr : s.cs.halt = false) (hv : 1 < sel.toNat) :
    exec (.build sel) s = .next (s.raise .operandRange) := by
  have hnone : operandSource sel = none := by
    rcases operandSource_cases sel with ⟨h0, -⟩ | ⟨h1, -⟩ | ⟨-, hnone⟩
    · omega
    · omega
    · exact hnone
  refine (State.unlessHalted_running hr).trans ?_
  rw [hnone]

/-- Settles O21: the two operands with a domain of two values, and the checks that decide an interface code. -/
theorem operandRangeIsExact : Obligations.OperandRangeIsExact := by
  refine ⟨fun s pos v => exec_setbit_operandRange, fun s sel => exec_build_operandRange, fun i s t h hc => ?_⟩
  exact (exec_interface_code (c := .operandRange) h hc rfl).2 rfl

theorem exec_setbit_notConstructed {pos v : U64} (hr : s.cs.halt = false) (hle : v.toNat ≤ 1)
    (hv : s.pv.valid = false) : exec (.setbit pos v) s = .next (s.raise .notConstructed) := by
  rcases operandBit_cases v with ⟨-, hbit⟩ | ⟨hlt, -⟩
  · refine (State.unlessHalted_running hr).trans ?_
    rw [hbit, hv]
    rfl
  · omega

theorem exec_build_notConstructed {sel : U64} (hr : s.cs.halt = false) (hsel : sel.toNat = 1)
    (hv : s.pv.valid = false) : exec (.build sel) s = .next (s.raise .notConstructed) := by
  have hpv : operandSource sel = some .pv := by simp [operandSource, hsel]
  refine (State.unlessHalted_running hr).trans ?_
  rw [hpv]
  dsimp only [State.sourceExists]
  rw [hv, State.ifConstructed_false]

/-- Every command that needs a context refuses to run without it (60 R196). -/
theorem exec_of_contextMissing (hr : s.cs.halt = false) (hwf : i.wellFormed = true) (hm : contextMissing s i) :
    exec i s = .next (s.raise .notConstructed) := by
  cases i with
  | setbit pos v => exact exec_setbit_notConstructed hr (of_decide_eq_true hwf) hm
  | build sel =>
    obtain ⟨hsel, hv⟩ := hm
    exact exec_build_notConstructed hr hsel hv
  | new k n => exact hm.elim
  | select1 k => exact hm.elim
  | select0 k => exact hm.elim
  | select k value => exact hm.elim
  | _ => exact State.checks_notConstructed hr hm

/-- Settles O22: the check of the context decides NotConstructed, both ways. -/
theorem notConstructedIsExact : Obligations.NotConstructedIsExact := by
  refine ⟨fun i s hr hwf => ⟨fun h => ?_, exec_of_contextMissing hr hwf⟩, rfl, rfl, rfl⟩
  exact (exec_interface_code h (State.raise_newestCode s .notConstructed) rfl).1 rfl

/-! ## What a failing command leaves unchanged (60 R192 to R194, R199) -/

/-- HALT and HCAUSE after a raised code, as its number says (60 R193). -/
theorem State.raise_cs_of_number (s : State) (c : StatusCode) : (s.raise c).cs =
    if c.number = 0x10 ∨ c.number = 0x11 then { halt := true, hcause := c.number } else s.cs :=
  (State.raise_cs s c).trans (if_congr StatusCode.number_indexingFault_iff rfl rfl)

/-- The packet of an answer carries its code, and with no result SOME = 0 and RES = 0 (30 R73). -/
theorem Control.response_pack_fields (cs : Control) (c : StatusCode) :
    (cs.response c none).pack.extractLsb' 0 8 = c.number ∧ (cs.response c none).pack.getLsbD 8 = false ∧
      (cs.response c none).pack.extractLsb' 32 64 = 0 := by
  obtain ⟨hcode, hsome, -, -, -, -, hres⟩ := responsePacketLayout (cs.response c none)
  exact ⟨hcode, hsome, hres⟩

/-- A code below 0x20 that a BUILD ends with is a failure once begun, so no check before the build raised it. -/
theorem not_build_of_number_lt (hc : c ≠ .ok) (hnew : c.cls = .construction → ∃ k n, i = .new k n)
    (hfault : c.cls = .indexingFault → ¬ ∃ sel, i = .build sel) :
    ¬ ((∃ sel, i = .build sel) ∧ c.number.toNat < 0x20) := by
  rintro ⟨⟨sel, rfl⟩, hlt⟩
  rcases StatusCode.cls_of_ne_ok hc with hcls | hcls | hcls
  · obtain ⟨k, n, hi⟩ := hnew hcls
    cases hi
  · exact hfault hcls ⟨sel, rfl⟩
  · exact StatusCode.number_lt_interface_iff.1 hlt hcls

/-- Settles O23: a code other than OK is raised by a check, in the state the command began in, or by a BUILD that
has begun, in the state without an index. -/
theorem failingCommandsChangeNothingElse : Obligations.FailingCommandsChangeNothingElse := by
  intro i s t p h hout hp
  rcases exec_next h with ⟨c, hc, rfl, hnew, -, -, hfault⟩ | ⟨sel, e, rfl, -, he, rfl⟩ |
    ⟨u, -, hu, -, -, -, -, hok⟩
  · obtain ⟨rfl, -⟩ := List.cons.inj ((State.raise_out s c).symm.trans hout)
    obtain ⟨hcode, hsome, hres⟩ := (s.raise c).cs.response_pack_fields c
    rw [hcode, hsome, hres, if_neg (not_build_of_number_lt hc hnew hfault)]
    exact ⟨s.raise_cfg c, s.raise_pv c, s.raise_it c, s.raise_xs c, s.raise_input c, rfl, rfl,
      s.raise_cs_of_number c, s.raise_ri c, s.raise_draws c⟩
  · obtain ⟨rfl, -⟩ := List.cons.inj ((State.raise_out s.withoutIndex e).symm.trans hout)
    obtain ⟨hcode, hsome, hres⟩ := (s.withoutIndex.raise e).cs.response_pack_fields e
    have hlt : e.number.toNat < 0x20 := StatusCode.number_lt_interface_iff.2 fun hi => by simp [hi] at he
    have hbegun : (∃ sel', Instr.build sel = .build sel') ∧ e.number.toNat < 0x20 := ⟨⟨sel, rfl⟩, hlt⟩
    rw [hcode, hsome, hres, if_pos hbegun]
    exact ⟨State.raise_cfg _ e, State.raise_pv _ e, State.raise_it _ e, State.raise_xs _ e,
      State.raise_input _ e, rfl, rfl, State.raise_cs_of_number _ e, congrArg RankIndex.valid (State.raise_ri _ e)⟩
  · exfalso
    have hcode : t.newestCode = some (p.extractLsb' 0 8) := by rw [State.newestCode, hout]; rfl
    rcases hok with ⟨rfl, -⟩ | ⟨x, rfl, -⟩
    · exact hp (Option.some.inj (hcode.symm.trans (State.answer_newestCode u .ok none)))
    · exact hp (Option.some.inj (hcode.symm.trans (State.answer_newestCode u .ok (some x))))

/-! ## Free values (60 R198, R191) -/

/-- The next state, if there is one, has used no free value more than the first. -/
def UsesNoFreeValue (s : State) (o : Host.Outcome State Fault Refusal) : Prop :=
  ∀ t, o = .next t → t.draws = s.draws

section Shapes

variable {b : Host.Outcome State Fault Refusal}

theorem UsesNoFreeValue.next (h : t.draws = s.draws) : UsesNoFreeValue s (.next t) := by
  rintro _ ⟨⟩
  exact h

theorem UsesNoFreeValue.unlessHalted (hb : s.cs.halt = false → UsesNoFreeValue s b) :
    UsesNoFreeValue s (s.unlessHalted b) := by
  intro t h
  rcases State.unlessHalted_next h with ⟨-, rfl⟩ | ⟨hr, h⟩
  · exact s.raise_draws _
  · exact hb hr t h

theorem UsesNoFreeValue.ifConstructed {valid : Bool} (hb : valid = true → UsesNoFreeValue s b) :
    UsesNoFreeValue s (s.ifConstructed valid b) := by
  intro t h
  rcases State.ifConstructed_next h with ⟨-, rfl⟩ | ⟨hv, h⟩
  · exact s.raise_draws _
  · exact hb hv t h

/-- A command of one computation uses a free value only if what it does with the result does. -/
theorem UsesNoFreeValue.finish {α : Type} {r : Run α} {f : α → State}
    (hf : ∀ a, r = .ok a → (f a).draws = s.draws) : UsesNoFreeValue s (s.finish (r >>= fun a => .ok (f a))) := by
  intro t h
  rcases State.finish_next h with h | ⟨e, -, rfl⟩
  · obtain ⟨a, ha, hfa⟩ := Run.bind_ok h
    cases hfa
    exact hf a ha
  · exact s.raise_draws e

theorem UsesNoFreeValue.answerIllegal (s : State) : UsesNoFreeValue s s.answerIllegal :=
  .unlessHalted fun _ => .next (s.raise_draws _)

end Shapes

/-- A SET within its precondition stores no free value: the value fits, or a check ends it (41 R119). -/
theorem vset_draws {c : Config} {v v' : Vec} {idx value d d' : Nat} (h : vset c v idx value d = .ok (v', d'))
    (hpre : c.dbg = true ∨ v.n ≤ idx ∨ value < 2 ^ v.k) : d' = d := by
  obtain ⟨-, -, -, hd⟩ := vset_frame h
  rcases hpre with hdbg | hn | hlt
  · exact hd (.inl hdbg)
  · rw [vset, if_pos hn] at h
    cases h
  · exact hd (.inr hlt)

/-- Every command within its unchecked precondition, except BUILD, uses no free value. -/
theorem exec_usesNoFreeValue (hm : meetsPrecondition s i) (hi : ∀ sel, i ≠ .build sel) :
    UsesNoFreeValue s (exec i s) := by
  cases i with
  | new k n => exact .unlessHalted fun _ => .finish fun _ _ => rfl
  | len => exact .unlessHalted fun _ => .ifConstructed fun _ => .next rfl
  | isempty => exact .unlessHalted fun _ => .ifConstructed fun _ => .next rfl
  | get idx => exact .unlessHalted fun _ => .ifConstructed fun _ => .finish fun _ _ => rfl
  | set idx value =>
    refine .unlessHalted fun hr => .ifConstructed fun hv => .finish fun (v, d) hw => vset_draws hw ?_
    exact hm ⟨hr, rfl, by simp [contextMissing, hv]⟩
  | getbit pos =>
    refine .unlessHalted fun hr => .ifConstructed fun hv => ?_
    have hp : pos.toNat < s.pv.vec.bitLength := hm ⟨hr, rfl, by simp [contextMissing, hv]⟩
    rw [if_pos hp]
    exact .finish fun _ _ => rfl
  | setbit pos v =>
    refine .unlessHalted fun hr => ?_
    rcases operandBit_cases v with ⟨hle, hbit⟩ | ⟨-, hbit⟩
    · rw [hbit]
      refine .ifConstructed fun hv => ?_
      have hp : pos.toNat < s.pv.vec.bitLength :=
        hm ⟨hr, decide_eq_true hle, by simp [contextMissing, hv]⟩
      rw [if_pos hp]
      exact .finish fun _ _ => rfl
    · rw [hbit]
      exact .next (s.raise_draws _)
  | iter => exact .unlessHalted fun _ => .ifConstructed fun _ => .next rfl
  | itnext =>
    refine .unlessHalted fun _ => .ifConstructed fun _ => ?_
    split
    next => exact .next rfl
    next => exact .finish fun _ _ => rfl
  | itprev =>
    refine .unlessHalted fun _ => .ifConstructed fun _ => ?_
    split
    next => exact .next rfl
    next => exact .finish fun _ _ => rfl
  | itskip m => exact .unlessHalted fun _ => .ifConstructed fun _ => .next rfl
  | build sel => exact absurd rfl (hi sel)
  | rank position =>
    refine .unlessHalted fun hr => .ifConstructed fun hv => ?_
    have hd : rankDefined s.cfg.W s.ri (s.source s.ri.src) position.toNat :=
      hm ⟨hr, rfl, by simp [contextMissing, hv]⟩
    rw [if_pos hd]
    exact .finish fun _ _ => rfl
  | select1 k => exact .answerIllegal s
  | select0 k => exact .answerIllegal s
  | select k value => exact .answerIllegal s

/-- A BUILD whose selector names a source that exists is let through by the checks before its own. -/
theorem State.admits_build {sel : U64} {src : SourceSel} (hr : s.cs.halt = false)
    (hsel : operandSource sel = some src) (hx : s.sourceExists src = true) : s.admits (.build sel) := by
  rcases operandSource_cases sel with ⟨h0, -⟩ | ⟨h1, hpv⟩ | ⟨-, hnone⟩
  · exact ⟨hr, by simp [Instr.wellFormed, h0], by simp [contextMissing, h0]⟩
  · obtain rfl : SourceSel.pv = src := Option.some.inj (hpv.symm.trans hsel)
    have hv : s.pv.valid = true := hx
    exact ⟨hr, by simp [Instr.wellFormed, h1], by simp [contextMissing, hv]⟩
  · rw [hnone] at hsel
    cases hsel

/-- A build that has a result used no free value when every entry fits or DBG = 1 (43 R169). -/
theorem buildIndex_draws {c : Config} {sel : SourceSel} {src : Source} {d d' : Nat} {ri : RankIndex}
    (hlen : src.bitLen < 2 ^ 64) (h : buildIndex c sel src d = .ok (ri, d'))
    (hpre : c.dbg = true ∨ (tablesConstructible c src → entriesFit c.W src)) : d' = d := by
  rcases buildIndex_cases sel d hlen with ⟨_, -, -, e⟩ | ⟨-, -, -, e⟩ | ⟨ri', d'', e, -, hnone, -, hd⟩ <;>
    rw [e] at h <;> cases h
  exact hd (hpre.imp_right fun hfit => hfit (tableFailure_eq_none.1 hnone))

/-- A BUILD within its precondition uses no free value, unless it fails once begun (log 14). -/
theorem State.Inv.build_draws {sel : U64} (h : s.Inv) (hm : meetsPrecondition s (.build sel))
    (hx : exec (.build sel) s = .next t) : t.draws = s.draws ∨ t.ri.valid = false := by
  rcases execBuild_next hx with ⟨-, rfl⟩ | ⟨hr, ⟨-, rfl⟩ |
    ⟨src, hsel, ⟨-, rfl⟩ | ⟨-, e, -, rfl⟩ | ⟨hexists, ri, d, hb, rfl⟩⟩⟩
  · exact .inl (s.raise_draws _)
  · exact .inl (s.raise_draws _)
  · exact .inl (s.raise_draws _)
  · exact .inr (congrArg RankIndex.valid (State.raise_ri _ e))
  · have hpre : s.cfg.dbg = true ∨ buildFits s sel := hm (State.admits_build hr hsel hexists)
    exact .inl (buildIndex_draws (h.source_bitLen_lt hexists) hb (hpre.imp_right fun hfits => hfits src hsel))

/-- Settles O56: BUILD apart, a command uses a free value only outside its unchecked precondition. -/
theorem noFreeValueWithinTheContract : Obligations.NoFreeValueWithinTheContract := by
  intro i s t h hm hx
  by_cases hi : ∃ sel, i = .build sel
  · obtain ⟨sel, rfl⟩ := hi
    exact (h.build_draws hm hx).imp_right fun hv => ⟨⟨sel, rfl⟩, hv⟩
  · exact .inl (exec_usesNoFreeValue hm (not_exists.1 hi) t hx)

end Sys2Proof.Machine
end

section
/-! PROOFS. Reset and the hazards: the state that reset leaves (70 R215, R216), what a new vector reads (R217), and
what a host does that never halts the block (R224, R226). -/

namespace Sys2Proof.Machine

variable {s t : State}

/-! ## Reset (70 R215, R216) -/

/-- Reset meets the invariant whatever the straps and the source: no context is valid and no event waits. -/
theorem State.afterReset_inv {c : Config} {xs : Source} (hc : c.wf) (hxs : xs.wf c) :
    (State.afterReset c xs).Inv := by
  have hinput : (State.afterReset c xs).inputOk := List.forall_mem_nil _
  exact ⟨hc, rfl, nofun, nofun, nofun, hxs, hinput⟩

/-- Settles O1: the invariant asks of a reset state only that its straps and its source are in their ranges. -/
theorem resetMeetsTheInvariant : Obligations.ResetMeetsTheInvariant := by
  have hstraps : resetConfig.wf := by decide
  have hsource : emptySource.wf resetConfig := by decide
  exact ⟨State.afterReset_inv hstraps hsource, rfl, rfl, rfl, rfl⟩

/-- Both reset events leave the state of the reset input, without the event. -/
theorem step_of_reset {rest : List HostEvent}
    (hin : s.input = .reset :: rest ∨ ∃ p, s.input = .requestCutByReset p :: rest) :
    step s = .next ({ s with input := rest } : State).resetInput := by
  rcases hin with hin | ⟨p, hin⟩
  · exact step_of_cons hin
  · exact step_of_cons hin

/-- Settles O4, by what the reset input leaves of each field. -/
theorem resetInputClearsTheContexts : Obligations.ResetInputClearsTheContexts := by
  intro s rest hin
  exact ⟨_, step_of_reset hin, rfl, rfl, rfl, rfl, rfl, rfl, rfl, rfl, rfl⟩

/-! ## A new vector (70 R217) -/

theorem Vec.zeros_element (W k n i : Nat) : (Vec.zeros W k n).element W i = 0 :=
  Memory.zeros_field _ _ _ _

theorem vget_zeros {c : Config} {k i : Nat} {n : U64} (hc : constructible c k n.toNat) (hi : i < n.toNat) :
    vget c (Vec.zeros c.W k n.toNat) i = .ok 0 := by
  have hwf : (Vec.zeros c.W k n.toNat).wf c := vnew_wf n.isLt (vnew_eq_ok hc)
  rw [vget_eq hwf hi, Vec.zeros_element]

theorem exec_get_of_ok {i : U64} {x : Word} (hr : s.cs.halt = false) (hv : s.pv.valid = true)
    (hw : vget s.cfg s.pv.vec i.toNat = .ok x) : exec (.get i) s = .next (s.respond x) := by
  refine (State.checks_pass hr hv).trans ?_
  rw [hw]
  rfl

/-- Settles O26: NEW installs the vector of zero words, whose elements spell 0 on every path of GET. -/
theorem elementsOfANewVectorReadZero : Obligations.ElementsOfANewVectorReadZero := by
  intro s k n i hr hc hi
  exact ⟨_, exec_new_of_ok hr (vnew_eq_ok hc), exec_get_of_ok hr rfl (vget_zeros hc hi)⟩

/-! ## The careful host (70 R224, R226) -/

/-- GET of an index below LEN, or one that an earlier check ends, does not halt the block. -/
theorem exec_get_cs {idx : U64} (hr : s.cs.halt = false) (hs : staysRunning s (.get idx))
    (hx : exec (.get idx) s = .next t) : t.cs = s.cs := by
  rcases execGet_next hx with ⟨-, rfl⟩ | ⟨-, ⟨-, rfl⟩ | ⟨hv, hout, -⟩ | ⟨-, x, -, rfl⟩⟩
  · rfl
  · rfl
  · have hlt : idx.toNat < s.pv.vec.n := hs ⟨hr, rfl, by simp [contextMissing, hv]⟩
    omega
  · rfl

/-- SET of an index below LEN does not halt the block, if its value fits where values are checked. -/
theorem exec_set_cs {idx value : U64} (hr : s.cs.halt = false) (hs : staysRunning s (.set idx value))
    (hx : exec (.set idx value) s = .next t) : t.cs = s.cs := by
  have careful (hv : s.pv.valid = true) :
      idx.toNat < s.pv.vec.n ∧ (s.cfg.dbg = true → value.toNat < 2 ^ s.pv.vec.k) :=
    hs ⟨hr, rfl, by simp [contextMissing, hv]⟩
  rcases execSet_next hx with
    ⟨-, rfl⟩ | ⟨-, ⟨-, rfl⟩ | ⟨hv, hout, -⟩ | ⟨hv, hdbg, hwide, -⟩ | ⟨-, v, d, -, rfl⟩⟩
  · rfl
  · rfl
  · obtain ⟨hlt, -⟩ := careful hv
    omega
  · obtain ⟨-, hfit⟩ := careful hv
    exact absurd (hfit hdbg) (not_lt.2 hwide)
  · rfl

/-- A build whose entries all fit, or are not checked, fails only where a table cannot be made (43 R169). -/
theorem buildIndex_raised_construction {c : Config} {sel : SourceSel} {src : Source} {d : Nat} {e : StatusCode}
    (hlen : src.bitLen < 2 ^ 64) (hpre : c.dbg = false ∨ (tablesConstructible c src → entriesFit c.W src))
    (h : buildIndex c sel src d = .error (.raised e)) : e.cls = .construction := by
  rcases buildIndex_cases sel d hlen with
    ⟨code, hcls, -, hb⟩ | ⟨hnone, hdbg, hbad, -⟩ | ⟨ri, d', hb, -⟩
  · rw [hb] at h
    cases h
    exact hcls
  · rcases hpre with hoff | hfit
    · rw [hdbg] at hoff
      cases hoff
    · exact absurd (hfit (tableFailure_eq_none.1 hnone)) hbad
  · rw [hb] at h
    cases h

/-- BUILD does not halt the block if its entries all fit, or are not checked. -/
theorem State.Inv.build_cs {sel : U64} (h : s.Inv) (hr : s.cs.halt = false) (hs : staysRunning s (.build sel))
    (hx : exec (.build sel) s = .next t) : t.cs = s.cs := by
  rcases execBuild_next hx with ⟨-, rfl⟩ | ⟨-, ⟨-, rfl⟩ |
    ⟨src, hsel, ⟨-, rfl⟩ | ⟨hexists, e, hb, rfl⟩ | ⟨-, ri, d, -, rfl⟩⟩⟩
  · rfl
  · rfl
  · rfl
  · have hpre : s.cfg.dbg = false ∨ buildFits s sel := hs (State.admits_build hr hsel hexists)
    have hcls : e.cls = .construction :=
      buildIndex_raised_construction (h.source_bitLen_lt hexists) (hpre.imp_right fun hfits => hfits src hsel) hb
    rw [State.raise_cs, if_neg (by rw [hcls]; decide), State.withoutIndex_cs]
  · rfl

/-- Settles O57: GET, SET and BUILD alone can halt a block that meets the invariant, and none of the three does
for a careful host. -/
theorem carefulHostsNeverHalt : Obligations.CarefulHostsNeverHalt := by
  intro i s t h hr hs hx
  by_contra hne
  obtain ⟨-, -, -, ⟨idx, rfl⟩ | ⟨idx, value, rfl⟩ | ⟨sel, rfl⟩⟩ := exec_cs h hx hne
  · exact hne (exec_get_cs hr hs hx)
  · exact hne (exec_set_cs hr hs hx)
  · exact hne (h.build_cs hr hs hx)

end Sys2Proof.Machine
end
